-- ==== Sys2Proof/Word.lean ====
section
/-! DEFINITION. Word.lean: the byte, the byte sequence and the register widths of CORE (10_state.md R20 to R35). -/

namespace Sys2Proof

/-- A symbol and a buffer cell: 8 bits (00_scope.md R9). -/
abbrev Byte := BitVec 8

/-- `Seq` of 00_scope.md R13: a finite sequence of bytes. -/
abbrev Symbols := List Byte

/-- A value of `IN_LEN_WIDTH` = 32 bits: a length, a buffer index, or `S.next_code` (10_state.md R20, R28). -/
abbrev Word32 := BitVec 32

/-- A code width or `max_bits`: 5 bits (10_state.md R28). -/
abbrev Width := BitVec 5

/-- A code as pulled from a stream: at most 31 bits (30_encoding.md R73). -/
abbrev Code31 := BitVec 31

end Sys2Proof
end

