-- ==== Sys2Proof/Config.lean ====
section
/-! DEFINITION. Config.lean: the implementation parameters of 00_scope.md R10, and the free values: what
93_implementation_defined.md section 1 treats as "any value". A free value is a constant without a body, applied to the
number of a draw (a counter in State) and, for a buffer, to the index: nothing can be proved of what it is. -/

namespace Sys2Proof

/-- `ZERO_CODE_POLICY` (00_scope.md R10, 92_eei_decisions.md D8). -/
inductive ZeroPolicy where
  | accept
  | reject
deriving DecidableEq, Repr

/-- The parameters a built CORE fixes (00_scope.md R10); `outCap = none` is "unbounded". `IN_LEN_WIDTH` is 32 by
decision D22 and stands in the register widths. -/
structure Params where
  maxBitsCap : Nat
  zeroPolicy : ZeroPolicy
  outCap : Option Nat
deriving DecidableEq, Repr

/-- The ranges of 93_implementation_defined.md U16 and U18. -/
abbrev Params.wf (p : Params) : Prop :=
  9 ≤ p.maxBitsCap ∧ p.maxBitsCap ≤ 31 ∧ ∀ c ∈ p.outCap, 1 ≤ c

/-- The defaults of 00_scope.md R10. -/
def Params.default : Params := { maxBitsCap := 31, zeroPolicy := .accept, outCap := none }

namespace Config

/-- U1: the byte at an index of `IN_BUF` that nothing has written since power-on number `draw`. Log 3. -/
opaque inByte : (draw index : Nat) → Byte

/-- U1, U3, U4: the byte at an index of `OUT_BUF` that the transaction named by `draw` has not written. Logs 3, 8, 9. -/
opaque outByte : (draw index : Nat) → Byte

/-- U5: what CORE reads at an `IN_BUF` index the host wrote while `BUSY = 1`. Log 10. -/
opaque raceByte : (draw : Nat) → Byte

/-- U6: what a host read of `OUT_LEN` or `OUT_BUF` returns while `BUSY = 1`. Log 11. -/
opaque busyRead : (draw : Nat) → Word32

/-- U3: `OUT_LEN` after a transaction ended in error. Log 8. -/
opaque outLenAfterError : (draw : Nat) → Word32

/-- `OUT_LEN` after an append at index `2^32 - 1`: no rule states a value that fits the register. Log 12. -/
opaque outLenPastEnd : (draw : Nat) → Word32

end Config
end Sys2Proof
end

