-- ==== Sys2Proof/Syntax.lean ====
section
/-! DEFINITION. Syntax.lean: one constructor of `Instr` per row of spec/opcode_table.json. -/

namespace Sys2Proof

/-- The seven classes of a pulled code, in the order in which 30_encoding.md R76 checks them. -/
inductive CodeClass where
  | zeroReject
  | clear
  | firstLiteral
  | firstBad
  | known
  | kwkwk
  | unknown
deriving DecidableEq, Repr

/-- The step labels of 30_encoding.md R81. A label outside its table is unused: it names no operation. -/
inductive UnitLabel where
  | hdrWrite
  | hdrRead
  | bwPush
  | bwFlush
  | brPull
  | dictReset
  | encDictLookup
  | decDictLookup
  | dictInsertIfRoom
  | dictMaybeGrow
  | encStart
  | encSymbol
  | encFinish
  | decStart
  | decCode
deriving DecidableEq, Repr

/-- The operations of the opcode table. A unit operation's operands are no bits of its word (30_encoding.md R81):
its constructor has none, and they are read from the operand latch of State (log 5). -/
inductive Instr where
  /-- ENCODE, `CMD = 0x01` (43_encoder.md R155). -/
  | encode
  /-- DECODE, `CMD = 0x02` (44_decoder.md R176). -/
  | decode
  /-- ILLEGAL_CMD, any other `CMD` value (45_control.md R192). -/
  | illegalCmd (op : Byte)
  /-- HDR_WRITE, label 0x10 (40_header_codec.md R101). -/
  | hdrWrite
  /-- HDR_READ, label 0x11 (40_header_codec.md R102). -/
  | hdrRead
  /-- BW_PUSH, label 0x20 (41_bitstream.md R110). -/
  | bwPush
  /-- BW_FLUSH, label 0x21 (41_bitstream.md R112). -/
  | bwFlush
  /-- BR_PULL, label 0x22 (41_bitstream.md R114). -/
  | brPull
  /-- DICT_RESET, label 0x30 (42_dictionary.md R130). -/
  | dictReset
  /-- ENC_DICT_LOOKUP, label 0x31 (42_dictionary.md R131). -/
  | encDictLookup
  /-- DEC_DICT_LOOKUP, label 0x32 (42_dictionary.md R132). -/
  | decDictLookup
  /-- DICT_INSERT_IF_ROOM, label 0x33 (42_dictionary.md R133). -/
  | dictInsertIfRoom
  /-- DICT_MAYBE_GROW, label 0x34 (42_dictionary.md R134). -/
  | dictMaybeGrow
  /-- ENC_START, label 0x40 (43_encoder.md R150). -/
  | encStart
  /-- ENC_SYMBOL, label 0x41 (43_encoder.md R152). -/
  | encSymbol
  /-- ENC_FINISH, label 0x42 (43_encoder.md R153). -/
  | encFinish
  /-- DEC_START, label 0x50 (44_decoder.md R170). -/
  | decStart
  /-- DEC_CODE, label 0x51 (44_decoder.md R171). -/
  | decCode
  /-- CODE_ZERO_REJECT: the code 0 under `ZERO_CODE_POLICY = reject` (44_decoder.md R173). -/
  | codeZeroReject
  /-- CODE_CLEAR: the code 256 in block mode (44_decoder.md R173). -/
  | codeClear
  /-- CODE_FIRST_LITERAL: the first code, at most 255 (44_decoder.md R172). -/
  | codeFirstLiteral (k : Byte)
  /-- CODE_FIRST_BAD: the first code, above 255 (44_decoder.md R172). -/
  | codeFirstBad (k : Code31)
  /-- CODE_KNOWN: a later code that is a key of `S.DD` (44_decoder.md R174). -/
  | codeKnown (k : Code31)
  /-- CODE_KWKWK: a later code equal to `S.next_code` (44_decoder.md R174). -/
  | codeKwkwk (k : Code31)
  /-- CODE_UNKNOWN: any other later code (44_decoder.md R174). -/
  | codeUnknown (k : Code31)
  /-- HEADER: the stream's three header bytes `1F 9D Mxxbbbbb` (30_encoding.md R70, R72); `x` is ignored. -/
  | header (m : Bool) (b : Width)
deriving DecidableEq, Repr

end Sys2Proof
end

