-- ==== Sys2Proof/Machine/State.lean ====
section
/-! DEFINITION. Machine/State.lean: everything 10_state.md gives the machine, as plain data, the model's own input and
result fields, and the machine right after reset. -/

namespace Sys2Proof.Machine

/-- `PHASE` (10_state.md R40); the values 9..255 are never taken. -/
inductive Phase where
  | idle
  | encEmpty
  | encMatching
  | encFlushed
  | decAwaitHeader
  | decInit
  | decRunning
  | decDone
  | error
deriving DecidableEq, Repr

/-- The error kinds (60_exceptions.md R200); `outOfRangeSymbol` is never raised by this hardware (R204). -/
inductive ErrKind where
  | invalidHeader
  | corruptStream
  | unsupportedClearCode
  | outOfRangeSymbol
  | invalidArgument
  | outputOverflow
deriving DecidableEq, Repr

/-- A direction or a dictionary side: `STATUS.DIR` (10_state.md R22), `side` (42_dictionary.md R130). -/
inductive Side where
  | encode
  | decode
deriving DecidableEq, Repr

/-- The four flags of `STATUS` (10_state.md R22); bits 7:4 read 0. -/
structure Status where
  busy : Bool
  done : Bool
  err : Bool
  dir : Side
deriving DecidableEq, Repr

/-- A byte buffer: (index, byte) pairs, indices strictly rising. An unlisted index holds no value of the list's: what
is read there is a free value (log 3). -/
abbrev Memory := List Host.Cell

/-- `S.DD` (10_state.md R36): (code, Seq) pairs, codes strictly rising. -/
abbrev DecTable := List (Nat × Symbols)

/-- `S.ED` (10_state.md R37): (Seq, code) pairs, the latest insertion first. -/
abbrev EncTable := List (Symbols × Word32)

/-- The operands of a unit operation issued on its own (30_encoding.md R81, column "operands"; log 5). -/
structure Operands where
  /-- HDR_WRITE and DICT_RESET: `m`. -/
  blockMode : Bool
  /-- HDR_WRITE: `b`, 8 bits. -/
  maxBits : Byte
  /-- BW_PUSH and DEC_DICT_LOOKUP: the code. -/
  code : Word32
  /-- BW_PUSH and BR_PULL: the width. -/
  width : Byte
  /-- ENC_DICT_LOOKUP and DICT_INSERT_IF_ROOM: the key. -/
  key : Symbols
  /-- DICT_RESET and DICT_INSERT_IF_ROOM: the side. -/
  side : Side
deriving DecidableEq, Repr

/-- What a unit operation issued on its own returned (log 5). -/
inductive UnitResult where
  | none
  /-- HDR_READ (40_header_codec.md R102). -/
  | headerRead (m : Bool) (b : Width)
  /-- BR_PULL (41_bitstream.md R114). -/
  | pulled (k : Option Code31)
  /-- ENC_DICT_LOOKUP (42_dictionary.md R131). -/
  | encFound (c : Option Word32)
  /-- DEC_DICT_LOOKUP (42_dictionary.md R132). -/
  | decFound (e : Option Symbols)
  /-- DICT_INSERT_IF_ROOM (42_dictionary.md R133). -/
  | inserted (b : Bool)
deriving DecidableEq, Repr

/-- A word issued to a unit directly, past the controller (log 5). A label that names no operation (30_encoding.md R81)
and a code of more than 31 bits (R73) have no move. -/
inductive IssueWord where
  | label (l : UnitLabel) (ops : Operands)
  | code (k : Code31)
  | header (b0 b1 b2 : Byte)
deriving DecidableEq, Repr

/-- One move from outside CORE (45_control.md R195, 70_reset_and_hazards.md R230; log 4). -/
inductive Input where
  /-- The host writes register `idx`; index 0 is CMD. -/
  | writeReg (idx : Nat) (v : Word32)
  /-- The host reads register `idx` into `readData`. -/
  | readReg (idx : Nat)
  /-- The host writes a byte of IN_BUF. -/
  | writeIn (i : Word32) (b : Byte)
  /-- The host reads a byte of OUT_BUF into `readData`. -/
  | readOut (i : Word32)
  /-- WAIT (30_encoding.md R90): nothing more from the host until `BUSY = 0`. -/
  | wait
  /-- The host lets CORE take one step. -/
  | yield
  /-- Hardware reset (70_reset_and_hazards.md R230). -/
  | reset
  /-- A bench issues one operation (log 5); the host cannot (30_encoding.md R81). -/
  | issue (w : IssueWord)
deriving DecidableEq, Repr

/-- The state of the machine. -/
structure State where
  /-- 00_scope.md R10; no step changes it (log 1). -/
  params : Params
  /-- `CONFIG` (10_state.md R21). -/
  config : Byte
  /-- `STATUS` (R22). -/
  status : Status
  /-- `ERRCODE` (R23); `none` is 0. -/
  errcode : Option ErrKind
  /-- `STREAM_CFG` (R24). -/
  streamCfg : Byte
  /-- `STAT_MAXW` (R25). -/
  statMaxw : Byte
  /-- `STAT_FINALW` (R25). -/
  statFinalw : Byte
  /-- `IN_LEN` (R20). -/
  inLen : Word32
  /-- `OUT_LEN` (R20). -/
  outLen : Word32
  /-- `PHASE` (R40). -/
  phase : Phase
  /-- `IN_BUF` (R27). -/
  inBuf : Memory
  /-- `OUT_BUF` (R27). -/
  outBuf : Memory
  /-- `CONFIG` as sampled at acceptance (45_control.md R190). -/
  sampledConfig : Byte
  /-- `IN_LEN` as sampled at acceptance (45_control.md R190). -/
  sampledInLen : Word32
  /-- The accepted transaction's start step has not run yet (log 21). -/
  starting : Bool
  /-- `S.block_mode` (R28). -/
  blockMode : Bool
  /-- `S.max_bits` (R28). -/
  maxBits : Width
  /-- `S.code_width` (R28). -/
  codeWidth : Width
  /-- `S.next_code` (R28). -/
  nextCode : Word32
  /-- `S.DD` (R36). -/
  dd : DecTable
  /-- `S.ED` (R37). -/
  ed : EncTable
  /-- `S.w` (R31). -/
  w : Symbols
  /-- `S.in_idx` (R31). -/
  inIdx : Word32
  /-- `S.acc` (R32). -/
  acc : BitVec 39
  /-- `S.nbits` (R32). -/
  nbits : BitVec 6
  /-- `S.byte_index` (R33). -/
  byteIndex : Word32
  /-- `S.bit_offset` (R33). -/
  bitOffset : BitVec 3
  /-- `S.dw` (R34); `none` is the spec's own. -/
  dw : Option Symbols
  /-- `S.maxw` (R35). -/
  maxw : Width
  /-- MODEL'S OWN: the pending moves from outside, the next one first (log 4). -/
  inputs : List Input
  /-- MODEL'S OWN: what the last host read returned (log 4). -/
  readData : Word32
  /-- MODEL'S OWN: the operand latch of an operation issued on its own (log 5). -/
  operands : Operands
  /-- MODEL'S OWN: what an operation issued on its own returned (log 5). -/
  result : UnitResult
  /-- MODEL'S OWN: the number of the next free value (log 3). -/
  draws : Nat
  /-- MODEL'S OWN: the draw that names what unwritten bytes of IN_BUF hold (log 3). -/
  inDraw : Nat
  /-- MODEL'S OWN: the draw that names what unwritten bytes of OUT_BUF hold (log 3). -/
  outDraw : Nat
  /-- MODEL'S OWN: the IN_BUF indices the host wrote while BUSY = 1, each with its draw (log 10). -/
  raced : List (Nat × Nat)
deriving DecidableEq, Repr

/-- Why a step stops with a fault. -/
inductive Fault where
  /-- Raised by ENC_SYMBOL, ENC_FINISH, CODE_KNOWN and CODE_KWKWK where the rule would read a value that does not
  exist: `S.ED[S.w]` with `S.w` no key, `S.dw` while none, the first byte of an empty entry. No transaction reaches it
  (10_state.md R31, R34, R36, R231). Safe: the machine stops. Log 15. -/
  | undefinedRead
  /-- Raised by a host read of OUT_BUF at an index at or above OUT_CAP: the index does not exist (20_memory.md R50).
  Safe: the machine stops. Log 25. -/
  | outIndexBeyondCap
deriving DecidableEq, Repr

/-- Why an operation is refused. -/
inductive Refusal where
  /-- Raised by an arm of `exec` without a meaning. Safe. -/
  | notModelled (mnemonic : String)
  /-- Raised by a controller step, a code class or a header issued on its own in a phase in which no rule runs it. No
  controller selects one so. Safe. Log 16. -/
  | outOfPhase
  /-- Raised by a code class run on a code that 30_encoding.md R76 puts in another class. Safe. Log 16. -/
  | classMismatch
deriving DecidableEq, Repr

/-- The operand latch at reset (log 5). -/
def Operands.zero : Operands :=
  { blockMode := false, maxBits := 0, code := 0, width := 0, key := [], side := .encode }

/-- Right after power-on: the registers as 10_state.md R20 and 70_reset_and_hazards.md R230 give them, the parameters at
their defaults (00_scope.md R10), the buffers with nothing listed; the internal state, which R230 leaves unspecified, at
the values of log 2. -/
def State.reset : State :=
  { params := Params.default
    config := 0x90, status := { busy := false, done := false, err := false, dir := .encode }, errcode := none
    streamCfg := 0, statMaxw := 0, statFinalw := 0, inLen := 0, outLen := 0, phase := .idle
    inBuf := [], outBuf := []
    sampledConfig := 0, sampledInLen := 0, starting := false
    blockMode := false, maxBits := 0, codeWidth := 0, nextCode := 0, dd := [], ed := []
    w := [], inIdx := 0, acc := 0, nbits := 0, byteIndex := 0, bitOffset := 0, dw := none, maxw := 0
    inputs := [], readData := 0, operands := .zero, result := .none
    draws := 1, inDraw := 0, outDraw := 0, raced := [] }

end Sys2Proof.Machine
end

