-- ==== Sys2Proof/Machine/Flags.lean ====
section
/-! DEFINITION. Machine/Flags.lean: the byte forms of STATUS, ERRCODE and PHASE, and how each event sets the flags of
STATUS. CORE has no arithmetic condition codes (10_state.md R41). -/

namespace Sys2Proof.Machine

def flagBit (b : Bool) (v : Byte) : Byte := if b then v else 0

/-- `STATUS` as a byte (10_state.md R22). -/
def Status.toByte (f : Status) : Byte :=
  flagBit f.busy 0x01 ||| flagBit f.done 0x02 ||| flagBit f.err 0x04 ||| flagBit (f.dir = .decode) 0x08

/-- The number of an error kind (60_exceptions.md R200). -/
def ErrKind.toByte : ErrKind → Byte
  | .invalidHeader => 1
  | .corruptStream => 2
  | .unsupportedClearCode => 3
  | .outOfRangeSymbol => 4
  | .invalidArgument => 5
  | .outputOverflow => 6

/-- `ERRCODE` as a byte (10_state.md R23). -/
def errcodeByte : Option ErrKind → Byte
  | none => 0
  | some e => e.toByte

/-- `PHASE` as a byte (10_state.md R40). -/
def Phase.toByte : Phase → Byte
  | .idle => 0
  | .encEmpty => 1
  | .encMatching => 2
  | .encFlushed => 3
  | .decAwaitHeader => 4
  | .decInit => 5
  | .decRunning => 6
  | .decDone => 7
  | .error => 8

/-- Acceptance (45_control.md R190). -/
def statusAccepted (d : Side) : Status := { busy := true, done := false, err := false, dir := d }

/-- Successful completion (43_encoder.md R156, 44_decoder.md R176). -/
def statusDone (d : Side) : Status := { busy := false, done := true, err := false, dir := d }

/-- Rejection (45_control.md R192) and abort (60_exceptions.md R210): DIR unchanged. -/
def statusFailed (f : Status) : Status := { busy := false, done := false, err := true, dir := f.dir }

end Sys2Proof.Machine
end

