-- ==== Sys2Proof/Machine/Memory.lean ====
section
/-! DEFINITION. Machine/Memory.lean: lists of (number, value) pairs with strictly rising numbers, in which the byte
buffers, the decode table and the raced indices are held, and the encode table's lookup and update. -/

namespace Sys2Proof.Machine

/-- The value listed at `a`. -/
def assocGet {α : Type} : List (Nat × α) → Nat → Option α
  | [], _ => none
  | (k, v) :: t, a => if k = a then some v else assocGet t a

/-- The list with `v` at `a`, every other number as before. -/
def assocSet {α : Type} : List (Nat × α) → Nat → α → List (Nat × α)
  | [], a, v => [(a, v)]
  | (k, x) :: t, a, v =>
    if a < k then (a, v) :: (k, x) :: t
    else if a = k then (a, v) :: t
    else (k, x) :: assocSet t a v

/-- The canonical form: numbers strictly rising. -/
abbrev AssocWf {α : Type} (l : List (Nat × α)) : Prop :=
  (l.map Prod.fst).Pairwise (· < ·)

/-- The canonical form of a buffer. An unlisted index reads as no value, so no entry can equal what it reads as. -/
abbrev Memory.wf (m : Memory) : Prop := AssocWf m

/-- The byte listed at an index, if any. -/
def memRead (m : Memory) (i : Nat) : Option Byte := assocGet m i

def memWrite (m : Memory) (i : Nat) (b : Byte) : Memory := assocSet m i b

/-- `S.DD[k]`, where `k` is a key. -/
def ddGet (t : DecTable) (k : Nat) : Option Symbols := assocGet t k

def ddSet (t : DecTable) (k : Nat) (e : Symbols) : DecTable := assocSet t k e

/-- `S.ED[key]`, where `key` is a key. -/
def edGet : EncTable → Symbols → Option Word32
  | [], _ => none
  | (s, c) :: t, key => if s = key then some c else edGet t key

/-- `S.ED[key] <- code`. -/
def edSet (t : EncTable) (key : Symbols) (code : Word32) : EncTable :=
  (key, code) :: t.filter (fun e => decide (e.1 ≠ key))

end Sys2Proof.Machine
end

