-- ==== Sys2Proof/Machine/Ops.lean ====
section
/-! DEFINITION. Machine/Ops.lean: the operations the meanings share: raising an error and the abort it takes, the
two buffers, acceptance, rejection, completion, reset, and the host's register accesses. -/

namespace Sys2Proof.Machine

/-- What an operation's pseudocode does: it runs to its end with a value, it raises an error kind (00_scope.md R14), or
it reads a value that does not exist (log 15). -/
inductive Res (α : Type) where
  | ok (a : α) (s : State)
  | raise (e : ErrKind) (s : State)
  | undef
deriving Repr

/-- Sequencing: a raise or an undefined read ends the operation ("the step's remaining effects do not happen",
60_exceptions.md R210). -/
def resBind {α β : Type} (r : Res α) (f : α → State → Res β) : Res β :=
  match r with
  | .ok a s => f a s
  | .raise e s => .raise e s
  | .undef => .undef

/-! ## Errors -/

/-- OUT_BUF and OUT_LEN after an error are any value (44_decoder.md R177, U3, log 8). -/
def loseOutput (s : State) : State :=
  { s with outBuf := [], outDraw := s.draws, outLen := Config.outLenAfterError s.draws, draws := s.draws + 1 }

/-- Abort (60_exceptions.md R210): taking the machine's exception. Nothing is saved and control goes nowhere. -/
def abort (e : ErrKind) (s : State) : State :=
  loseOutput { s with status := statusFailed s.status, errcode := some e, phase := .error, starting := false }

/-- The step that an operation is: a raise is a next state, the aborted one. -/
def finish {α : Type} (r : Res α) (k : α → State → State) : Host.Outcome State Fault Refusal :=
  match r with
  | .ok a s => .next (k a s)
  | .raise e s => .next (abort e s)
  | .undef => .fault .undefinedRead

/-- The step of an operation that returns nothing. -/
def finishUnit (r : Res Unit) : Host.Outcome State Fault Refusal :=
  finish r fun _ s => s

/-! ## Buffers -/

/-- `MemRead(IN, i, 1)` by CORE (00_scope.md R14): any value where the host wrote the index in this transaction
(20_memory.md R63), else the byte written there, else what the unwritten buffer holds (U1). -/
def coreRead (s : State) (i : Nat) : Byte :=
  match assocGet s.raced i with
  | some d => Config.raceByte d
  | none =>
    match memRead s.inBuf i with
    | some b => b
    | none => Config.inByte s.inDraw i

/-- `OUT_LEN` has reached `OUT_CAP` (60_exceptions.md R206, 20_memory.md R60; log 13). -/
def outFull (s : State) : Bool :=
  match s.params.outCap with
  | none => false
  | some c => decide (c ≤ s.outLen.toNat)

/-- `MemWrite(OUT, S.OUT_LEN, 1, v); S.OUT_LEN <- S.OUT_LEN + 1` (00_scope.md R14); a length that does not fit 32 bits
is a free value (log 12). -/
def appendOut (b : Byte) (s : State) : State :=
  let s' := { s with outBuf := memWrite s.outBuf s.outLen.toNat b }
  if s.outLen.toNat + 1 < 2 ^ 32 then { s' with outLen := s.outLen + 1 }
  else { s' with outLen := Config.outLenPastEnd s.draws, draws := s.draws + 1 }

/-- `Emit(v)` (00_scope.md R14, 60_exceptions.md R206). -/
def emit (b : Byte) (s : State) : Res Unit :=
  if outFull s then .raise .outputOverflow s else .ok () (appendOut b s)

/-- `for x in entry: Emit(x)` (44_decoder.md R171). -/
def emitAll : Symbols → State → Res Unit
  | [], s => .ok () s
  | b :: t, s => resBind (emit b s) fun _ s' => emitAll t s'

/-- `OUT_LEN <- 0` at the start of a transaction: no byte of OUT_BUF is this transaction's, so every one is any value
(U4, log 9). -/
def clearOut (s : State) : State :=
  { s with outLen := 0, outBuf := [], outDraw := s.draws, draws := s.draws + 1 }

/-! ## Commands and reset -/

/-- Acceptance (45_control.md R190). `STREAM_CFG` is not changed; no byte is raced in the new transaction. -/
def accept (d : Side) (s : State) : State :=
  { s with
    status := statusAccepted d, errcode := none, statMaxw := 0, statFinalw := 0
    sampledConfig := s.config, sampledInLen := s.inLen, raced := []
    phase := match d with | .encode => .encEmpty | .decode => .decAwaitHeader
    starting := true }

/-- Rejection (45_control.md R192). -/
def reject (s : State) : State :=
  { s with status := statusFailed s.status, errcode := some .invalidArgument, phase := .error }

/-- Successful completion (43_encoder.md R153, R156, 44_decoder.md R175, R176). -/
def complete (d : Side) (s : State) : State :=
  { s with
    status := statusDone d, errcode := none
    statMaxw := s.maxw.setWidth 8, statFinalw := s.codeWidth.setWidth 8
    phase := match d with | .encode => .encFlushed | .decode => .decDone }

/-- Power-on reset taken in any state (70_reset_and_hazards.md R230): the registers as after power-on, fresh unspecified
buffer contents (U7); parameters, pending moves and draws are no state of CORE. Log 14. -/
def hardReset (s : State) : State :=
  { State.reset with
    params := s.params, inputs := s.inputs, readData := s.readData
    inDraw := s.draws, outDraw := s.draws, draws := s.draws + 1 }

/-! ## The host's accesses -/

/-- A write of a register other than CMD (10_state.md R20, R21): `CONFIG` keeps its reserved bits 0, read-only registers
and indices above 9 ignore it. -/
def writeReg (idx : Nat) (v : Word32) (s : State) : State :=
  if idx = 1 then { s with config := v.setWidth 8 &&& 0x9F#8 }
  else if idx = 7 then { s with inLen := v }
  else s

/-- What a register reads as while its value is defined (10_state.md R20): CMD and indices above 9 read 0. -/
def regValue (s : State) (idx : Nat) : Word32 :=
  match idx with
  | 1 => s.config.setWidth 32
  | 2 => s.status.toByte.setWidth 32
  | 3 => (errcodeByte s.errcode).setWidth 32
  | 4 => s.streamCfg.setWidth 32
  | 5 => s.statMaxw.setWidth 32
  | 6 => s.statFinalw.setWidth 32
  | 7 => s.inLen
  | 8 => s.outLen
  | 9 => s.phase.toByte.setWidth 32
  | _ => 0

/-- A host read that returns any value (20_memory.md R63, U6). -/
def readFree (s : State) : State :=
  { s with readData := Config.busyRead s.draws, draws := s.draws + 1 }

/-- A host read of a register: `OUT_LEN` is any value while `BUSY = 1` (20_memory.md R63). DESIGN CHOICE (log 27): every
other register reads as its value in the order of the steps, also where R62 promises no order. -/
def readReg (idx : Nat) (s : State) : State :=
  if idx = 8 ∧ s.status.busy = true then readFree s else { s with readData := regValue s idx }

/-- A host read of OUT_BUF below OUT_CAP: any value while `BUSY = 1`; the byte this transaction wrote; else any value
(U1, U3, U4). DESIGN CHOICE (log 27): at `BUSY = 0` the byte is seen whether or not the host has read STATUS. -/
def readOut (i : Word32) (s : State) : State :=
  if s.status.busy = true then readFree s
  else
    match memRead s.outBuf i.toNat with
    | some b => { s with readData := b.setWidth 32 }
    | none => { s with readData := (Config.outByte s.outDraw i.toNat).setWidth 32 }

/-- An OUT_BUF index that exists: below OUT_CAP (20_memory.md R50). -/
def outIndexExists (s : State) (i : Word32) : Bool :=
  match s.params.outCap with
  | none => true
  | some c => decide (i.toNat < c)

/-- A host write of a byte of IN_BUF (10_state.md R27). While `BUSY = 1` what CORE reads there is any value for the rest
of the transaction (20_memory.md R63, U5). -/
def writeIn (i : Word32) (b : Byte) (s : State) : State :=
  let s' := { s with inBuf := memWrite s.inBuf i.toNat b }
  if s.status.busy = true then
    { s' with raced := assocSet s.raced i.toNat s.draws, draws := s.draws + 1 }
  else s'

end Sys2Proof.Machine
end

