-- ==== Sys2Proof/Machine/Control.lean ====
section
/-! DEFINITION. Machine/Control.lean: the commands: ENCODE, DECODE, and any other value of CMD (45_control.md). -/

namespace Sys2Proof.Machine

/-- ENCODE written to CMD: acceptance (45_control.md R190); ignored while `BUSY = 1` (R193). -/
def execEncode (s : State) : Host.Outcome State Fault Refusal :=
  if s.status.busy then .next s else .next (accept .encode s)

/-- DECODE written to CMD: acceptance (45_control.md R190); ignored while `BUSY = 1` (R193). -/
def execDecode (s : State) : Host.Outcome State Fault Refusal :=
  if s.status.busy then .next s else .next (accept .decode s)

/-- Any other value written to CMD: rejection (45_control.md R192); ignored while `BUSY = 1` (R193). -/
def execIllegalCmd (_op : Byte) (s : State) : Host.Outcome State Fault Refusal :=
  if s.status.busy then .next s else .next (reject s)

end Sys2Proof.Machine
end

