-- ==== Sys2Proof/WellFormed.lean ====
section
/-! DEFINITION. WellFormed.lean: which terms of `Instr` are instructions: the operand bounds that the opcode table's
rows and 30_encoding.md R76 put on a word, and that its type does not. -/

namespace Sys2Proof

/-- An illegal command is a `CMD` value other than 0x01 and 0x02 (30_encoding.md R80); FIRST_BAD needs a code above 255
(30_encoding.md R76). Every other operand is bounded by its type. -/
def Instr.wf : Instr → Bool
  | .illegalCmd op => op != 0x01#8 && op != 0x02#8
  | .codeFirstBad k => decide (255 < k.toNat)
  | .encode | .decode | .hdrWrite | .hdrRead | .bwPush | .bwFlush | .brPull | .dictReset | .encDictLookup
  | .decDictLookup | .dictInsertIfRoom | .dictMaybeGrow | .encStart | .encSymbol | .encFinish | .decStart | .decCode
  | .codeZeroReject | .codeClear | .codeFirstLiteral _ | .codeKnown _
  | .codeKwkwk _ | .codeUnknown _ | .header _ _ => true

end Sys2Proof
end

