-- ==== Sys2Proof/Decode.lean ====
section
/-! DEFINITION. Decode.lean: from the bytes of a word to an instruction or a rejection by name, and back. The opcode
table has four formats, and a byte means different things in them (0x10 is HDR_WRITE as a step label and an illegal
command when written to CMD), so the decoder is told which format it reads. -/

namespace Sys2Proof

/-- What the class of a pulled code depends on beside the code itself (30_encoding.md R76). -/
structure CodeCtx where
  /-- `ZERO_CODE_POLICY = reject`. -/
  zeroReject : Bool
  /-- `S.block_mode`. -/
  blockMode : Bool
  /-- Phase `DEC_RUNNING` (false: `DEC_INIT`). -/
  running : Bool
  /-- The code is a key of `S.DD`. -/
  known : Bool
  /-- The code equals `S.next_code`. -/
  isNext : Bool
deriving DecidableEq, Repr

/-- The formats of spec/opcode_table.json: `cmd`, `internal_label`, `stream_code`, `stream_header`. -/
inductive Form where
  | cmd
  | label
  | code (c : CodeCtx)
  | header
deriving DecidableEq, Repr

/-- Why the decoder refuses. -/
inductive DecodeReject where
  /-- A byte that is no label of 30_encoding.md R81: the two of R80 are commands, every other one is unused. -/
  | unusedLabel (l : Byte)
  /-- The first two bytes are not 1F 9D (30_encoding.md R70). -/
  | badMagic
  /-- A code word with bit 31 set: codes have at most 31 bits (30_encoding.md R73). -/
  | codeTooWide
  /-- Not as many bytes as the format has. -/
  | wrongLength
deriving DecidableEq, Repr

/-- 30_encoding.md R80. -/
def decodeCmd (v : Byte) : Instr :=
  if v = 0x01#8 then .encode else if v = 0x02#8 then .decode else .illegalCmd v

/-- 30_encoding.md R81, column "label". -/
def UnitLabel.toByte : UnitLabel → Byte
  | .hdrWrite => 0x10#8
  | .hdrRead => 0x11#8
  | .bwPush => 0x20#8
  | .bwFlush => 0x21#8
  | .brPull => 0x22#8
  | .dictReset => 0x30#8
  | .encDictLookup => 0x31#8
  | .decDictLookup => 0x32#8
  | .dictInsertIfRoom => 0x33#8
  | .dictMaybeGrow => 0x34#8
  | .encStart => 0x40#8
  | .encSymbol => 0x41#8
  | .encFinish => 0x42#8
  | .decStart => 0x50#8
  | .decCode => 0x51#8

/-- 30_encoding.md R81, column "mnemonic". -/
def UnitLabel.instr : UnitLabel → Instr
  | .hdrWrite => .hdrWrite
  | .hdrRead => .hdrRead
  | .bwPush => .bwPush
  | .bwFlush => .bwFlush
  | .brPull => .brPull
  | .dictReset => .dictReset
  | .encDictLookup => .encDictLookup
  | .decDictLookup => .decDictLookup
  | .dictInsertIfRoom => .dictInsertIfRoom
  | .dictMaybeGrow => .dictMaybeGrow
  | .encStart => .encStart
  | .encSymbol => .encSymbol
  | .encFinish => .encFinish
  | .decStart => .decStart
  | .decCode => .decCode

/-- The rows of 30_encoding.md R81. -/
def unitLabels : List UnitLabel :=
  [ .hdrWrite, .hdrRead, .bwPush, .bwFlush, .brPull,
    .dictReset, .encDictLookup, .decDictLookup, .dictInsertIfRoom, .dictMaybeGrow,
    .encStart, .encSymbol, .encFinish, .decStart, .decCode ]

/-- The first label of a list whose byte is `l`. -/
def findLabel : List UnitLabel → Byte → Option UnitLabel
  | [], _ => none
  | u :: t, l => if u.toByte = l then some u else findLabel t l

/-- The row of 30_encoding.md R81 whose label is `l`. -/
def labelOf (l : Byte) : Option UnitLabel := findLabel unitLabels l

def decodeLabel (l : Byte) : Except DecodeReject Instr :=
  match labelOf l with
  | some u => .ok u.instr
  | none => .error (.unusedLabel l)

/-- The class of a code, the first condition that applies deciding (30_encoding.md R76). -/
def classify (c : CodeCtx) (k : Code31) : CodeClass :=
  if c.zeroReject && k == 0#31 then .zeroReject
  else if c.blockMode && k == 256#31 then .clear
  else if !c.running then (if k.toNat ≤ 255 then .firstLiteral else .firstBad)
  else if c.known then .known
  else if c.isNext then .kwkwk
  else .unknown

/-- The instruction of a class and a code. -/
def CodeClass.toInstr (k : Code31) : CodeClass → Instr
  | .zeroReject => .codeZeroReject
  | .clear => .codeClear
  | .firstLiteral => .codeFirstLiteral (k.setWidth 8)
  | .firstBad => .codeFirstBad k
  | .known => .codeKnown k
  | .kwkwk => .codeKwkwk k
  | .unknown => .codeUnknown k

def decodeCode (c : CodeCtx) (k : Code31) : Instr :=
  (classify c k).toInstr k

/-- Bits of header byte 2 (30_encoding.md R72): bit 7 and bits 4:0; bits 6:5 are ignored. -/
def headerFields (h : Byte) : Bool × Width :=
  (h.getLsbD 7, h.extractLsb' 0 5)

/-- Header byte 2 from its fields (30_encoding.md R72): `(m << 7) | b`, bits 6:5 zero. -/
def headerByte (m : Bool) (b : Width) : Byte :=
  (if m then 0x80#8 else 0x00#8) ||| b.setWidth 8

def decodeHeader (b0 b1 b2 : Byte) : Except DecodeReject Instr :=
  if b0 = 0x1F#8 ∧ b1 = 0x9D#8 then .ok (.header (headerFields b2).1 (headerFields b2).2) else .error .badMagic

/-- A 32-bit number from its four bytes, the first the least significant. -/
def word32 (b0 b1 b2 b3 : Byte) : Word32 :=
  b3 ++ (b2 ++ (b1 ++ b0))

/-- The decoder: total on any bytes. -/
def decode (f : Form) (bytes : List Byte) : Except DecodeReject Instr :=
  match f, bytes with
  | .cmd, [v] => .ok (decodeCmd v)
  | .label, [l] => decodeLabel l
  | .code c, [b0, b1, b2, b3] =>
    if b3.getLsbD 7 then .error .codeTooWide else .ok (decodeCode c ((word32 b0 b1 b2 b3).setWidth 31))
  | .header, [b0, b1, b2] => decodeHeader b0 b1 b2
  | _, _ => .error .wrongLength

/-! ## The encoder -/

/-- A code as the four bytes the decoder reads it from. -/
def codeBytes (k : Code31) : List Byte :=
  let w : Word32 := k.setWidth 32
  [w.extractLsb' 0 8, w.extractLsb' 8 8, w.extractLsb' 16 8, w.extractLsb' 24 8]

/-- The word of an instruction, from 30_encoding.md R70, R72, R76, R80 and R81. -/
def encode : Instr → List Byte
  | .encode => [0x01#8]
  | .decode => [0x02#8]
  | .illegalCmd op => [op]
  | .hdrWrite => [0x10#8]
  | .hdrRead => [0x11#8]
  | .bwPush => [0x20#8]
  | .bwFlush => [0x21#8]
  | .brPull => [0x22#8]
  | .dictReset => [0x30#8]
  | .encDictLookup => [0x31#8]
  | .decDictLookup => [0x32#8]
  | .dictInsertIfRoom => [0x33#8]
  | .dictMaybeGrow => [0x34#8]
  | .encStart => [0x40#8]
  | .encSymbol => [0x41#8]
  | .encFinish => [0x42#8]
  | .decStart => [0x50#8]
  | .decCode => [0x51#8]
  | .codeZeroReject => codeBytes 0#31
  | .codeClear => codeBytes 256#31
  | .codeFirstLiteral k => codeBytes (k.setWidth 31)
  | .codeFirstBad k => codeBytes k
  | .codeKnown k => codeBytes k
  | .codeKwkwk k => codeBytes k
  | .codeUnknown k => codeBytes k
  | .header m b => [0x1F#8, 0x9D#8, headerByte m b]

/-- A format in which an instruction's word is read back as that instruction: for a code class, a context in which
the class's condition holds (30_encoding.md R76). -/
def formOf : Instr → Form
  | .encode | .decode | .illegalCmd _ => .cmd
  | .hdrWrite | .hdrRead | .bwPush | .bwFlush | .brPull | .dictReset | .encDictLookup | .decDictLookup
  | .dictInsertIfRoom | .dictMaybeGrow | .encStart | .encSymbol | .encFinish | .decStart | .decCode => .label
  | .codeZeroReject => .code { zeroReject := true, blockMode := false, running := false, known := false, isNext := false }
  | .codeClear => .code { zeroReject := false, blockMode := true, running := false, known := false, isNext := false }
  | .codeFirstLiteral _ | .codeFirstBad _ =>
    .code { zeroReject := false, blockMode := false, running := false, known := false, isNext := false }
  | .codeKnown _ => .code { zeroReject := false, blockMode := false, running := true, known := true, isNext := false }
  | .codeKwkwk _ => .code { zeroReject := false, blockMode := false, running := true, known := false, isNext := true }
  | .codeUnknown _ => .code { zeroReject := false, blockMode := false, running := true, known := false, isNext := false }
  | .header _ _ => .header

/-! ## The words of spec/opcode_table.json -/

/-- The format in which a table word of `nbits` bits is read. A code word carries no state, so the conditions of
30_encoding.md R76 are taken as those of the first table row whose bits match: code 0 under `reject`, code 256 in block
mode, any other code as a first code (log 19). An 8-bit word is a step label where it is one of R81's, else a command. -/
def tableForm (nbits w : Nat) : Form :=
  if nbits = 8 then (if (labelOf (BitVec.ofNat 8 w)).isSome then .label else .cmd)
  else if nbits = 24 then .header
  else .code { zeroReject := true, blockMode := true, running := false, known := false, isNext := false }

/-- The bytes of a table word in the order the hardware holds them. The table numbers the header with byte 0 most
significant (its HEADER row's note). A code's 31 bits are held least significant byte first. -/
def tableBytes (nbits w : Nat) : List Byte :=
  if nbits = 8 then [BitVec.ofNat 8 w]
  else if nbits = 24 then [BitVec.ofNat 8 (w / 65536), BitVec.ofNat 8 (w / 256), BitVec.ofNat 8 w]
  else [BitVec.ofNat 8 w, BitVec.ofNat 8 (w / 256), BitVec.ofNat 8 (w / 65536), BitVec.ofNat 8 (w / 16777216)]

/-- The instruction the decoder reads from a word of the opcode table. -/
def decodeTableWord (nbits w : Nat) : Option Instr :=
  if (nbits = 8 ∨ nbits = 24 ∨ nbits = 32) ∧ w < 2 ^ nbits then
    match decode (tableForm nbits w) (tableBytes nbits w) with
    | .ok i => some i
    | .error _ => none
  else none

end Sys2Proof
end

