-- ==== Sys2Proof/Machine/Operands.lean ====
section
/-! DEFINITION. Machine/Operands.lean: where each operation takes its operands from: the sampled CONFIG, the header, the
next symbol, the operand latch; and the effective code width. -/

namespace Sys2Proof.Machine

/-- Effective `max_bits`: `max(b, 9)` (30_encoding.md R72, 40_header_codec.md R101, 43_encoder.md R150). -/
def effectiveMaxBits (b : Width) : Width := if b.toNat < 9 then 9 else b

/-- `m` and `b` of ENC_START, from the CONFIG sampled at acceptance (43_encoder.md R150). -/
def configOperands (s : State) : Bool × Width := headerFields s.sampledConfig

/-- The next symbol of an ENCODE (43_encoder.md R152). -/
def nextSymbol (s : State) : Byte := coreRead s s.inIdx.toNat

/-- The bit position of the decoder's cursor (41_bitstream.md R115). -/
def cursorPos (s : State) : Nat := 8 * s.byteIndex.toNat + s.bitOffset.toNat

/-- `dict_size_max` (10_state.md R28). -/
def dictSizeMax (s : State) : Nat := 2 ^ s.codeWidth.toNat

/-- The first assignable code (00_scope.md R9). -/
def firstAssignable (m : Bool) : Word32 := if m then 257 else 256

/-- `S.maxw <- max(S.maxw, S.code_width)` (10_state.md R35). -/
def noteWidth (s : State) : State :=
  { s with maxw := if s.maxw.toNat < s.codeWidth.toNat then s.codeWidth else s.maxw }

end Sys2Proof.Machine
end

