-- ==== Sys2Proof/Machine/Bitstream.lean ====
section
/-! DEFINITION. Machine/Bitstream.lean: BW_PUSH, BW_FLUSH and BR_PULL (41_bitstream.md). The bits are computed as natural
numbers and narrowed to the registers at the end. -/

namespace Sys2Proof.Machine

/-- `while n > 8: Emit(v[7:0]); v <- v >> 8; n <- n - 8`, then the packer registers (41_bitstream.md R110). -/
def peel : (fuel v n : Nat) → State → Res Unit
  | 0, v, n, s => .ok () { s with acc := BitVec.ofNat 39 v, nbits := BitVec.ofNat 6 n }
  | fuel + 1, v, n, s =>
    if 8 < n then resBind (emit (BitVec.ofNat 8 v) s) fun _ t => peel fuel (v / 256) (n - 8) t
    else .ok () { s with acc := BitVec.ofNat 39 v, nbits := BitVec.ofNat 6 n }

/-- BW_PUSH(code, width) (41_bitstream.md R110). -/
def bwPush (code width : Nat) (s : State) : Res Unit :=
  if width = 0 ∨ 31 < width ∨ 2 ^ width ≤ code then .raise .invalidArgument s
  else
    let n := s.nbits.toNat + width
    peel n (s.acc.toNat + code * 2 ^ s.nbits.toNat) n s

/-- BW_FLUSH (41_bitstream.md R112). -/
def bwFlush (s : State) : Res Unit :=
  if s.nbits.toNat = 0 then .ok () s
  else resBind (emit (s.acc.setWidth 8) s) fun _ t => .ok () { t with acc := 0, nbits := 0 }

/-- The bits BR_PULL has gathered: their value, their number, and the index of the next byte. -/
structure Gathered where
  acc : Nat
  n : Nat
  k : Nat
deriving DecidableEq, Repr

/-- The first byte, its consumed bits stripped (41_bitstream.md R114). -/
def gatherFirst (s : State) : Gathered :=
  let k := s.byteIndex.toNat
  if k < s.sampledInLen.toNat then
    { acc := (coreRead s k).toNat / 2 ^ s.bitOffset.toNat, n := 8 - s.bitOffset.toNat, k := k + 1 }
  else { acc := 0, n := 0, k := k }

/-- `while n < width and k < IN_LEN`: later bytes, whole (41_bitstream.md R114). -/
def gatherMore (s : State) (width : Nat) : (fuel : Nat) → Gathered → Gathered
  | 0, g => g
  | fuel + 1, g =>
    if g.n < width ∧ g.k < s.sampledInLen.toNat then
      gatherMore s width fuel { acc := g.acc + (coreRead s g.k).toNat * 2 ^ g.n, n := g.n + 8, k := g.k + 1 }
    else g

/-- The cursor after the byte before index `k` was read with `r` of its bits left over (41_bitstream.md R114). -/
def setCursor (k r : Nat) (s : State) : State :=
  if 0 < r then { s with byteIndex := BitVec.ofNat 32 (k - 1), bitOffset := BitVec.ofNat 3 (8 - r) }
  else { s with byteIndex := BitVec.ofNat 32 k, bitOffset := 0 }

/-- BR_PULL(width) (41_bitstream.md R114); `none` leaves the cursor unchanged. -/
def brPull (width : Nat) (s : State) : Res (Option Code31) :=
  if width = 0 ∨ 31 < width then .raise .invalidArgument s
  else
    let g := gatherMore s width width (gatherFirst s)
    if g.n < width then .ok none s
    else .ok (some (BitVec.ofNat 31 (g.acc % 2 ^ width))) (setCursor g.k (g.n - width) s)

/-- BW_PUSH issued on its own. -/
def execBwPush (s : State) : Host.Outcome State Fault Refusal :=
  finishUnit (bwPush s.operands.code.toNat s.operands.width.toNat s)

/-- BW_FLUSH issued on its own. -/
def execBwFlush (s : State) : Host.Outcome State Fault Refusal :=
  finishUnit (bwFlush s)

/-- BR_PULL issued on its own: it returns a code or none. -/
def execBrPull (s : State) : Host.Outcome State Fault Refusal :=
  finish (brPull s.operands.width.toNat s) fun k t => { t with result := .pulled k }

end Sys2Proof.Machine
end

