-- ==== Sys2Proof/Machine/Dictionary.lean ====
section
/-! DEFINITION. Machine/Dictionary.lean: DICT_RESET, the two lookups, DICT_INSERT_IF_ROOM and DICT_MAYBE_GROW
(42_dictionary.md). -/

namespace Sys2Proof.Machine

/-- `{ k -> [k] | k in 0..255 }` (42_dictionary.md R130). -/
def seedDD : DecTable := (List.range 256).map fun k => (k, [BitVec.ofNat 8 k])

/-- `{ [k] -> k | k in 0..255 }` (42_dictionary.md R130), the greatest code first. -/
def seedED : EncTable := (List.range 256).reverse.map fun k => ([BitVec.ofNat 8 k], BitVec.ofNat 32 k)

/-- DICT_RESET(m, side) (42_dictionary.md R130). -/
def dictReset (m : Bool) (side : Side) (s : State) : State :=
  let s' := { s with blockMode := m, codeWidth := 9, nextCode := firstAssignable m }
  match side with
  | .decode => { s' with dd := seedDD }
  | .encode => { s' with ed := seedED }

/-- ENC_DICT_LOOKUP(key) (42_dictionary.md R131). -/
def encLookup (s : State) (key : Symbols) : Option Word32 := edGet s.ed key

/-- DEC_DICT_LOOKUP(k) (42_dictionary.md R132). -/
def decLookup (s : State) (k : Nat) : Option Symbols := ddGet s.dd k

/-- The condition of DICT_INSERT_IF_ROOM. -/
def hasRoom (s : State) : Bool := decide (s.nextCode.toNat < dictSizeMax s)

/-- DICT_INSERT_IF_ROOM(key, S.next_code) (42_dictionary.md R133). -/
def insertIfRoom (side : Side) (key : Symbols) (s : State) : State :=
  if hasRoom s then
    match side with
    | .encode => { s with ed := edSet s.ed key s.nextCode, nextCode := s.nextCode + 1 }
    | .decode => { s with dd := ddSet s.dd s.nextCode.toNat key, nextCode := s.nextCode + 1 }
  else s

/-- DICT_MAYBE_GROW (42_dictionary.md R134). -/
def maybeGrow (s : State) : State :=
  if s.nextCode.toNat = dictSizeMax s ∧ s.codeWidth.toNat < s.maxBits.toNat then
    { s with codeWidth := s.codeWidth + 1 }
  else s

/-- DICT_RESET issued on its own. -/
def execDictReset (s : State) : Host.Outcome State Fault Refusal :=
  .next (dictReset s.operands.blockMode s.operands.side s)

/-- ENC_DICT_LOOKUP issued on its own: it returns a code or none. -/
def execEncDictLookup (s : State) : Host.Outcome State Fault Refusal :=
  .next { s with result := .encFound (encLookup s s.operands.key) }

/-- DEC_DICT_LOOKUP issued on its own: it returns an entry or none. -/
def execDecDictLookup (s : State) : Host.Outcome State Fault Refusal :=
  .next { s with result := .decFound (decLookup s s.operands.code.toNat) }

/-- DICT_INSERT_IF_ROOM issued on its own: it returns inserted or not_inserted. -/
def execDictInsertIfRoom (s : State) : Host.Outcome State Fault Refusal :=
  .next { insertIfRoom s.operands.side s.operands.key s with result := .inserted (hasRoom s) }

/-- DICT_MAYBE_GROW issued on its own. -/
def execDictMaybeGrow (s : State) : Host.Outcome State Fault Refusal :=
  .next (maybeGrow s)

end Sys2Proof.Machine
end

