-- ==== Sys2Proof/Machine/HeaderCodec.lean ====
section
/-! DEFINITION. Machine/HeaderCodec.lean: HDR_WRITE and HDR_READ (40_header_codec.md). -/

namespace Sys2Proof.Machine

/-- HDR_WRITE(m, b) (40_header_codec.md R101). -/
def hdrWrite (m : Bool) (b : Nat) (s : State) : Res Unit :=
  if 31 < b then .raise .invalidArgument s
  else emitAll [0x1F#8, 0x9D#8, headerByte m (effectiveMaxBits (BitVec.ofNat 5 b))] s

/-- HDR_READ (40_header_codec.md R102): length, then magic, then `max_bits` (60_exceptions.md R207). -/
def hdrRead (s : State) : Res (Bool × Width) :=
  if s.sampledInLen.toNat < 3 then .raise .invalidHeader s
  else if coreRead s 0 ≠ 0x1F#8 ∨ coreRead s 1 ≠ 0x9D#8 then .raise .invalidHeader s
  else
    let f := headerFields (coreRead s 2)
    if s.params.maxBitsCap < (effectiveMaxBits f.2).toNat then .raise .invalidHeader s
    else .ok (f.1, effectiveMaxBits f.2) s

/-- HDR_WRITE issued on its own. -/
def execHdrWrite (s : State) : Host.Outcome State Fault Refusal :=
  finishUnit (hdrWrite s.operands.blockMode s.operands.maxBits.toNat s)

/-- HDR_READ issued on its own: it returns `(m, b)`. -/
def execHdrRead (s : State) : Host.Outcome State Fault Refusal :=
  finish (hdrRead s) fun r t => { t with result := .headerRead r.1 r.2 }

end Sys2Proof.Machine
end

