-- ==== Sys2Proof/Machine/Decoder.lean ====
section
/-! DEFINITION. Machine/Decoder.lean: DEC_START, DEC_CODE, the seven classes of a pulled code and the stream header
(44_decoder.md, 30_encoding.md R70, R76). -/

namespace Sys2Proof.Machine

/-! ## The header -/

/-- What DEC_START does with a header read as `(m, b)`, `b` effective (44_decoder.md R170). -/
def decInit (m : Bool) (b : Width) (s : State) : State :=
  { dictReset m .decode { s with maxBits := b } with
    byteIndex := 3, bitOffset := 0, dw := none, maxw := 0
    streamCfg := headerByte m b, phase := .decInit, starting := false }

/-- DEC_START (44_decoder.md R170). -/
def decStart (s : State) : Res Unit :=
  resBind (hdrRead (clearOut s)) fun f t => .ok () (decInit f.1 f.2 t)

/-- A header word whose magic is right, its `max_bits` field not yet clamped (40_header_codec.md R102, 44_decoder.md
R170). -/
def takeHeader (m : Bool) (b : Width) (s : State) : Res Unit :=
  if s.params.maxBitsCap < (effectiveMaxBits b).toNat then .raise .invalidHeader (clearOut s)
  else .ok () (decInit m (effectiveMaxBits b) (clearOut s))

def execDecStart (s : State) : Host.Outcome State Fault Refusal :=
  if s.phase = .decAwaitHeader then finishUnit (decStart s) else .refused .outOfPhase

/-- HEADER: the decoder takes the stream's header. -/
def execHeader (m : Bool) (b : Width) (s : State) : Host.Outcome State Fault Refusal :=
  if s.phase = .decAwaitHeader then finishUnit (takeHeader m b s) else .refused .outOfPhase

/-- What a word that is no instruction does. A header without the magic is an illegal encoding (30_encoding.md R83): where
the decoder takes the header it raises InvalidHeader (44_decoder.md R170, 60_exceptions.md R201). Bytes that decode to
nothing for another reason never come from `fetch`, and no rule runs them. -/
def execIllegalWord (e : DecodeReject) (s : State) : Host.Outcome State Fault Refusal :=
  if e = .badMagic ∧ s.phase = .decAwaitHeader then finishUnit (.raise .invalidHeader (clearOut s))
  else .refused .outOfPhase

/-! ## The classes of a code -/

/-- What the class of code `k` depends on in a state (30_encoding.md R76): `S.next_code` and the phase are those before
the step. -/
def codeCtx (s : State) (k : Code31) : CodeCtx :=
  { zeroReject := s.params.zeroPolicy = .reject
    blockMode := s.blockMode
    running := s.phase = .decRunning
    known := (decLookup s k.toNat).isSome
    isNext := k.toNat = s.nextCode.toNat }

/-- Code 0 under `reject` (44_decoder.md R173). -/
def codeZeroReject (s : State) : Res Unit := .raise .corruptStream s

/-- CLEAR in block mode (44_decoder.md R173). -/
def codeClear (s : State) : Res Unit := .raise .unsupportedClearCode s

/-- The first code, a literal (44_decoder.md R172): no insertion, no growth. -/
def codeFirstLiteral (k : Byte) (s : State) : Res Unit :=
  resBind (emitAll [k] s) fun _ t => .ok () { t with dw := some [k], phase := .decRunning }

/-- The first code, above 255 (44_decoder.md R172). -/
def codeFirstBad (s : State) : Res Unit := .raise .corruptStream s

/-- DICT_INSERT_IF_ROOM, and DICT_MAYBE_GROW after an insertion (44_decoder.md R174). -/
def insertThenGrow (key : Symbols) (s : State) : State :=
  if hasRoom s then maybeGrow (insertIfRoom .decode key s) else s

/-- Output, insertion and update for a resolved entry (44_decoder.md R174). -/
def takeEntry (entry : Symbols) (s : State) : Res Unit :=
  resBind (emitAll entry s) fun _ t =>
    match t.dw, entry with
    | some d, x :: _ => .ok () { insertThenGrow (d ++ [x]) t with dw := some entry }
    | _, _ => .undef

/-- A code that is a key (44_decoder.md R174). -/
def codeKnown (k : Code31) (s : State) : Res Unit :=
  match decLookup s k.toNat with
  | some entry => takeEntry entry s
  | none => .undef

/-- A code equal to `S.next_code` that is no key: `S.dw + first(S.dw)` (44_decoder.md R174). -/
def codeKwkwk (s : State) : Res Unit :=
  match s.dw with
  | some (x :: d) => takeEntry ((x :: d) ++ [x]) s
  | _ => .undef

/-- Any other code (44_decoder.md R174). -/
def codeUnknown (s : State) : Res Unit := .raise .corruptStream s

/-- The effect of a pulled code, by its class. -/
def takeCode (k : Code31) (s : State) : Res Unit :=
  match classify (codeCtx s k) k with
  | .zeroReject => codeZeroReject s
  | .clear => codeClear s
  | .firstLiteral => codeFirstLiteral (k.setWidth 8) s
  | .firstBad => codeFirstBad s
  | .known => codeKnown k s
  | .kwkwk => codeKwkwk s
  | .unknown => codeUnknown s

/-- DEC_CODE (44_decoder.md R171); no code left completes the transaction (R175). -/
def decCode (s : State) : Res Unit :=
  resBind (brPull s.codeWidth.toNat s) fun r t =>
    match r with
    | none => .ok () (complete .decode t)
    | some k => takeCode k (noteWidth t)

/-- DEC_CODE runs in these phases (44_decoder.md R171). -/
def decoding (s : State) : Bool := s.phase = .decInit || s.phase = .decRunning

def execDecCode (s : State) : Host.Outcome State Fault Refusal :=
  if decoding s then finishUnit (decCode s) else .refused .outOfPhase

/-- A code word of class `c`, run on its own where 30_encoding.md R76 puts the code in that class. -/
def runClass (c : CodeClass) (k : Code31) (r : Res Unit) (s : State) : Host.Outcome State Fault Refusal :=
  if decoding s = false then .refused .outOfPhase
  else if classify (codeCtx s k) k = c then finishUnit r
  else .refused .classMismatch

def execCodeZeroReject (s : State) : Host.Outcome State Fault Refusal :=
  runClass .zeroReject 0 (codeZeroReject s) s

def execCodeClear (s : State) : Host.Outcome State Fault Refusal :=
  runClass .clear 256 (codeClear s) s

def execCodeFirstLiteral (k : Byte) (s : State) : Host.Outcome State Fault Refusal :=
  runClass .firstLiteral (k.setWidth 31) (codeFirstLiteral k s) s

def execCodeFirstBad (k : Code31) (s : State) : Host.Outcome State Fault Refusal :=
  runClass .firstBad k (codeFirstBad s) s

def execCodeKnown (k : Code31) (s : State) : Host.Outcome State Fault Refusal :=
  runClass .known k (codeKnown k s) s

def execCodeKwkwk (k : Code31) (s : State) : Host.Outcome State Fault Refusal :=
  runClass .kwkwk k (codeKwkwk s) s

def execCodeUnknown (k : Code31) (s : State) : Host.Outcome State Fault Refusal :=
  runClass .unknown k (codeUnknown s) s

end Sys2Proof.Machine
end

