-- ==== Sys2Proof/Machine/Encoder.lean ====
section
/-! DEFINITION. Machine/Encoder.lean: ENC_START, ENC_SYMBOL and ENC_FINISH (43_encoder.md). -/

namespace Sys2Proof.Machine

/-- The encoder's registers at the start of a transaction, for `m` and effective `max_bits` `e` (43_encoder.md R150). -/
def encInit (m : Bool) (e : Width) (s : State) : State :=
  clearOut { dictReset m .encode { s with maxBits := e } with
    w := [], inIdx := 0, acc := 0, nbits := 0, maxw := 0 }

/-- ENC_START (43_encoder.md R150). -/
def encStart (s : State) : Res Unit :=
  let m := (configOperands s).1
  let e := effectiveMaxBits (configOperands s).2
  if s.params.maxBitsCap < e.toNat then .raise .invalidArgument s
  else
    resBind (hdrWrite m e.toNat (encInit m e s)) fun _ t =>
      .ok () { t with streamCfg := headerByte m e, phase := .encEmpty, starting := false }

/-- Emission of the current match: BW_PUSH(S.ED[S.w], S.code_width) and the width statistic (43_encoder.md R152, R153). -/
def pushMatch (s : State) : Res Unit :=
  match encLookup s s.w with
  | none => .undef
  | some code => resBind (bwPush code.toNat s.codeWidth.toNat s) fun _ t => .ok () (noteWidth t)

/-- ENC_SYMBOL (43_encoder.md R152): on a miss emit, then grow, then insert (70_reset_and_hazards.md R241). -/
def encSymbol (s : State) : Res Unit :=
  let c := nextSymbol s
  let wc := s.w ++ [c]
  let s1 := { s with inIdx := s.inIdx + 1 }
  match encLookup s1 wc with
  | some _ => .ok () { s1 with w := wc, phase := .encMatching }
  | none =>
    resBind (pushMatch s1) fun _ t =>
      .ok () { insertIfRoom .encode wc (maybeGrow t) with w := [c], phase := .encMatching }

/-- ENC_FINISH (43_encoder.md R153). -/
def encFinish (s : State) : Res Unit :=
  resBind (if s.w = [] then .ok () s else pushMatch s) fun _ t =>
    resBind (bwFlush t) fun _ u => .ok () (complete .encode u)

/-- ENC_SYMBOL and ENC_FINISH run in these phases, once ENC_START has run (43_encoder.md R152, R153). -/
def encoding (s : State) : Bool :=
  (s.phase = .encEmpty || s.phase = .encMatching) && !s.starting

def execEncStart (s : State) : Host.Outcome State Fault Refusal :=
  if s.phase = .encEmpty ∧ s.starting = true then finishUnit (encStart s) else .refused .outOfPhase

def execEncSymbol (s : State) : Host.Outcome State Fault Refusal :=
  if encoding s = true ∧ s.inIdx.toNat < s.sampledInLen.toNat then finishUnit (encSymbol s) else .refused .outOfPhase

def execEncFinish (s : State) : Host.Outcome State Fault Refusal :=
  if encoding s = true ∧ s.inIdx = s.sampledInLen then finishUnit (encFinish s) else .refused .outOfPhase

end Sys2Proof.Machine
end

