-- ==== Sys2Proof/Machine/Dispatch.lean ====
section
/-! DEFINITION. Machine/Dispatch.lean: which meaning each instruction has. -/

namespace Sys2Proof.Machine

def exec (i : Instr) (s : State) : Host.Outcome State Fault Refusal :=
  match i with
  | .encode => Sys2Proof.Machine.execEncode s
  | .decode => Sys2Proof.Machine.execDecode s
  | .illegalCmd op => Sys2Proof.Machine.execIllegalCmd op s
  | .hdrWrite => Sys2Proof.Machine.execHdrWrite s
  | .hdrRead => Sys2Proof.Machine.execHdrRead s
  | .bwPush => Sys2Proof.Machine.execBwPush s
  | .bwFlush => Sys2Proof.Machine.execBwFlush s
  | .brPull => Sys2Proof.Machine.execBrPull s
  | .dictReset => Sys2Proof.Machine.execDictReset s
  | .encDictLookup => Sys2Proof.Machine.execEncDictLookup s
  | .decDictLookup => Sys2Proof.Machine.execDecDictLookup s
  | .dictInsertIfRoom => Sys2Proof.Machine.execDictInsertIfRoom s
  | .dictMaybeGrow => Sys2Proof.Machine.execDictMaybeGrow s
  | .encStart => Sys2Proof.Machine.execEncStart s
  | .encSymbol => Sys2Proof.Machine.execEncSymbol s
  | .encFinish => Sys2Proof.Machine.execEncFinish s
  | .decStart => Sys2Proof.Machine.execDecStart s
  | .decCode => Sys2Proof.Machine.execDecCode s
  | .codeZeroReject => Sys2Proof.Machine.execCodeZeroReject s
  | .codeClear => Sys2Proof.Machine.execCodeClear s
  | .codeFirstLiteral k => Sys2Proof.Machine.execCodeFirstLiteral k s
  | .codeFirstBad k => Sys2Proof.Machine.execCodeFirstBad k s
  | .codeKnown k => Sys2Proof.Machine.execCodeKnown k s
  | .codeKwkwk k => Sys2Proof.Machine.execCodeKwkwk k s
  | .codeUnknown k => Sys2Proof.Machine.execCodeUnknown k s
  | .header m b => Sys2Proof.Machine.execHeader m b s

end Sys2Proof.Machine
end

