-- ==== Sys2Proof/Machine/Sequencer.lean ====
section
/-! DEFINITION. Machine/Sequencer.lean: which operation runs next: the controller's choice from PHASE (43_encoder.md R155,
44_decoder.md R176), and the moves from outside. -/

namespace Sys2Proof.Machine

/-- What `fetch` finds. -/
inductive Fetched where
  /-- A word to decode and run, and the state in which it runs. -/
  | run (f : Form) (bytes : List Byte) (s : State)
  /-- A move from outside that runs no operation, already made; or nothing to do (60_exceptions.md R216). -/
  | done (s : State)
  /-- A move from outside that cannot be made. -/
  | stop (r : Fault)
deriving DecidableEq, Repr

/-- The label of the running transaction's next step (43_encoder.md R155, 44_decoder.md R176). A terminal phase has
none. -/
def nextLabel (s : State) : Option UnitLabel :=
  match s.phase with
  | .encEmpty | .encMatching =>
    if s.starting then some .encStart
    else if s.inIdx.toNat < s.sampledInLen.toNat then some .encSymbol
    else some .encFinish
  | .decAwaitHeader => some .decStart
  | .decInit | .decRunning => some .decCode
  | .idle | .encFlushed | .decDone | .error => none

/-- CORE's turn: a transaction's next step while `BUSY = 1`; nothing, every register kept, while `BUSY = 0`
(60_exceptions.md R216) or, in a state no run reaches, in a terminal phase with `BUSY = 1` (log 24). -/
def coreTurn (s : State) : Fetched :=
  match s.status.busy, nextLabel s with
  | true, some u => .run .label [u.toByte] s
  | _, _ => .done s

/-- The word of an operation issued on its own, its operands latched (log 5). -/
def issued (w : IssueWord) (s : State) : Fetched :=
  match w with
  | .label l ops => .run .label [l.toByte] { s with operands := ops }
  | .code k => .run (.code (codeCtx s k)) (codeBytes k) s
  | .header b0 b1 b2 => .run .header [b0, b1, b2] s

/-- The next thing that happens: the first pending move from outside, or CORE's turn (log 4). -/
def fetch (s : State) : Fetched :=
  match s.inputs with
  | [] => coreTurn s
  | .wait :: rest => if s.status.busy then coreTurn s else .done { s with inputs := rest }
  | .yield :: rest => coreTurn { s with inputs := rest }
  | .writeReg idx v :: rest =>
    if idx = 0 then .run .cmd [v.setWidth 8] { s with inputs := rest }
    else .done (writeReg idx v { s with inputs := rest })
  | .readReg idx :: rest => .done (readReg idx { s with inputs := rest })
  | .writeIn i b :: rest => .done (writeIn i b { s with inputs := rest })
  | .readOut i :: rest =>
    if outIndexExists s i then .done (readOut i { s with inputs := rest }) else .stop .outIndexBeyondCap
  | .reset :: rest => .done (hardReset { s with inputs := rest })
  | .issue w :: rest => issued w { s with inputs := rest }

/-- `s` with a move from outside before all others. -/
def withInput (m : Input) (s : State) : State := { s with inputs := m :: s.inputs }

/-! ## Host programs -/

/-- `IN <- data` (30_encoding.md R90): the bytes, then `IN_LEN <- their count`. -/
def loadInput (data : Symbols) : List Input :=
  data.zipIdx.map (fun e => .writeIn (BitVec.ofNat 32 e.2) e.1) ++ [.writeReg 7 (BitVec.ofNat 32 data.length)]

/-- `RUN_ENCODE cfg, data` (30_encoding.md R91). -/
def runEncode (cfg : Byte) (data : Symbols) : List Input :=
  .writeReg 1 (cfg.setWidth 32) :: (loadInput data ++ [.writeReg 0 1, .wait])

/-- `RUN_DECODE data` (30_encoding.md R91). -/
def runDecode (data : Symbols) : List Input := loadInput data ++ [.writeReg 0 2, .wait]

/-! ## Words of the opcode table -/

/-- The block mode and effective `max_bits` that `CONFIG` asks for. -/
def configFields (s : State) : Bool × Width := ((headerFields s.config).1, effectiveMaxBits (headerFields s.config).2)

/-- `s` with a transaction under way whose next step is the controller's step `u`, and CORE's turn next (log 19): an
accepted command; for ENC_SYMBOL and ENC_FINISH a started ENCODE of one zero byte or of none; for DEC_CODE a started
DECODE with no code left. A unit operation is issued on its own. -/
def armLabel (u : UnitLabel) (s : State) : State :=
  let c := configFields s
  match u with
  | .encStart => withInput .yield (accept .encode s)
  | .encSymbol =>
    withInput .yield
      { encInit c.1 c.2 (accept .encode { s with inLen := 1, inBuf := memWrite s.inBuf 0 0 }) with starting := false }
  | .encFinish => withInput .yield { encInit c.1 c.2 (accept .encode { s with inLen := 0 }) with starting := false }
  | .decStart => withInput .yield (accept .decode s)
  | .decCode => withInput .yield (decInit c.1 c.2 (accept .decode { s with inLen := 0 }))
  | .hdrWrite | .hdrRead | .bwPush | .bwFlush | .brPull | .dictReset | .encDictLookup | .decDictLookup
  | .dictInsertIfRoom | .dictMaybeGrow => withInput (.issue (.label u s.operands)) s

/-- `s` with a DECODE at its first code, and code `k` issued to the decoder (log 19); the policy is `reject` for code 0,
which the table's first row of bits 0 asks for. -/
def armCode (k : Code31) (s : State) : State :=
  let t := decInit true 16 (accept .decode s)
  withInput (.issue (.code k))
    (if k = 0#31 then { t with params := { t.params with zeroPolicy := .reject } } else t)

/-- `s` with the word of spec/opcode_table.json where the next step takes its operation from (log 19). -/
def armWord (nbits w : Nat) (s : State) : State :=
  if nbits = 24 then
    withInput (.issue (.header (BitVec.ofNat 8 (w / 65536)) (BitVec.ofNat 8 (w / 256)) (BitVec.ofNat 8 w))) (accept .decode s)
  else if nbits = 32 then armCode (BitVec.ofNat 31 w) s
  else
    match labelOf (BitVec.ofNat 8 w) with
    | some u => armLabel u s
    | none => withInput (.writeReg 0 (BitVec.ofNat 32 w)) s

end Sys2Proof.Machine
end

