-- ==== Sys2Proof/Machine/Step.lean ====
section
/-! DEFINITION. Machine/Step.lean: one step: fetch, decode, execute. -/

namespace Sys2Proof.Machine

/-- One step of the machine (00_scope.md R8): a step of the running transaction or one move from outside. -/
def step (s : State) : Host.Outcome State Fault Refusal :=
  match fetch s with
  | .done t => .next t
  | .stop r => .fault r
  | .run f bytes t =>
    match decode f bytes with
    | .ok i => exec i t
    | .error e => execIllegalWord e t

/-- `s` in which the very next step runs the instruction of a word of spec/opcode_table.json (log 19). -/
def State.withFetchWord (s : State) (nbits w : Nat) : State := armWord nbits w s

end Sys2Proof.Machine
end

