-- ==== Sys2Proof/Safety.lean ====
section
/-! DEFINITION. Safety.lean: the terms in which claims are stated: what an operation writes to OUT_BUF, the bits of the
stream, the invariants of the registers, of a running transaction, and what one step may not change. -/

namespace Sys2Proof.Machine

/-! ## Output -/

/-- `n` bytes can be emitted: OUT_CAP allows them (60_exceptions.md R206) and OUT_LEN counts them in its 32 bits. -/
def RoomFor (n : Nat) (s : State) : Prop :=
  (∀ c ∈ s.params.outCap, s.outLen.toNat + n ≤ c) ∧ s.outLen.toNat + n < 2 ^ 32

/-- Of `n` bytes OUT_CAP allows fewer: emitting them reaches it (60_exceptions.md R206). A capacity of `2^32` or more is
never reached by the 32 bits of OUT_LEN. -/
def Overflows (n : Nat) (s : State) : Prop :=
  0 < n ∧ ∃ c ∈ s.params.outCap, c < 2 ^ 32 ∧ c < s.outLen.toNat + n

/-- From `s` to `t` exactly the bytes `bs` were appended to OUT_BUF, in order; every other index reads as before. -/
def Appended (bs : Symbols) (s t : State) : Prop :=
  t.outLen.toNat = s.outLen.toNat + bs.length ∧
  (∀ j, j < bs.length → memRead t.outBuf (s.outLen.toNat + j) = bs[j]?) ∧
  ∀ a, a < s.outLen.toNat ∨ s.outLen.toNat + bs.length ≤ a → memRead t.outBuf a = memRead s.outBuf a

/-- The `n` low base-256 digits of `v`, the least significant first (41_bitstream.md R113). -/
def digits (v n : Nat) : Symbols :=
  (List.range n).map fun j => BitVec.ofNat 8 (v / 256 ^ j)

/-! ## The code stream -/

/-- The packer's registers between operations (10_state.md R32). -/
def PackerWf (s : State) : Prop :=
  s.acc.toNat < 2 ^ s.nbits.toNat ∧ s.nbits.toNat ≤ 8

/-- A code and a width BW_PUSH accepts (41_bitstream.md R110). -/
def ValidCode (code width : Nat) : Prop :=
  1 ≤ width ∧ width ≤ 31 ∧ code < 2 ^ width

/-- The pending bits with a code above them (41_bitstream.md R110). -/
def pendingWith (code : Nat) (s : State) : Nat :=
  s.acc.toNat + code * 2 ^ s.nbits.toNat

/-- How many bytes a push of `width` bits peels: all but the last 1 to 8 bits (41_bitstream.md R110). -/
def peelCount (width : Nat) (s : State) : Nat :=
  (s.nbits.toNat + width - 1) / 8

/-- What BW_PUSH(code, width) does to the packer and to OUT_BUF (41_bitstream.md R110). -/
def Packs (code width : Nat) (s t : State) : Prop :=
  Appended (digits (pendingWith code s) (peelCount width s)) s t ∧
  t.acc.toNat = pendingWith code s / 256 ^ peelCount width s ∧
  t.nbits.toNat = s.nbits.toNat + width - 8 * peelCount width s

/-- BW_PUSH of each code of a list, in order. -/
def pushAll : List (Nat × Nat) → State → Res Unit
  | [], s => .ok () s
  | (c, w) :: rest, s => resBind (bwPush c w s) fun _ t => pushAll rest t

/-- BR_PULL of each width of a list, in order; the codes returned. -/
def pullAll : List Nat → State → Res (List (Option Code31))
  | [], s => .ok [] s
  | w :: rest, s => resBind (brPull w s) fun k t => resBind (pullAll rest t) fun ks u => .ok (k :: ks) u

/-- `N` of 41_bitstream.md R113: the bits of a list of codes. -/
def totalBits : List (Nat × Nat) → Nat
  | [] => 0
  | (_, w) :: rest => w + totalBits rest

/-- `T` of 41_bitstream.md R113: the sum of `c_k << B_k`. -/
def packedValue : List (Nat × Nat) → Nat
  | [] => 0
  | (c, w) :: rest => c + packedValue rest * 2 ^ w

/-- The input's first `n` bytes as one number, byte `i` at significance `8 i` (20_memory.md R54). -/
def inputValue (s : State) : Nat → Nat
  | 0 => 0
  | n + 1 => inputValue s n + (coreRead s n).toNat * 256 ^ n

/-- At least `width` unconsumed bits are left in the input (41_bitstream.md R116). -/
def BitsLeft (width : Nat) (s : State) : Prop :=
  cursorPos s + width ≤ 8 * s.sampledInLen.toNat

/-- The `width` bits at the cursor, the lowest first (41_bitstream.md R114, 20_memory.md R54). -/
def codeAt (width : Nat) (s : State) : Nat :=
  inputValue s s.sampledInLen.toNat / 2 ^ cursorPos s % 2 ^ width

/-- `s` with the cursor `width` bits on (41_bitstream.md R115). -/
def advanced (width : Nat) (s : State) : State :=
  { s with
    byteIndex := BitVec.ofNat 32 ((cursorPos s + width) / 8)
    bitOffset := BitVec.ofNat 3 ((cursorPos s + width) % 8) }

/-! ## Dictionary insertions -/

/-- `key` was inserted into `S.ED` at `S.next_code` if there was room at width `cw`, else nothing (42_dictionary.md R133). -/
def EncInserted (key : Symbols) (cw : Width) (s t : State) : Prop :=
  if s.nextCode.toNat < 2 ^ cw.toNat then
    edGet t.ed key = some s.nextCode ∧ (∀ k, k ≠ key → edGet t.ed k = edGet s.ed k) ∧
    t.nextCode.toNat = s.nextCode.toNat + 1
  else t.ed = s.ed ∧ t.nextCode = s.nextCode

/-- `key` was inserted into `S.DD` at `S.next_code` if there was room at width `cw`, else nothing (42_dictionary.md R133). -/
def DecInserted (key : Symbols) (cw : Width) (s t : State) : Prop :=
  if s.nextCode.toNat < 2 ^ cw.toNat then
    ddGet t.dd s.nextCode.toNat = some key ∧ (∀ k, k ≠ s.nextCode.toNat → ddGet t.dd k = ddGet s.dd k) ∧
    t.nextCode.toNat = s.nextCode.toNat + 1
  else t.dd = s.dd ∧ t.nextCode = s.nextCode

/-- The width after DICT_MAYBE_GROW at `S.next_code = next` (42_dictionary.md R134). -/
def grownWidth (next : Nat) (s : State) : Width :=
  if next = 2 ^ s.codeWidth.toNat ∧ s.codeWidth.toNat < s.maxBits.toNat then s.codeWidth + 1 else s.codeWidth

/-- The larger of `S.maxw` and `S.code_width` (10_state.md R35). -/
def widerOf (s : State) : Width :=
  if s.maxw.toNat < s.codeWidth.toNat then s.codeWidth else s.maxw

/-- What a resolved entry does in DEC_RUNNING (44_decoder.md R174): output, insertion of `key`, growth after an insertion,
`S.dw`; nothing else changes. -/
def EntryTaken (entry key : Symbols) (s t : State) : Prop :=
  Appended entry s t ∧ DecInserted key s.codeWidth s t ∧
  t.codeWidth = (if s.nextCode.toNat < dictSizeMax s then grownWidth (s.nextCode.toNat + 1) s else s.codeWidth) ∧
  t = { s with
    outBuf := t.outBuf, outLen := t.outLen, dd := t.dd, nextCode := t.nextCode, codeWidth := t.codeWidth
    dw := some entry }

/-- The bytes DEC_CODE emits for code `k` in phase DEC_INIT or DEC_RUNNING (44_decoder.md R172, R174), where neither reserved
code check of R173 applies. -/
def Resolves (s : State) (k : Code31) (entry : Symbols) : Prop :=
  ¬ (s.params.zeroPolicy = .reject ∧ k.toNat = 0) ∧ ¬ (s.blockMode = true ∧ k.toNat = 256) ∧
  ((s.phase = .decInit ∧ k.toNat ≤ 255 ∧ entry = [k.setWidth 8]) ∨
    (s.phase = .decRunning ∧ ddGet s.dd k.toNat = some entry) ∨
    (s.phase = .decRunning ∧ ddGet s.dd k.toNat = none ∧ k.toNat = s.nextCode.toNat ∧
      ∃ x d, s.dw = some (x :: d) ∧ entry = x :: d ++ [x]))

/-! ## Aborts -/

/-- From `s` to `t` the transaction was aborted with `e` (60_exceptions.md R210): STATUS, ERRCODE and PHASE as the rule
says; STREAM_CFG, the statistics, the host's registers, IN_BUF and the parameters as before. -/
def AbortedWith (e : ErrKind) (s t : State) : Prop :=
  t.status = { busy := false, done := false, err := true, dir := s.status.dir } ∧
  t.errcode = some e ∧ t.phase = .error ∧
  t.streamCfg = s.streamCfg ∧ t.statMaxw = s.statMaxw ∧ t.statFinalw = s.statFinalw ∧
  t.config = s.config ∧ t.inLen = s.inLen ∧ t.inBuf = s.inBuf ∧ t.params = s.params

/-! ## Invariants -/

/-- The lists of State are in their canonical form. -/
def Canonical (s : State) : Prop :=
  Memory.wf s.inBuf ∧ Memory.wf s.outBuf ∧ AssocWf s.dd ∧ AssocWf s.raced

/-- The reserved bits 6:5 of CONFIG and STREAM_CFG read 0 (10_state.md R21, R24). -/
def ReservedZero (s : State) : Prop :=
  s.config &&& 0x60#8 = 0#8 ∧ s.streamCfg &&& 0x60#8 = 0#8

/-- The phases of a running transaction (10_state.md R40). -/
def Phase.running : Phase → Bool
  | .encEmpty | .encMatching | .decAwaitHeader | .decInit | .decRunning => true
  | .idle | .encFlushed | .decDone | .error => false

/-- The direction a phase belongs to, if it belongs to one (10_state.md R22, R40). -/
def Phase.side : Phase → Option Side
  | .encEmpty | .encMatching | .encFlushed => some .encode
  | .decAwaitHeader | .decInit | .decRunning | .decDone => some .decode
  | .idle | .error => none

/-- STATUS, ERRCODE and PHASE agree (10_state.md R22, R23, R40; 45_control.md R194): BUSY exactly in a running phase,
DONE exactly in ENC_FLUSHED and DEC_DONE, ERR exactly in ERROR and exactly with an error code, DIR the phase's; the
statistics 0 while BUSY (R25); a start step is due only in ENC_EMPTY and DEC_AWAIT_HEADER, and always in the latter. -/
structure FlagsAgree (s : State) : Prop where
  busy_iff : s.status.busy = s.phase.running
  done_iff : s.status.done = true ↔ s.phase = .encFlushed ∨ s.phase = .decDone
  err_iff : s.status.err = true ↔ s.phase = .error
  errcode_iff : s.errcode.isSome = true ↔ s.phase = .error
  dir_eq : ∀ d, s.phase.side = some d → s.status.dir = d
  starting_phase : s.starting = true → s.phase = .encEmpty ∨ s.phase = .decAwaitHeader
  await_starting : s.phase = .decAwaitHeader → s.starting = true
  busy_stats : s.status.busy = true → s.statMaxw = 0 ∧ s.statFinalw = 0

/-- No operation is pending from a bench: every pending move is the host's. -/
def HostOnly (s : State) : Prop :=
  ∀ m ∈ s.inputs, ∀ w, m ≠ .issue w

/-- The start step of the running transaction has run. -/
def Started (s : State) : Prop :=
  s.phase.running = true ∧ s.starting = false

/-- The dictionary unit in a started transaction (10_state.md R28, R29, 42_dictionary.md R135). -/
structure DictInv (s : State) : Prop where
  width_ge : 9 ≤ s.codeWidth.toNat
  width_le : s.codeWidth.toNat ≤ s.maxBits.toNat
  max_le : s.maxBits.toNat ≤ s.params.maxBitsCap
  next_ge : (firstAssignable s.blockMode).toNat ≤ s.nextCode.toNat
  next_le : s.nextCode.toNat ≤ dictSizeMax s

/-- A started ENCODE (10_state.md R31, R32, R37). -/
structure EncInv (s : State) : Prop where
  packer : PackerWf s
  codes_below : ∀ key c, edGet s.ed key = some c → c.toNat < s.nextCode.toNat
  never_clear : ∀ key c, edGet s.ed key = some c → s.blockMode = true → c.toNat ≠ 256
  literals : ∀ b : Byte, edGet s.ed [b] = some (b.setWidth 32)
  keys_nonempty : edGet s.ed [] = none
  prefixes : ∀ p b c, edGet s.ed (p ++ [b]) = some c → p ≠ [] → (edGet s.ed p).isSome = true
  codes_distinct : ∀ key key' c, edGet s.ed key = some c → edGet s.ed key' = some c → key = key'
  empty_iff : s.w = [] ↔ s.phase = .encEmpty
  match_known : s.w ≠ [] → (edGet s.ed s.w).isSome = true
  index_le : s.inIdx.toNat ≤ s.sampledInLen.toNat

/-- A started DECODE (10_state.md R33, R34, R36). -/
structure DecInv (s : State) : Prop where
  keys : ∀ k, (ddGet s.dd k).isSome = true ↔
    k < 256 ∨ ((firstAssignable s.blockMode).toNat ≤ k ∧ k < s.nextCode.toNat)
  literals : ∀ k, k < 256 → ddGet s.dd k = some [BitVec.ofNat 8 k]
  entries_nonempty : ∀ k e, ddGet s.dd k = some e → e ≠ []
  init_iff : s.dw = none ↔ s.phase = .decInit
  previous_nonempty : ∀ d, s.dw = some d → d ≠ []
  cursor_ge : 24 ≤ cursorPos s
  cursor_le : cursorPos s ≤ 8 * s.sampledInLen.toNat

/-- The invariant of the machine as the host drives it. -/
structure RunInv (s : State) : Prop where
  host : HostOnly s
  params : s.params.wf
  canonical : Canonical s
  reserved : ReservedZero s
  flags : FlagsAgree s
  dict : Started s → DictInv s
  enc : Started s → s.phase.side = some .encode → EncInv s
  dec : Started s → s.phase.side = some .decode → DecInv s

/-! ## Comparing runs -/

/-- An outcome with a function applied to its next state. -/
def mapNext (f : State → State) : Host.Outcome State Fault Refusal → Host.Outcome State Fault Refusal
  | .next s => .next (f s)
  | .fault r => .fault r
  | .refused r => .refused r

/-- The bytes of the finished output, `OUT_BUF[0..OUT_LEN-1]`. -/
def outputCells (s : State) : List (Option Byte) :=
  (List.range s.outLen.toNat).map (memRead s.outBuf)

end Sys2Proof.Machine
end

