-- ==== Sys2Proof/Certificates/Slice0/Obligations.lean ====
section
/-! DEFINITION. Certificates/Slice0/Obligations.lean: the statements for the provers. -/

open Sys2Proof Sys2Proof.Machine

/-! ## Words -/

/-- Every well-formed instruction's word decodes to it (30_encoding.md R70, R72, R76, R80, R81). -/
def Obligations.DecodeOfEncode : Prop :=
  ∀ i : Instr, i.wf = true → decode (formOf i) (encode i) = .ok i

/-- What decodes is well formed and encodes back to its word; a header's reserved bits 6:5 come back 0 (30_encoding.md R72,
R80, R81). -/
def Obligations.EncodeOfDecode : Prop :=
  ∀ (f : Form) (bytes : List Byte) (i : Instr), decode f bytes = .ok i →
    i.wf = true ∧
    match f, bytes with
    | .header, [b0, b1, b2] => encode i = [b0, b1, b2 &&& 0x9F#8]
    | _, _ => encode i = bytes

/-- Words written out from 30_encoding.md R70, R80, R81 and R76 decode to what they stand for. How `decodeTableWord` numbers a
table word, and that it reads code 256 as in block mode, are the model's choice (log 19). -/
def Obligations.WrittenWordsDecode : Prop :=
  decode .cmd [0b00000001#8] = .ok .encode ∧
  decode .cmd [0b00010000#8] = .ok (.illegalCmd 0x10) ∧
  decode .label [0b00010000#8] = .ok .hdrWrite ∧
  decode .label [0b00100010#8] = .ok .brPull ∧
  decode .label [0b00110100#8] = .ok .dictMaybeGrow ∧
  decode .label [0b01000001#8] = .ok .encSymbol ∧
  decode .label [0b01010001#8] = .ok .decCode ∧
  decode .label [0b01010010#8] = .error (.unusedLabel 0x52) ∧
  decode .header [0b00011111#8, 0b10011101#8, 0b11110000#8] = .ok (.header true 16) ∧
  decodeTableWord 24 0x1F9D0C = some (.header false 12) ∧
  decodeTableWord 32 0x100 = some .codeClear

/-- A pulled code falls into the first class of 30_encoding.md R76 whose condition holds. -/
def Obligations.CodeClassInTableOrder : Prop :=
  ∀ (s : State) (k : Code31), decoding s = true →
    (classify (codeCtx s k) k = .zeroReject ↔ s.params.zeroPolicy = .reject ∧ k.toNat = 0) ∧
    (classify (codeCtx s k) k = .clear ↔ s.blockMode = true ∧ k.toNat = 256) ∧
    ((classify (codeCtx s k) k ≠ .zeroReject ∧ classify (codeCtx s k) k ≠ .clear) →
      (classify (codeCtx s k) k = .firstLiteral ↔ s.phase = .decInit ∧ k.toNat ≤ 255) ∧
      (classify (codeCtx s k) k = .firstBad ↔ s.phase = .decInit ∧ 255 < k.toNat) ∧
      (classify (codeCtx s k) k = .known ↔ s.phase = .decRunning ∧ (ddGet s.dd k.toNat).isSome = true) ∧
      (classify (codeCtx s k) k = .kwkwk ↔
        s.phase = .decRunning ∧ ddGet s.dd k.toNat = none ∧ k.toNat = s.nextCode.toNat) ∧
      (classify (codeCtx s k) k = .unknown ↔
        s.phase = .decRunning ∧ ddGet s.dd k.toNat = none ∧ k.toNat ≠ s.nextCode.toNat))

/-! ## Steps -/

/-- A step whose fetched bytes decode runs the instruction. The one word a step takes that is no instruction is a header
without the magic: where the decoder takes the header it raises InvalidHeader (30_encoding.md R83, 44_decoder.md R170,
60_exceptions.md R201). That such a header is refused in any other phase is the model's deduction (log 16), and that a
header comes on its own is the model's form (log 5). -/
def Obligations.StepRunsDecodedInstruction : Prop :=
  ∀ (s t : State) (f : Form) (bytes : List Byte), fetch s = .run f bytes t →
    (∀ i, decode f bytes = .ok i → step s = exec i t) ∧
    (∀ e, decode f bytes = .error e →
      f = .header ∧ e = .badMagic ∧
      (t.phase = .decAwaitHeader → ∃ u, step s = .next u ∧ AbortedWith .invalidHeader t u) ∧
      (t.phase ≠ .decAwaitHeader → step s = .refused .outOfPhase))

/-- The running transaction's steps come in the order of 43_encoder.md R155 and 44_decoder.md R176, while the host has no
move pending or waits. -/
def Obligations.ControllerOrder : Prop :=
  ∀ s : State, s.status.busy = true → (s.inputs = [] ∨ s.inputs.head? = some .wait) →
    ((s.phase = .encEmpty ∧ s.starting = true) → step s = exec .encStart s) ∧
    ((s.phase = .encEmpty ∨ s.phase = .encMatching) → s.starting = false →
      step s = if s.inIdx.toNat < s.sampledInLen.toNat then exec .encSymbol s else exec .encFinish s) ∧
    (s.phase = .decAwaitHeader → step s = exec .decStart s) ∧
    ((s.phase = .decInit ∨ s.phase = .decRunning) → step s = exec .decCode s)

/-- Between transactions, with no move from the host, nothing happens and every host register keeps its value
(60_exceptions.md R216). That the buffers and the internal state keep theirs is the model's choice (logs 17, 24). -/
def Obligations.IdleKeepsEverything : Prop :=
  ∀ s : State, s.status.busy = false → s.inputs = [] → step s = .next s

/-- A host write of a register: CMD runs the command written; CONFIG keeps bits 6:5 zero; IN_LEN is stored; read-only
registers and indices above 9 ignore it (10_state.md R20, R21, 45_control.md R196). A write of an 8-bit register takes the
low 8 bits of the access (the model's choice, log 6). -/
def Obligations.HostRegisterWrites : Prop :=
  ∀ (s : State) (idx : Nat) (v : Word32) (rest : List Input), s.inputs = .writeReg idx v :: rest →
    step s =
      if idx = 0 then exec (decodeCmd (v.setWidth 8)) { s with inputs := rest }
      else if idx = 1 then .next { s with inputs := rest, config := v.setWidth 8 &&& 0x9F#8 }
      else if idx = 7 then .next { s with inputs := rest, inLen := v }
      else .next { s with inputs := rest }

/-- What a host read of each register returns (10_state.md R20, R22, R23, R40, 60_exceptions.md R200), OUT_LEN only while
`BUSY = 0` (20_memory.md R63); the registers keep their values. What a read while `BUSY = 1` sees of the registers other
than STATUS and PHASE is the model's choice (logs 23, 27), and so are the zeros above an 8-bit register (log 6). -/
def Obligations.HostRegisterReads : Prop :=
  ∀ (s : State) (idx : Nat) (rest : List Input), s.inputs = .readReg idx :: rest →
    ¬ (idx = 8 ∧ s.status.busy = true) →
    ∃ v : Word32, step s = .next { s with inputs := rest, readData := v } ∧
      (idx = 0 → v.toNat = 0) ∧
      (idx = 1 → v.toNat = s.config.toNat) ∧
      (idx = 2 → v.toNat = s.status.busy.toNat + 2 * s.status.done.toNat + 4 * s.status.err.toNat +
        8 * (if s.status.dir = .decode then 1 else 0)) ∧
      (idx = 3 → v.toNat =
        match s.errcode with
        | none => 0
        | some .invalidHeader => 1
        | some .corruptStream => 2
        | some .unsupportedClearCode => 3
        | some .outOfRangeSymbol => 4
        | some .invalidArgument => 5
        | some .outputOverflow => 6) ∧
      (idx = 4 → v.toNat = s.streamCfg.toNat) ∧
      (idx = 5 → v.toNat = s.statMaxw.toNat) ∧
      (idx = 6 → v.toNat = s.statFinalw.toNat) ∧
      (idx = 7 → v = s.inLen) ∧
      (idx = 8 → v = s.outLen) ∧
      (idx = 9 → v.toNat =
        match s.phase with
        | .idle => 0
        | .encEmpty => 1
        | .encMatching => 2
        | .encFlushed => 3
        | .decAwaitHeader => 4
        | .decInit => 5
        | .decRunning => 6
        | .decDone => 7
        | .error => 8) ∧
      (9 < idx → v.toNat = 0)

/-- A host write to IN_BUF stores the byte at its index alone; what CORE reads at every other index is as before, and while
`BUSY = 0` it reads the byte written (20_memory.md R63, 45_control.md R195). -/
def Obligations.HostWritesOneInputByte : Prop :=
  ∀ (s : State) (i : Word32) (b : Byte) (rest : List Input), s.inputs = .writeIn i b :: rest →
    ∃ t, step s = .next t ∧
      memRead t.inBuf i.toNat = some b ∧
      (∀ j, j ≠ i.toNat → memRead t.inBuf j = memRead s.inBuf j ∧ coreRead t j = coreRead s j) ∧
      (s.status.busy = false → assocGet s.raced i.toNat = none → coreRead t i.toNat = b) ∧
      t = { s with inputs := rest, inBuf := t.inBuf, raced := t.raced, draws := t.draws }

/-- A host read of OUT_BUF (20_memory.md R50, R63): with `BUSY = 0` a byte the transaction wrote is read and nothing else
changes; any other byte, and every byte while `BUSY = 1`, is any value, and only `readData` and the draw counter (the
model's own) change. That the read at `BUSY = 0` needs no read of STATUS before it is the model's choice (log 27), and that
an index at or above OUT_CAP faults is its deduction (log 25). -/
def Obligations.HostReadsOutputByte : Prop :=
  ∀ (s : State) (i : Word32) (rest : List Input), s.inputs = .readOut i :: rest →
    ((∀ c ∈ s.params.outCap, i.toNat < c) →
      (∀ b, s.status.busy = false → memRead s.outBuf i.toNat = some b →
        ∃ v : Word32, v.toNat = b.toNat ∧ step s = .next { s with inputs := rest, readData := v }) ∧
      ∃ t, step s = .next t ∧ t = { s with inputs := rest, readData := t.readData, draws := t.draws }) ∧
    ((∃ c ∈ s.params.outCap, c ≤ i.toNat) → step s = .fault .outIndexBeyondCap)

/-- Hardware reset in any state (70_reset_and_hazards.md R230): the ten registers take their reset values. The parameters,
the pending moves and `readData` stay (the model's own, log 14). -/
def Obligations.HardwareReset : Prop :=
  ∀ (s : State) (rest : List Input), s.inputs = .reset :: rest →
    ∃ t, step s = .next t ∧
      t.config = 0x90 ∧ t.status = { busy := false, done := false, err := false, dir := .encode } ∧ t.errcode = none ∧
      t.streamCfg = 0 ∧ t.statMaxw = 0 ∧ t.statFinalw = 0 ∧ t.inLen = 0 ∧ t.outLen = 0 ∧ t.phase = .idle ∧
      t.params = s.params ∧ t.inputs = rest ∧ t.readData = s.readData

/-- The registers right after power-on (10_state.md R20, R43, 70_reset_and_hazards.md R230), as the host reads them. -/
def Obligations.ResetRegisterValues : Prop :=
  ∀ idx, regValue State.reset idx = if idx = 1 then 0x90 else 0

/-! ## Commands -/

/-- ENCODE and DECODE written to CMD while `BUSY = 0` (45_control.md R190): the transaction is accepted from any phase, and
nothing else changes; that the internal state still holds what it held is the model's choice (log 17). -/
def Obligations.CommandAccepted : Prop :=
  ∀ s : State, s.status.busy = false →
    exec .encode s = .next { s with
      status := { busy := true, done := false, err := false, dir := .encode }
      errcode := none, statMaxw := 0, statFinalw := 0
      sampledConfig := s.config, sampledInLen := s.inLen, raced := []
      phase := .encEmpty, starting := true } ∧
    exec .decode s = .next { s with
      status := { busy := true, done := false, err := false, dir := .decode }
      errcode := none, statMaxw := 0, statFinalw := 0
      sampledConfig := s.config, sampledInLen := s.inLen, raced := []
      phase := .decAwaitHeader, starting := true }

/-- Any other value written to CMD while `BUSY = 0` is rejected with InvalidArgument (45_control.md R192); DIR, the output,
STREAM_CFG, the statistics and everything else stay; for the internal state that is the model's choice (log 17). -/
def Obligations.IllegalCommandRejected : Prop :=
  ∀ (s : State) (op : Byte), s.status.busy = false → decodeCmd op ≠ .encode → decodeCmd op ≠ .decode →
    decodeCmd op = .illegalCmd op ∧
    exec (.illegalCmd op) s = .next { s with
      status := { busy := false, done := false, err := true, dir := s.status.dir }
      errcode := some .invalidArgument, phase := .error }

/-- A write to CMD while `BUSY = 1` changes no state (45_control.md R193). -/
def Obligations.CommandIgnoredWhileBusy : Prop :=
  ∀ (s : State) (op : Byte), s.status.busy = true → exec (decodeCmd op) s = .next s

/-! ## Header codec -/

/-- HDR_WRITE(m, b) with `b <= 31` and room for three bytes (40_header_codec.md R101): `1F 9D` and the byte with `m` in bit 7
and `max(b, 9)` below are appended; nothing else changes. -/
def Obligations.HdrWriteEmitsHeader : Prop :=
  ∀ s : State, s.operands.maxBits.toNat ≤ 31 → RoomFor 3 s →
    ∃ (t : State) (h : Byte), exec .hdrWrite s = .next t ∧
      h.toNat = 128 * s.operands.blockMode.toNat + max s.operands.maxBits.toNat 9 ∧
      Appended [0x1F, 0x9D, h] s t ∧
      t = { s with outBuf := t.outBuf, outLen := t.outLen }

/-- HDR_READ of a good header returns `(h[7], max(h[4:0], 9))` and changes nothing else (40_header_codec.md R102, 30_encoding.md
R72). -/
def Obligations.HdrReadReturnsFields : Prop :=
  ∀ s : State, 3 ≤ s.sampledInLen.toNat → coreRead s 0 = 0x1F → coreRead s 1 = 0x9D →
    max ((coreRead s 2).toNat % 32) 9 ≤ s.params.maxBitsCap →
    ∃ (m : Bool) (b : Width), exec .hdrRead s = .next { s with result := .headerRead m b } ∧
      m.toNat = (coreRead s 2).toNat / 128 ∧ b.toNat = max ((coreRead s 2).toNat % 32) 9

/-- HDR_READ raises InvalidHeader in the three cases of 60_exceptions.md R201.
Outside a transaction that a raise aborts is the model's choice (log 18). -/
def Obligations.HdrReadInvalidHeader : Prop :=
  ∀ s : State,
    (s.sampledInLen.toNat < 3 ∨ coreRead s 0 ≠ 0x1F ∨ coreRead s 1 ≠ 0x9D ∨
      s.params.maxBitsCap < max ((coreRead s 2).toNat % 32) 9) →
    ∃ t, exec .hdrRead s = .next t ∧ AbortedWith .invalidHeader s t

/-- Reading the bytes HDR_WRITE(m, b) writes gives `(m, clamp(b, 9, 31))` (40_header_codec.md R103). -/
def Obligations.HeaderFidelity : Prop :=
  ∀ s u : State, s.operands.maxBits.toNat ≤ 31 → RoomFor 3 s → 9 ≤ u.params.maxBitsCap →
    (s.operands.maxBits.toNat ≤ u.params.maxBitsCap ∨ s.operands.maxBits.toNat ≤ 9) →
    ∃ t, exec .hdrWrite s = .next t ∧
      (3 ≤ u.sampledInLen.toNat →
        (∀ j, j < 3 → memRead t.outBuf (s.outLen.toNat + j) = some (coreRead u j)) →
        ∃ b : Width, exec .hdrRead u = .next { u with result := .headerRead s.operands.blockMode b } ∧
          b.toNat = min (max s.operands.maxBits.toNat 9) 31)

/-! ## Bit packer and unpacker -/

/-- BW_PUSH of a code that fits its width (41_bitstream.md R110): the code stands above the pending bits, all but the last
1 to 8 bits are emitted as bytes, least significant first, and the packer stays well formed; nothing else changes. -/
def Obligations.BwPushPacksCode : Prop :=
  ∀ s : State, ValidCode s.operands.code.toNat s.operands.width.toNat → PackerWf s →
    RoomFor (peelCount s.operands.width.toNat s) s →
    ∃ t, exec .bwPush s = .next t ∧ Packs s.operands.code.toNat s.operands.width.toNat s t ∧
      PackerWf t ∧ 1 ≤ t.nbits.toNat ∧
      t = { s with outBuf := t.outBuf, outLen := t.outLen, acc := t.acc, nbits := t.nbits }

/-- BW_FLUSH emits the pending bits as one byte, high bits 0, and empties the packer; with nothing pending it changes
nothing (41_bitstream.md R112). -/
def Obligations.BwFlushEmitsPendingBits : Prop :=
  ∀ s : State, PackerWf s →
    (s.nbits.toNat = 0 → exec .bwFlush s = .next s) ∧
    (0 < s.nbits.toNat → RoomFor 1 s →
      ∃ (t : State) (b : Byte), exec .bwFlush s = .next t ∧ b.toNat = s.acc.toNat ∧ Appended [b] s t ∧
        t = { s with outBuf := t.outBuf, outLen := t.outLen, acc := 0, nbits := 0 })

/-- The packing law (41_bitstream.md R113): pushing codes into an empty packer and flushing emits the little-endian base-256
digits of their sum, each shifted by the bits before it. -/
def Obligations.PackingLaw : Prop :=
  ∀ (codes : List (Nat × Nat)) (s : State), (∀ e ∈ codes, ValidCode e.1 e.2) → s.acc = 0 → s.nbits = 0 →
    RoomFor ((totalBits codes + 7) / 8) s →
    ∃ t, resBind (pushAll codes s) (fun _ u => bwFlush u) = .ok () t ∧
      Appended (digits (packedValue codes) ((totalBits codes + 7) / 8)) s t ∧
      t = { s with outBuf := t.outBuf, outLen := t.outLen }

/-- BR_PULL(width) returns the `width` bits at the cursor, the lowest first, and moves the cursor `width` bits on, where that
many bits are left; exactly where fewer are left it returns none and leaves the cursor. It raises nothing for a short
input (41_bitstream.md R114, R115, R116). -/
def Obligations.BrPullTakesBitsAtCursor : Prop :=
  ∀ s : State, 1 ≤ s.operands.width.toNat → s.operands.width.toNat ≤ 31 →
    (BitsLeft s.operands.width.toNat s →
      exec .brPull s = .next { advanced s.operands.width.toNat s with
        result := .pulled (some (BitVec.ofNat 31 (codeAt s.operands.width.toNat s))) } ∧
      cursorPos (advanced s.operands.width.toNat s) = cursorPos s + s.operands.width.toNat) ∧
    (¬ BitsLeft s.operands.width.toNat s → exec .brPull s = .next { s with result := .pulled none })

/-- Operands outside a unit operation's contract raise InvalidArgument before it does anything (60_exceptions.md R205): HDR_WRITE
with `b > 31`, BW_PUSH of a width of 0 or above 31 or of a code that does not fit, BR_PULL of a width of 0 or above 31; the
packer and the cursor are unchanged.
Outside a transaction that a raise aborts is the model's choice (log 18). -/
def Obligations.UnitsRejectBadOperands : Prop :=
  ∀ s : State,
    (31 < s.operands.maxBits.toNat → ∃ t, exec .hdrWrite s = .next t ∧ AbortedWith .invalidArgument s t) ∧
    (¬ ValidCode s.operands.code.toNat s.operands.width.toNat →
      ∃ t, exec .bwPush s = .next t ∧ AbortedWith .invalidArgument s t ∧ t.acc = s.acc ∧ t.nbits = s.nbits) ∧
    ((s.operands.width.toNat = 0 ∨ 31 < s.operands.width.toNat) →
      ∃ t, exec .brPull s = .next t ∧ AbortedWith .invalidArgument s t ∧
        t.byteIndex = s.byteIndex ∧ t.bitOffset = s.bitOffset)

/-- The unpacking law (41_bitstream.md R117): from the bytes of the packing law at index 3, pulls of the same widths return the
same codes, and after them a pull of 8 bits or more returns none. -/
def Obligations.UnpackingLaw : Prop :=
  ∀ (codes : List (Nat × Nat)) (s : State), (∀ e ∈ codes, ValidCode e.1 e.2) →
    s.sampledInLen.toNat = 3 + (totalBits codes + 7) / 8 →
    (∀ j, j < (totalBits codes + 7) / 8 →
      some (coreRead s (3 + j)) = (digits (packedValue codes) ((totalBits codes + 7) / 8))[j]?) →
    s.byteIndex = 3 → s.bitOffset = 0 →
    ∃ t, pullAll (codes.map Prod.snd) s = .ok (codes.map fun e => some (BitVec.ofNat 31 e.1)) t ∧
      ∀ w, 8 ≤ w → w ≤ 31 → brPull w t = .ok none t

/-! ## Dictionary -/

/-- DICT_RESET (42_dictionary.md R130): width 9, first assignable code 257 or 256, the side's table holds exactly the 256
one-byte entries; the other table and everything else stay. -/
def Obligations.DictResetSeedsTable : Prop :=
  ∀ s : State, ∃ t, exec .dictReset s = .next t ∧
    t.blockMode = s.operands.blockMode ∧ t.codeWidth.toNat = 9 ∧
    t.nextCode.toNat = (if s.operands.blockMode then 257 else 256) ∧
    (s.operands.side = .decode →
      t.ed = s.ed ∧ ∀ k, ddGet t.dd k = if k < 256 then some [BitVec.ofNat 8 k] else none) ∧
    (s.operands.side = .encode →
      t.dd = s.dd ∧ (∀ b : Byte, edGet t.ed [b] = some (b.setWidth 32)) ∧
      ∀ key, key.length ≠ 1 → edGet t.ed key = none) ∧
    t = { s with blockMode := t.blockMode, codeWidth := t.codeWidth, nextCode := t.nextCode, dd := t.dd, ed := t.ed }

/-- The two lookups return what the table holds, or none, and change nothing else (42_dictionary.md R131, R132). -/
def Obligations.LookupsReturnEntry : Prop :=
  ∀ s : State,
    exec .encDictLookup s = .next { s with result := .encFound (edGet s.ed s.operands.key) } ∧
    exec .decDictLookup s = .next { s with result := .decFound (ddGet s.dd s.operands.code.toNat) }

/-- DICT_INSERT_IF_ROOM (42_dictionary.md R133): below capacity the key takes `S.next_code`, which goes up by one, every other
entry kept; at capacity nothing changes; it returns which. -/
def Obligations.InsertIfRoomTakesNextCode : Prop :=
  ∀ s : State, ∃ t, exec .dictInsertIfRoom s = .next t ∧
    t.result = .inserted (decide (s.nextCode.toNat < 2 ^ s.codeWidth.toNat)) ∧
    (s.operands.side = .encode → t.dd = s.dd ∧ EncInserted s.operands.key s.codeWidth s t) ∧
    (s.operands.side = .decode → t.ed = s.ed ∧ DecInserted s.operands.key s.codeWidth s t) ∧
    t = { s with dd := t.dd, ed := t.ed, nextCode := t.nextCode, result := t.result }

/-- DICT_MAYBE_GROW (42_dictionary.md R134): the width goes up by exactly one where the table is full at this width and the
width is below `S.max_bits`; else nothing changes. -/
def Obligations.MaybeGrowAddsOne : Prop :=
  ∀ s : State, ∃ t, exec .dictMaybeGrow s = .next t ∧
    t.codeWidth.toNat =
      (if s.nextCode.toNat = 2 ^ s.codeWidth.toNat ∧ s.codeWidth.toNat < s.maxBits.toNat then s.codeWidth.toNat + 1
       else s.codeWidth.toNat) ∧
    t = { s with codeWidth := t.codeWidth }

/-- Freezing (42_dictionary.md R136): with the width at `S.max_bits` and the table full, no step of a transaction after its
start step changes a table, `S.next_code` or the width. That they stay also where the step ends the transaction is the
model's choice (log 17; log 22 for an abort). -/
def Obligations.FrozenDictionaryStays : Prop :=
  ∀ (s t : State) (i : Instr), s.codeWidth = s.maxBits → s.nextCode.toNat = dictSizeMax s →
    i ∈ [Instr.encSymbol, .encFinish, .decCode] → exec i s = .next t →
    t.ed = s.ed ∧ t.dd = s.dd ∧ t.nextCode = s.nextCode ∧ t.codeWidth = s.codeWidth ∧ t.maxBits = s.maxBits

/-! ## Encoder -/

/-- ENC_START (43_encoder.md R150) with the effective `max_bits` within the cap and room for the header: every encoder, packer
and dictionary register initialised, the header alone in OUT_BUF, STREAM_CFG the header's byte 2; the rest stays. That
OUT_BUF lists no other byte is the model's reading of U4 (log 9). -/
def Obligations.EncStartInitialises : Prop :=
  ∀ s : State, s.phase = .encEmpty → s.starting = true →
    max (s.sampledConfig.toNat % 32) 9 ≤ s.params.maxBitsCap → (∀ c ∈ s.params.outCap, 3 ≤ c) →
    ∃ (t : State) (h : Byte), exec .encStart s = .next t ∧
      h.toNat = 128 * (s.sampledConfig.toNat / 128) + max (s.sampledConfig.toNat % 32) 9 ∧
      t.outBuf = [(0, 0x1F), (1, 0x9D), (2, h)] ∧
      t.maxBits.toNat = max (s.sampledConfig.toNat % 32) 9 ∧
      t.blockMode.toNat = s.sampledConfig.toNat / 128 ∧
      t.nextCode.toNat = (if t.blockMode then 257 else 256) ∧
      (∀ b : Byte, edGet t.ed [b] = some (b.setWidth 32)) ∧ (∀ key, key.length ≠ 1 → edGet t.ed key = none) ∧
      t = { s with
        maxBits := t.maxBits, blockMode := t.blockMode, codeWidth := 9, nextCode := t.nextCode, ed := t.ed
        w := [], inIdx := 0, acc := 0, nbits := 0, maxw := 0
        outLen := 3, outBuf := t.outBuf, outDraw := t.outDraw, draws := t.draws
        streamCfg := h, phase := .encEmpty, starting := false }

/-- ENC_START's errors in their order (43_encoder.md R150, 60_exceptions.md R207): InvalidArgument for an effective `max_bits`
above the cap, else OutputOverflow where OUT_CAP is below 3; STREAM_CFG is not written. -/
def Obligations.EncStartErrors : Prop :=
  ∀ s : State, s.phase = .encEmpty → s.starting = true →
    (s.params.maxBitsCap < max (s.sampledConfig.toNat % 32) 9 →
      ∃ t, exec .encStart s = .next t ∧ AbortedWith .invalidArgument s t) ∧
    (max (s.sampledConfig.toNat % 32) 9 ≤ s.params.maxBitsCap → (∃ c ∈ s.params.outCap, c < 3) →
      ∃ t, exec .encStart s = .next t ∧ AbortedWith .outputOverflow s t)

/-- ENC_SYMBOL where the match extended by the next symbol is a key (43_encoder.md R152): the match is extended, the symbol
consumed, the phase ENC_MATCHING; nothing else changes. -/
def Obligations.EncSymbolAbsorbsKnown : Prop :=
  ∀ s : State, (s.phase = .encEmpty ∨ s.phase = .encMatching) → s.starting = false →
    s.inIdx.toNat < s.sampledInLen.toNat → (edGet s.ed (s.w ++ [coreRead s s.inIdx.toNat])).isSome = true →
    exec .encSymbol s = .next { s with
      inIdx := s.inIdx + 1, w := s.w ++ [coreRead s s.inIdx.toNat], phase := .encMatching }

/-- ENC_SYMBOL on a miss (43_encoder.md R152, 70_reset_and_hazards.md R241): the match's code is pushed at the old width; then
the width may grow; then the extended match is inserted if there is room at the new width; the match becomes the symbol. -/
def Obligations.EncSymbolEmitsOnMiss : Prop :=
  ∀ (s : State) (code : Word32), (s.phase = .encEmpty ∨ s.phase = .encMatching) → s.starting = false →
    s.inIdx.toNat < s.sampledInLen.toNat → edGet s.ed (s.w ++ [coreRead s s.inIdx.toNat]) = none →
    edGet s.ed s.w = some code → ValidCode code.toNat s.codeWidth.toNat → PackerWf s →
    RoomFor (peelCount s.codeWidth.toNat s) s →
    ∃ t, exec .encSymbol s = .next t ∧
      Packs code.toNat s.codeWidth.toNat s t ∧ PackerWf t ∧
      t.codeWidth = grownWidth s.nextCode.toNat s ∧
      EncInserted (s.w ++ [coreRead s s.inIdx.toNat]) t.codeWidth s t ∧
      t = { s with
        inIdx := s.inIdx + 1, w := [coreRead s s.inIdx.toNat], phase := .encMatching, maxw := widerOf s
        outBuf := t.outBuf, outLen := t.outLen, acc := t.acc, nbits := t.nbits
        ed := t.ed, nextCode := t.nextCode, codeWidth := t.codeWidth }

/-- ENC_FINISH (43_encoder.md R153, R156): with a pending match its code is pushed at the current width and every pending bit
flushed, without growth or insertion; without one only the pending bits are flushed. The transaction completes;
that the internal state outlives it is the model's choice (log 17). -/
def Obligations.EncFinishCompletes : Prop :=
  ∀ s : State, (s.phase = .encEmpty ∨ s.phase = .encMatching) → s.starting = false → s.inIdx = s.sampledInLen →
    PackerWf s →
    (∀ code, s.w ≠ [] → edGet s.ed s.w = some code → ValidCode code.toNat s.codeWidth.toNat →
      RoomFor ((s.nbits.toNat + s.codeWidth.toNat + 7) / 8) s →
      ∃ t, exec .encFinish s = .next t ∧
        Appended (digits (pendingWith code.toNat s) ((s.nbits.toNat + s.codeWidth.toNat + 7) / 8)) s t ∧
        t = { s with
          outBuf := t.outBuf, outLen := t.outLen, acc := 0, nbits := 0, maxw := widerOf s
          statMaxw := (widerOf s).setWidth 8, statFinalw := s.codeWidth.setWidth 8
          status := { busy := false, done := true, err := false, dir := .encode }, errcode := none
          phase := .encFlushed }) ∧
    (s.w = [] → RoomFor ((s.nbits.toNat + 7) / 8) s →
      ∃ t, exec .encFinish s = .next t ∧ Appended (digits s.acc.toNat ((s.nbits.toNat + 7) / 8)) s t ∧
        t = { s with
          outBuf := t.outBuf, outLen := t.outLen, acc := 0, nbits := 0
          statMaxw := s.maxw.setWidth 8, statFinalw := s.codeWidth.setWidth 8
          status := { busy := false, done := true, err := false, dir := .encode }, errcode := none
          phase := .encFlushed })

/-- In a started ENCODE the only error ENC_SYMBOL and ENC_FINISH can raise is OutputOverflow: every code pushed fits its width
(43_encoder.md R154, 60_exceptions.md R207). -/
def Obligations.EncoderRaisesOnlyOverflow : Prop :=
  ∀ (s : State) (i : Instr), RunInv s → encoding s = true →
    (i = .encSymbol ∧ s.inIdx.toNat < s.sampledInLen.toNat ∨ i = .encFinish ∧ s.inIdx = s.sampledInLen) →
    ∃ t, exec i s = .next t ∧ (t.phase = .error → t.errcode = some .outputOverflow)

/-- An ENCODE always ends (43_encoder.md R155): from its start step done, with the host waiting, one ENC_SYMBOL a remaining
symbol and one ENC_FINISH bring it to `BUSY = 0`. -/
def Obligations.EncodeEnds : Prop :=
  ∀ s : State, RunInv s → s.inputs = [] → encoding s = true →
    ∃ t, Host.Core.run Sys2Proof.core (s.sampledInLen.toNat - s.inIdx.toNat + 1) s = .next t ∧ t.status.busy = false

/-! ## Decoder -/

/-- DEC_START with a good header (44_decoder.md R170): dictionary, cursor, previous entry and statistic initialised from the
header, CONFIG not read, STREAM_CFG the header's fields, phase DEC_INIT; the rest stays. -/
def Obligations.DecStartInitialises : Prop :=
  ∀ s : State, s.phase = .decAwaitHeader → 3 ≤ s.sampledInLen.toNat → coreRead s 0 = 0x1F → coreRead s 1 = 0x9D →
    max ((coreRead s 2).toNat % 32) 9 ≤ s.params.maxBitsCap →
    ∃ (t : State) (h : Byte), exec .decStart s = .next t ∧
      h.toNat = 128 * ((coreRead s 2).toNat / 128) + max ((coreRead s 2).toNat % 32) 9 ∧
      t.maxBits.toNat = max ((coreRead s 2).toNat % 32) 9 ∧
      t.blockMode.toNat = (coreRead s 2).toNat / 128 ∧
      t.nextCode.toNat = (if t.blockMode then 257 else 256) ∧
      (∀ k, ddGet t.dd k = if k < 256 then some [BitVec.ofNat 8 k] else none) ∧
      t = { s with
        maxBits := t.maxBits, blockMode := t.blockMode, codeWidth := 9, nextCode := t.nextCode, dd := t.dd
        byteIndex := 3, bitOffset := 0, dw := none, maxw := 0
        outLen := 0, outBuf := [], outDraw := t.outDraw, draws := t.draws
        streamCfg := h, phase := .decInit, starting := false }

/-- DEC_START raises InvalidHeader for a short, unmagic or too wide header, STREAM_CFG unchanged (44_decoder.md R170,
60_exceptions.md R201). -/
def Obligations.DecStartInvalidHeader : Prop :=
  ∀ s : State, s.phase = .decAwaitHeader →
    (s.sampledInLen.toNat < 3 ∨ coreRead s 0 ≠ 0x1F ∨ coreRead s 1 ≠ 0x9D ∨
      s.params.maxBitsCap < max ((coreRead s 2).toNat % 32) 9) →
    ∃ t, exec .decStart s = .next t ∧ AbortedWith .invalidHeader s t

/-- The HEADER word, taken where the decoder awaits it, does what DEC_START does with those bytes (30_encoding.md R70, R72,
44_decoder.md R170): it completes within the cap, and raises InvalidHeader above it. That the word comes on its own is the
model's form (log 5), and that OUT_BUF lists no byte is its reading of U4 (log 9). -/
def Obligations.HeaderWordTaken : Prop :=
  ∀ (s : State) (m : Bool) (b : Width), s.phase = .decAwaitHeader →
    (max b.toNat 9 ≤ s.params.maxBitsCap →
      ∃ (t : State) (h : Byte), exec (.header m b) s = .next t ∧
        h.toNat = 128 * m.toNat + max b.toNat 9 ∧ t.maxBits.toNat = max b.toNat 9 ∧
        (∀ k, ddGet t.dd k = if k < 256 then some [BitVec.ofNat 8 k] else none) ∧
        t = { s with
          maxBits := t.maxBits, blockMode := m, codeWidth := 9, nextCode := (if m then 257 else 256), dd := t.dd
          byteIndex := 3, bitOffset := 0, dw := none, maxw := 0
          outLen := 0, outBuf := [], outDraw := t.outDraw, draws := t.draws
          streamCfg := h, phase := .decInit, starting := false }) ∧
    (s.params.maxBitsCap < max b.toNat 9 →
      ∃ t, exec (.header m b) s = .next t ∧ AbortedWith .invalidHeader s t) ∧
    (3 ≤ s.sampledInLen.toNat → decodeHeader (coreRead s 0) (coreRead s 1) (coreRead s 2) = .ok (.header m b) →
      exec .decStart s = exec (.header m b) s)

/-- DEC_CODE with fewer than `S.code_width` bits left completes the transaction (44_decoder.md R175, R176); the output and
everything else stay; that the internal state outlives the transaction is the model's choice (log 17). -/
def Obligations.DecCodeEndOfStream : Prop :=
  ∀ s : State, (s.phase = .decInit ∨ s.phase = .decRunning) → 9 ≤ s.codeWidth.toNat → ¬ BitsLeft s.codeWidth.toNat s →
    exec .decCode s = .next { s with
      statMaxw := s.maxw.setWidth 8, statFinalw := s.codeWidth.setWidth 8
      status := { busy := false, done := true, err := false, dir := .decode }, errcode := none, phase := .decDone }

/-- DEC_CODE with a code left (44_decoder.md R171): the `S.code_width` bits at the cursor are the code, the cursor moves past
them, the statistic takes the width, and the code's class of 30_encoding.md R76 does the rest. -/
def Obligations.DecCodeRunsItsClass : Prop :=
  ∀ s : State, (s.phase = .decInit ∨ s.phase = .decRunning) → 9 ≤ s.codeWidth.toNat → BitsLeft s.codeWidth.toNat s →
    let k : Code31 := BitVec.ofNat 31 (codeAt s.codeWidth.toNat s)
    exec .decCode s = exec (decodeCode (codeCtx s k) k) { advanced s.codeWidth.toNat s with maxw := widerOf s }

/-- DEC_CODE raises UnsupportedClearCode when the pulled code is 256 in block mode, in either phase (60_exceptions.md R203). -/
def Obligations.ClearCodeUnsupported : Prop :=
  ∀ s : State, (s.phase = .decInit ∨ s.phase = .decRunning) → 9 ≤ s.codeWidth.toNat → BitsLeft s.codeWidth.toNat s →
    s.blockMode = true → codeAt s.codeWidth.toNat s = 256 →
    (∃ t, exec .decCode s = .next t ∧ AbortedWith .unsupportedClearCode s t) ∧
    ∃ t, exec .codeClear s = .next t ∧ AbortedWith .unsupportedClearCode s t

/-- Code 0 under `ZERO_CODE_POLICY = reject`, a first code above 255, and a later code neither known nor next raise
CorruptStream (44_decoder.md R172, R173, R174, 60_exceptions.md R202). -/
def Obligations.CorruptCodesRaise : Prop :=
  ∀ (s : State) (k : Code31), (s.phase = .decInit ∨ s.phase = .decRunning) →
    (s.params.zeroPolicy = .reject → ∃ t, exec .codeZeroReject s = .next t ∧ AbortedWith .corruptStream s t) ∧
    (s.phase = .decInit → 255 < k.toNat → ¬ (s.blockMode = true ∧ k.toNat = 256) →
      ∃ t, exec (.codeFirstBad k) s = .next t ∧ AbortedWith .corruptStream s t) ∧
    (s.phase = .decRunning → ddGet s.dd k.toNat = none → k.toNat ≠ s.nextCode.toNat →
      ¬ (s.blockMode = true ∧ k.toNat = 256) → ¬ (s.params.zeroPolicy = .reject ∧ k.toNat = 0) →
      ∃ t, exec (.codeUnknown k) s = .next t ∧ AbortedWith .corruptStream s t)

/-- The first code, a literal (44_decoder.md R172): the byte is emitted, `S.dw` becomes it, the phase DEC_RUNNING, with no
insertion and no growth. -/
def Obligations.FirstLiteralEmitted : Prop :=
  ∀ (s : State) (k : Byte), s.phase = .decInit → ¬ (s.params.zeroPolicy = .reject ∧ k.toNat = 0) → RoomFor 1 s →
    ∃ t, exec (.codeFirstLiteral k) s = .next t ∧ Appended [k] s t ∧
      t = { s with outBuf := t.outBuf, outLen := t.outLen, dw := some [k], phase := .decRunning }

/-- A later code that is a key (44_decoder.md R174): its entry is emitted in order, `S.dw` extended by the entry's first byte is
inserted if there is room, the width may grow after an insertion, and `S.dw` becomes the entry. -/
def Obligations.KnownCodeTaken : Prop :=
  ∀ (s : State) (k : Code31) (x : Byte) (rest d : Symbols), s.phase = .decRunning →
    ¬ (s.params.zeroPolicy = .reject ∧ k.toNat = 0) → ¬ (s.blockMode = true ∧ k.toNat = 256) →
    ddGet s.dd k.toNat = some (x :: rest) → s.dw = some d → RoomFor (rest.length + 1) s →
    ∃ t, exec (.codeKnown k) s = .next t ∧ EntryTaken (x :: rest) (d ++ [x]) s t

/-- A later code equal to `S.next_code` and no key (44_decoder.md R174): the entry is `S.dw + first(S.dw)`, and the entry
inserted equals it. -/
def Obligations.NextCodeTaken : Prop :=
  ∀ (s : State) (k : Code31) (x : Byte) (d : Symbols), s.phase = .decRunning →
    ¬ (s.params.zeroPolicy = .reject ∧ k.toNat = 0) → ¬ (s.blockMode = true ∧ k.toNat = 256) →
    ddGet s.dd k.toNat = none → k.toNat = s.nextCode.toNat → s.dw = some (x :: d) → RoomFor (d.length + 2) s →
    ∃ t, exec (.codeKwkwk k) s = .next t ∧ EntryTaken (x :: d ++ [x]) (x :: d ++ [x]) s t

/-- A DECODE always ends (44_decoder.md R176): from its start step done, with the host waiting, one DEC_CODE for each 9 bits
left and one more bring it to `BUSY = 0`. -/
def Obligations.DecodeEnds : Prop :=
  ∀ s : State, RunInv s → s.inputs = [] → decoding s = true →
    ∃ t, Host.Core.run Sys2Proof.core ((8 * s.sampledInLen.toNat - cursorPos s) / 9 + 1) s = .next t ∧
      t.status.busy = false

/-- DECODE does not read CONFIG (44_decoder.md R170, 92_eei_decisions.md D27): the decoder's steps do the same whatever CONFIG
and its sample hold. -/
def Obligations.DecoderIgnoresConfig : Prop :=
  ∀ (s : State) (i : Instr) (c d : Byte), i ∈ [Instr.decStart, .decCode] →
    exec i { s with config := c, sampledConfig := d } =
      mapNext (fun t => { t with config := c, sampledConfig := d }) (exec i s)

/-! ## The whole machine -/

/-- An operation that emits more bytes than OUT_CAP still allows aborts with OutputOverflow (60_exceptions.md R206, R207):
BW_FLUSH, HDR_WRITE, BW_PUSH, ENC_SYMBOL on a miss, ENC_FINISH, each code class that emits, and DEC_CODE (ENC_START stands in
EncStartErrors). Outside a transaction that a raise aborts is the model's choice (log 18). -/
def Obligations.FullOutputOverflows : Prop :=
  ∀ s : State,
    (0 < s.nbits.toNat → Overflows 1 s → ∃ t, exec .bwFlush s = .next t ∧ AbortedWith .outputOverflow s t) ∧
    (s.operands.maxBits.toNat ≤ 31 → Overflows 3 s →
      ∃ t, exec .hdrWrite s = .next t ∧ AbortedWith .outputOverflow s t) ∧
    (ValidCode s.operands.code.toNat s.operands.width.toNat → Overflows (peelCount s.operands.width.toNat s) s →
      ∃ t, exec .bwPush s = .next t ∧ AbortedWith .outputOverflow s t) ∧
    (∀ code, encoding s = true → s.inIdx.toNat < s.sampledInLen.toNat →
      edGet s.ed (s.w ++ [coreRead s s.inIdx.toNat]) = none → edGet s.ed s.w = some code →
      ValidCode code.toNat s.codeWidth.toNat → Overflows (peelCount s.codeWidth.toNat s) s →
      ∃ t, exec .encSymbol s = .next t ∧ AbortedWith .outputOverflow s t) ∧
    (∀ code, encoding s = true → s.inIdx = s.sampledInLen → s.w ≠ [] → edGet s.ed s.w = some code →
      ValidCode code.toNat s.codeWidth.toNat → Overflows ((s.nbits.toNat + s.codeWidth.toNat + 7) / 8) s →
      ∃ t, exec .encFinish s = .next t ∧ AbortedWith .outputOverflow s t) ∧
    (encoding s = true → s.inIdx = s.sampledInLen → s.w = [] → 0 < s.nbits.toNat → Overflows 1 s →
      ∃ t, exec .encFinish s = .next t ∧ AbortedWith .outputOverflow s t) ∧
    (∀ (k : Code31) (entry : Symbols), Resolves s k entry → Overflows entry.length s →
      ∃ t, exec (decodeCode (codeCtx s k) k) s = .next t ∧ AbortedWith .outputOverflow s t) ∧
    (∀ entry : Symbols, 9 ≤ s.codeWidth.toNat → BitsLeft s.codeWidth.toNat s →
      Resolves s (BitVec.ofNat 31 (codeAt s.codeWidth.toNat s)) entry → Overflows entry.length s →
      ∃ t, exec .decCode s = .next t ∧ AbortedWith .outputOverflow s t)

/-- Every way into ERROR but a rejected command is an abort as 60_exceptions.md R210 describes it: STATUS, an error code, and
STREAM_CFG, the statistics and the host's registers as before; in a transaction the statistics then read 0 (10_state.md
R25). Outside a transaction that a raise aborts is the model's choice (log 18). -/
def Obligations.AbortsAreUniform : Prop :=
  ∀ (s t : State) (i : Instr), exec i s = .next t → s.phase ≠ .error → t.phase = .error → (∀ op, i ≠ .illegalCmd op) →
    ∃ e, e ≠ .outOfRangeSymbol ∧ AbortedWith e s t ∧
      (FlagsAgree s → s.status.busy = true → t.statMaxw = 0 ∧ t.statFinalw = 0)

/-- No operation changes IN_BUF, CONFIG, IN_LEN, the parameters or the pending moves (20_memory.md R65, 10_state.md R27). -/
def Obligations.CoreLeavesHostStateAlone : Prop :=
  ∀ (s t : State) (i : Instr), exec i s = .next t →
    t.inBuf = s.inBuf ∧ t.config = s.config ∧ t.inLen = s.inLen ∧ t.params = s.params ∧ t.inputs = s.inputs ∧
    t.readData = s.readData ∧ t.operands = s.operands ∧ t.inDraw = s.inDraw

/-- CORE reads IN_BUF below the sampled IN_LEN only (20_memory.md R58, R60): an operation does the same whatever IN_BUF holds at
or above it. -/
def Obligations.OnlyInputBelowLengthIsRead : Prop :=
  ∀ (s : State) (i : Instr) (m : Memory) (r : List (Nat × Nat)) (d : Nat), i ≠ .encode → i ≠ .decode →
    (∀ k, k < s.sampledInLen.toNat → coreRead { s with inBuf := m, raced := r, inDraw := d } k = coreRead s k) →
    exec i { s with inBuf := m, raced := r, inDraw := d } =
      mapNext (fun t => { t with inBuf := m, raced := r, inDraw := d }) (exec i s)

/-- Between transactions the results stay: only a command, a reset or an operation issued by a bench changes STATUS, PHASE, the
results or OUT_BUF (10_state.md R40, 45_control.md R196, 60_exceptions.md R211, R216). -/
def Obligations.ResultsStayUntilCommand : Prop :=
  ∀ s t : State, s.status.busy = false → step s = .next t →
    (∀ v, s.inputs.head? ≠ some (.writeReg 0 v)) → s.inputs.head? ≠ some .reset →
    (∀ w, s.inputs.head? ≠ some (.issue w)) →
    t.status = s.status ∧ t.phase = s.phase ∧ t.errcode = s.errcode ∧ t.streamCfg = s.streamCfg ∧
    t.statMaxw = s.statMaxw ∧ t.statFinalw = s.statFinalw ∧ t.outLen = s.outLen ∧ t.outBuf = s.outBuf

/-- Whatever comes from outside, a step keeps the lists canonical, the reserved bits 0, STATUS, ERRCODE and PHASE in
agreement, and the statistics 0 while BUSY (10_state.md R21 to R25, R40). -/
def Obligations.StepKeepsRegistersConsistent : Prop :=
  ∀ s t : State, Canonical s → ReservedZero s → FlagsAgree s → step s = .next t →
    Canonical t ∧ ReservedZero t ∧ FlagsAgree t

/-- The invariant of a machine driven by its host holds right after reset. -/
def Obligations.RunInvAtReset : Prop :=
  RunInv State.reset

/-- Every step of a machine driven by its host keeps the invariant of its registers, dictionary, packer and cursor (10_state.md
R29, R32, R36, R37, 42_dictionary.md R135). -/
def Obligations.StepKeepsRunInv : Prop :=
  ∀ s t : State, RunInv s → step s = .next t → RunInv t

/-- A machine driven by its host never reads a value that does not exist and never refuses a step: a step answers a next state,
but for a host read of OUT_BUF past OUT_CAP (70_reset_and_hazards.md R231, 43_encoder.md R154). -/
def Obligations.HostDrivenStepsComplete : Prop :=
  ∀ s : State, RunInv s →
    (∀ i, s.inputs.head? = some (.readOut i) → outIndexExists s i = true) →
    ∃ t, step s = .next t

/-- The round trip (44_decoder.md R178): with OUT_CAP unbounded and code 0 accepted, RUN_ENCODE of any bytes completes, and
RUN_DECODE of its output completes with those bytes and the same STREAM_CFG. The bound on the length keeps the encoded
stream's length within the 32 bits of OUT_LEN. -/
def Obligations.EncodeDecodeRoundTrip : Prop :=
  ∀ (s : State) (cfg : Byte) (data : Symbols), s.status.busy = false →
    s.params.zeroPolicy = .accept → s.params.outCap = none → max (cfg.toNat % 32) 9 ≤ s.params.maxBitsCap →
    data.length < 2 ^ 29 →
    ∃ (n : Nat) (t : State) (stream : Symbols),
      Host.Core.run Sys2Proof.core n { s with inputs := runEncode cfg data } = .next t ∧
      t.status = { busy := false, done := true, err := false, dir := .encode } ∧
      outputCells t = stream.map some ∧
      ∃ (m : Nat) (u : State),
        Host.Core.run Sys2Proof.core m { t with inputs := runDecode stream } = .next u ∧
        u.status = { busy := false, done := true, err := false, dir := .decode } ∧
        outputCells u = data.map some ∧ u.streamCfg = t.streamCfg
end

