-- ==== Sys2Proof/Laws/Memory.lean ====
section
/-! SUPPORT. Laws/Memory.lean: reads after writes, and that every operation on a buffer or a table keeps its canonical
form. The read laws hold for any list; the form is not needed for them. -/

namespace Sys2Proof.Machine

variable {α : Type}

@[simp] theorem assocGet_set_same (l : List (Nat × α)) (a : Nat) (v : α) : assocGet (assocSet l a v) a = some v := by
  induction l with
  | nil => simp [assocSet, assocGet]
  | cons p t ih =>
    obtain ⟨k, x⟩ := p
    by_cases h1 : a < k
    · simp [assocSet, assocGet, h1]
    · by_cases h2 : a = k
      · simp [assocSet, assocGet, h2]
      · simp [assocSet, assocGet, h1, h2, Ne.symm h2, ih]

theorem assocGet_set_ne (l : List (Nat × α)) {a b : Nat} (v : α) (h : b ≠ a) :
    assocGet (assocSet l a v) b = assocGet l b := by
  induction l with
  | nil => simp [assocSet, assocGet, Ne.symm h]
  | cons p t ih =>
    obtain ⟨k, x⟩ := p
    by_cases h1 : a < k
    · simp [assocSet, assocGet, h1, Ne.symm h]
    · by_cases h2 : a = k
      · subst h2; simp [assocSet, assocGet, Ne.symm h]
      · simp [assocSet, assocGet, h1, h2, ih]

theorem assocSet_mem_fst {l : List (Nat × α)} {a k : Nat} {v : α} (h : k ∈ (assocSet l a v).map Prod.fst) :
    k = a ∨ k ∈ l.map Prod.fst := by
  induction l with
  | nil => simpa [assocSet] using h
  | cons p t ih =>
    obtain ⟨k', x⟩ := p
    unfold assocSet at h
    split at h
    · simpa using h
    · split at h
      · rcases List.mem_cons.1 h with h | h
        · exact .inl h
        · exact .inr (List.mem_cons_of_mem _ h)
      · rcases List.mem_cons.1 h with h | h
        · exact .inr (h ▸ List.mem_cons_self)
        · rcases ih h with h | h
          · exact .inl h
          · exact .inr (List.mem_cons_of_mem _ h)

/-- A write keeps the canonical form. -/
theorem assocSet_wf {l : List (Nat × α)} (a : Nat) (v : α) (h : AssocWf l) : AssocWf (assocSet l a v) := by
  induction l with
  | nil => simp [AssocWf, assocSet]
  | cons p t ih =>
    obtain ⟨k, x⟩ := p
    simp only [AssocWf, List.map_cons, List.pairwise_cons] at h
    unfold assocSet
    split
    · rename_i hlt
      simp only [AssocWf, List.map_cons, List.pairwise_cons, List.mem_cons]
      refine ⟨fun b hb => ?_, h.1, h.2⟩
      rcases hb with rfl | hb
      · exact hlt
      · exact hlt.trans (h.1 b hb)
    · split
      · rename_i _ heq
        subst heq
        simpa only [AssocWf, List.map_cons, List.pairwise_cons] using h
      · rename_i hlt hne
        simp only [AssocWf, List.map_cons, List.pairwise_cons]
        refine ⟨fun b hb => ?_, ih h.2⟩
        rcases assocSet_mem_fst hb with rfl | hb
        · omega
        · exact h.1 b hb

/-! ## The byte buffers -/

@[simp] theorem memRead_write_same (m : Memory) (i : Nat) (b : Byte) : memRead (memWrite m i b) i = some b :=
  assocGet_set_same m i b

theorem memRead_write_ne (m : Memory) {i j : Nat} (b : Byte) (h : j ≠ i) : memRead (memWrite m i b) j = memRead m j :=
  assocGet_set_ne m b h

theorem memWrite_wf {m : Memory} (i : Nat) (b : Byte) (h : Memory.wf m) : Memory.wf (memWrite m i b) :=
  assocSet_wf i b h

theorem reset_canonical : Canonical State.reset := by
  refine ⟨?_, ?_, ?_, ?_⟩ <;> exact List.Pairwise.nil

/-! ## The tables -/

@[simp] theorem ddGet_set_same (t : DecTable) (k : Nat) (e : Symbols) : ddGet (ddSet t k e) k = some e :=
  assocGet_set_same t k e

theorem ddGet_set_ne (t : DecTable) {k j : Nat} (e : Symbols) (h : j ≠ k) : ddGet (ddSet t k e) j = ddGet t j :=
  assocGet_set_ne t e h

theorem ddSet_wf {t : DecTable} (k : Nat) (e : Symbols) (h : AssocWf t) : AssocWf (ddSet t k e) :=
  assocSet_wf k e h

@[simp] theorem edGet_set_same (t : EncTable) (key : Symbols) (c : Word32) : edGet (edSet t key c) key = some c := by
  simp [edSet, edGet]

theorem edGet_filter_ne (t : EncTable) {key k : Symbols} (h : k ≠ key) :
    edGet (t.filter fun e => decide (e.1 ≠ key)) k = edGet t k := by
  induction t with
  | nil => rfl
  | cons p t ih =>
    obtain ⟨s, c⟩ := p
    by_cases hs : s = key
    · rw [List.filter_cons_of_neg (by simp [hs]), ih]
      simp [edGet, hs, Ne.symm h]
    · rw [List.filter_cons_of_pos (by simp [hs])]
      simp only [edGet, ih]

theorem edGet_set_ne (t : EncTable) {key k : Symbols} (c : Word32) (h : k ≠ key) :
    edGet (edSet t key c) k = edGet t k := by
  rw [edSet, edGet, if_neg (Ne.symm h), edGet_filter_ne t h]

/-- Of a list of literals seeded into the encode table, the code of `[b]` is `b`. -/
theorem edGet_literals (l : List Nat) (hl : ∀ k ∈ l, k < 256) (b : Byte) :
    edGet (l.map fun k => ([BitVec.ofNat 8 k], BitVec.ofNat 32 k)) [b] =
      if b.toNat ∈ l then some (b.setWidth 32) else none := by
  induction l with
  | nil => simp [edGet]
  | cons k t ih =>
    have hk : k < 256 := hl k List.mem_cons_self
    have hb := b.isLt
    simp only [List.map_cons, edGet, List.cons.injEq, and_true, ih fun j hj => hl j (List.mem_cons_of_mem _ hj),
      List.mem_cons]
    by_cases h : BitVec.ofNat 8 k = b
    · have : b.toNat = k := by rw [← h]; simp; omega
      simp [h, this]
      rw [← this]
      simp
    · have : b.toNat ≠ k := fun e => h (by rw [← e]; simp)
      simp [h, this]

theorem edGet_literals_other (l : List Nat) {key : Symbols} (h : key.length ≠ 1) :
    edGet (l.map fun k => ([BitVec.ofNat 8 k], BitVec.ofNat 32 k)) key = none := by
  induction l with
  | nil => rfl
  | cons k t ih =>
    have : ¬ [BitVec.ofNat 8 k] = key := fun e => h (by simp [← e])
    simp [edGet, this, ih]

/-- The seeded encode table (42_dictionary.md R130). -/
theorem edGet_seed (b : Byte) : edGet seedED [b] = some (b.setWidth 32) := by
  have hb := b.isLt
  rw [seedED, edGet_literals _ (by simp) b]
  simp [hb]

theorem edGet_seed_other {key : Symbols} (h : key.length ≠ 1) : edGet seedED key = none :=
  edGet_literals_other _ h

theorem assocGet_map_range (f : Nat → α) (n k : Nat) :
    assocGet ((List.range n).map fun j => (j, f j)) k = if k < n then some (f k) else none := by
  have key : ∀ (l : List Nat), assocGet (l.map fun j => (j, f j)) k = if k ∈ l then some (f k) else none := by
    intro l
    induction l with
    | nil => simp [assocGet]
    | cons j t ih =>
      by_cases h : j = k
      · simp [assocGet, h]
      · simp [assocGet, h, Ne.symm h, ih]
  simpa using key (List.range n)

/-- The seeded decode table (42_dictionary.md R130). -/
theorem ddGet_seed (k : Nat) : ddGet seedDD k = if k < 256 then some [BitVec.ofNat 8 k] else none :=
  assocGet_map_range _ 256 k

theorem seedDD_wf : AssocWf seedDD := by
  simp only [AssocWf, seedDD, List.map_map]
  have : (Prod.fst ∘ fun k : Nat => (k, [BitVec.ofNat 8 k])) = id := rfl
  rw [this, List.map_id]
  exact List.pairwise_lt_range

end Sys2Proof.Machine
end

