-- ==== Sys2Proof/Laws/State.lean ====
section
/-! SUPPORT. Laws/State.lean: for each shared update of State, the fields it leaves alone and the values it gives the
others, as simp rules. -/

namespace Sys2Proof.Machine

/-- What an abort leaves alone (60_exceptions.md R210). -/
@[simp] theorem abort_keeps (e : ErrKind) (s : State) :
    (abort e s).params = s.params ∧ (abort e s).config = s.config ∧ (abort e s).streamCfg = s.streamCfg ∧
    (abort e s).statMaxw = s.statMaxw ∧ (abort e s).statFinalw = s.statFinalw ∧ (abort e s).inLen = s.inLen ∧
    (abort e s).inBuf = s.inBuf ∧ (abort e s).sampledConfig = s.sampledConfig ∧
    (abort e s).sampledInLen = s.sampledInLen ∧ (abort e s).blockMode = s.blockMode ∧
    (abort e s).maxBits = s.maxBits ∧ (abort e s).codeWidth = s.codeWidth ∧ (abort e s).nextCode = s.nextCode ∧
    (abort e s).dd = s.dd ∧ (abort e s).ed = s.ed ∧ (abort e s).w = s.w ∧ (abort e s).inIdx = s.inIdx ∧
    (abort e s).acc = s.acc ∧ (abort e s).nbits = s.nbits ∧ (abort e s).byteIndex = s.byteIndex ∧
    (abort e s).bitOffset = s.bitOffset ∧ (abort e s).dw = s.dw ∧ (abort e s).maxw = s.maxw ∧
    (abort e s).inputs = s.inputs ∧ (abort e s).readData = s.readData ∧ (abort e s).operands = s.operands ∧
    (abort e s).result = s.result ∧ (abort e s).inDraw = s.inDraw ∧ (abort e s).raced = s.raced := by and_intros <;> rfl

/-- What acceptance leaves alone (45_control.md R190). -/
@[simp] theorem accept_keeps (d : Side) (s : State) :
    (accept d s).params = s.params ∧ (accept d s).config = s.config ∧ (accept d s).streamCfg = s.streamCfg ∧
    (accept d s).inLen = s.inLen ∧ (accept d s).outLen = s.outLen ∧ (accept d s).inBuf = s.inBuf ∧
    (accept d s).outBuf = s.outBuf ∧ (accept d s).blockMode = s.blockMode ∧ (accept d s).maxBits = s.maxBits ∧
    (accept d s).codeWidth = s.codeWidth ∧ (accept d s).nextCode = s.nextCode ∧ (accept d s).dd = s.dd ∧
    (accept d s).ed = s.ed ∧ (accept d s).w = s.w ∧ (accept d s).inIdx = s.inIdx ∧ (accept d s).acc = s.acc ∧
    (accept d s).nbits = s.nbits ∧ (accept d s).byteIndex = s.byteIndex ∧ (accept d s).bitOffset = s.bitOffset ∧
    (accept d s).dw = s.dw ∧ (accept d s).maxw = s.maxw ∧ (accept d s).inputs = s.inputs ∧
    (accept d s).readData = s.readData ∧ (accept d s).operands = s.operands ∧ (accept d s).result = s.result ∧
    (accept d s).draws = s.draws ∧ (accept d s).inDraw = s.inDraw ∧ (accept d s).outDraw = s.outDraw := by and_intros <;> rfl

/-- What a rejection leaves alone (45_control.md R192). -/
@[simp] theorem reject_keeps (s : State) :
    (reject s).params = s.params ∧ (reject s).config = s.config ∧ (reject s).streamCfg = s.streamCfg ∧
    (reject s).statMaxw = s.statMaxw ∧ (reject s).statFinalw = s.statFinalw ∧ (reject s).inLen = s.inLen ∧
    (reject s).outLen = s.outLen ∧ (reject s).inBuf = s.inBuf ∧ (reject s).outBuf = s.outBuf ∧
    (reject s).sampledConfig = s.sampledConfig ∧ (reject s).sampledInLen = s.sampledInLen ∧
    (reject s).starting = s.starting ∧ (reject s).blockMode = s.blockMode ∧ (reject s).maxBits = s.maxBits ∧
    (reject s).codeWidth = s.codeWidth ∧ (reject s).nextCode = s.nextCode ∧ (reject s).dd = s.dd ∧
    (reject s).ed = s.ed ∧ (reject s).w = s.w ∧ (reject s).inIdx = s.inIdx ∧ (reject s).acc = s.acc ∧
    (reject s).nbits = s.nbits ∧ (reject s).byteIndex = s.byteIndex ∧ (reject s).bitOffset = s.bitOffset ∧
    (reject s).dw = s.dw ∧ (reject s).maxw = s.maxw ∧ (reject s).inputs = s.inputs ∧
    (reject s).readData = s.readData ∧ (reject s).operands = s.operands ∧ (reject s).result = s.result ∧
    (reject s).draws = s.draws ∧ (reject s).inDraw = s.inDraw ∧ (reject s).outDraw = s.outDraw ∧
    (reject s).raced = s.raced := by and_intros <;> rfl

/-- What a completion leaves alone (43_encoder.md R156, 44_decoder.md R176). -/
@[simp] theorem complete_keeps (d : Side) (s : State) :
    (complete d s).params = s.params ∧ (complete d s).config = s.config ∧ (complete d s).streamCfg = s.streamCfg ∧
    (complete d s).inLen = s.inLen ∧ (complete d s).outLen = s.outLen ∧ (complete d s).inBuf = s.inBuf ∧
    (complete d s).outBuf = s.outBuf ∧ (complete d s).sampledConfig = s.sampledConfig ∧
    (complete d s).sampledInLen = s.sampledInLen ∧ (complete d s).starting = s.starting ∧
    (complete d s).blockMode = s.blockMode ∧ (complete d s).maxBits = s.maxBits ∧
    (complete d s).codeWidth = s.codeWidth ∧ (complete d s).nextCode = s.nextCode ∧ (complete d s).dd = s.dd ∧
    (complete d s).ed = s.ed ∧ (complete d s).w = s.w ∧ (complete d s).inIdx = s.inIdx ∧
    (complete d s).acc = s.acc ∧ (complete d s).nbits = s.nbits ∧ (complete d s).byteIndex = s.byteIndex ∧
    (complete d s).bitOffset = s.bitOffset ∧ (complete d s).dw = s.dw ∧ (complete d s).maxw = s.maxw ∧
    (complete d s).inputs = s.inputs ∧ (complete d s).readData = s.readData ∧
    (complete d s).operands = s.operands ∧ (complete d s).result = s.result ∧ (complete d s).draws = s.draws ∧
    (complete d s).inDraw = s.inDraw ∧ (complete d s).outDraw = s.outDraw ∧ (complete d s).raced = s.raced := by and_intros <;> rfl

/-- What `OUT_LEN <- 0` leaves alone. -/
@[simp] theorem clearOut_keeps (s : State) :
    (clearOut s).params = s.params ∧ (clearOut s).config = s.config ∧ (clearOut s).status = s.status ∧
    (clearOut s).errcode = s.errcode ∧ (clearOut s).streamCfg = s.streamCfg ∧ (clearOut s).statMaxw = s.statMaxw ∧
    (clearOut s).statFinalw = s.statFinalw ∧ (clearOut s).inLen = s.inLen ∧ (clearOut s).phase = s.phase ∧
    (clearOut s).inBuf = s.inBuf ∧ (clearOut s).sampledConfig = s.sampledConfig ∧
    (clearOut s).sampledInLen = s.sampledInLen ∧ (clearOut s).starting = s.starting ∧
    (clearOut s).blockMode = s.blockMode ∧ (clearOut s).maxBits = s.maxBits ∧
    (clearOut s).codeWidth = s.codeWidth ∧ (clearOut s).nextCode = s.nextCode ∧ (clearOut s).dd = s.dd ∧
    (clearOut s).ed = s.ed ∧ (clearOut s).w = s.w ∧ (clearOut s).inIdx = s.inIdx ∧ (clearOut s).acc = s.acc ∧
    (clearOut s).nbits = s.nbits ∧ (clearOut s).byteIndex = s.byteIndex ∧ (clearOut s).bitOffset = s.bitOffset ∧
    (clearOut s).dw = s.dw ∧ (clearOut s).maxw = s.maxw ∧ (clearOut s).inputs = s.inputs ∧
    (clearOut s).readData = s.readData ∧ (clearOut s).operands = s.operands ∧ (clearOut s).result = s.result ∧
    (clearOut s).inDraw = s.inDraw ∧ (clearOut s).raced = s.raced := by and_intros <;> rfl

/-- What an append to OUT_BUF leaves alone (20_memory.md R57). -/
@[simp] theorem appendOut_keeps (b : Byte) (s : State) :
    (appendOut b s).params = s.params ∧ (appendOut b s).config = s.config ∧ (appendOut b s).status = s.status ∧
    (appendOut b s).errcode = s.errcode ∧ (appendOut b s).streamCfg = s.streamCfg ∧
    (appendOut b s).statMaxw = s.statMaxw ∧ (appendOut b s).statFinalw = s.statFinalw ∧
    (appendOut b s).inLen = s.inLen ∧ (appendOut b s).phase = s.phase ∧ (appendOut b s).inBuf = s.inBuf ∧
    (appendOut b s).sampledConfig = s.sampledConfig ∧ (appendOut b s).sampledInLen = s.sampledInLen ∧
    (appendOut b s).starting = s.starting ∧ (appendOut b s).blockMode = s.blockMode ∧
    (appendOut b s).maxBits = s.maxBits ∧ (appendOut b s).codeWidth = s.codeWidth ∧
    (appendOut b s).nextCode = s.nextCode ∧ (appendOut b s).dd = s.dd ∧ (appendOut b s).ed = s.ed ∧
    (appendOut b s).w = s.w ∧ (appendOut b s).inIdx = s.inIdx ∧ (appendOut b s).acc = s.acc ∧
    (appendOut b s).nbits = s.nbits ∧ (appendOut b s).byteIndex = s.byteIndex ∧
    (appendOut b s).bitOffset = s.bitOffset ∧ (appendOut b s).dw = s.dw ∧ (appendOut b s).maxw = s.maxw ∧
    (appendOut b s).inputs = s.inputs ∧ (appendOut b s).readData = s.readData ∧
    (appendOut b s).operands = s.operands ∧ (appendOut b s).result = s.result ∧ (appendOut b s).inDraw = s.inDraw ∧
    (appendOut b s).outDraw = s.outDraw ∧ (appendOut b s).raced = s.raced := by
  unfold appendOut
  simp only []
  split <;> (and_intros <;> rfl)

/-- What the width statistic leaves alone (10_state.md R35). -/
@[simp] theorem noteWidth_keeps (s : State) :
    (noteWidth s).params = s.params ∧ (noteWidth s).config = s.config ∧ (noteWidth s).status = s.status ∧
    (noteWidth s).errcode = s.errcode ∧ (noteWidth s).streamCfg = s.streamCfg ∧
    (noteWidth s).statMaxw = s.statMaxw ∧ (noteWidth s).statFinalw = s.statFinalw ∧ (noteWidth s).inLen = s.inLen ∧
    (noteWidth s).outLen = s.outLen ∧ (noteWidth s).phase = s.phase ∧ (noteWidth s).inBuf = s.inBuf ∧
    (noteWidth s).outBuf = s.outBuf ∧ (noteWidth s).sampledConfig = s.sampledConfig ∧
    (noteWidth s).sampledInLen = s.sampledInLen ∧ (noteWidth s).starting = s.starting ∧
    (noteWidth s).blockMode = s.blockMode ∧ (noteWidth s).maxBits = s.maxBits ∧
    (noteWidth s).codeWidth = s.codeWidth ∧ (noteWidth s).nextCode = s.nextCode ∧ (noteWidth s).dd = s.dd ∧
    (noteWidth s).ed = s.ed ∧ (noteWidth s).w = s.w ∧ (noteWidth s).inIdx = s.inIdx ∧ (noteWidth s).acc = s.acc ∧
    (noteWidth s).nbits = s.nbits ∧ (noteWidth s).byteIndex = s.byteIndex ∧ (noteWidth s).bitOffset = s.bitOffset ∧
    (noteWidth s).dw = s.dw ∧ (noteWidth s).inputs = s.inputs ∧ (noteWidth s).readData = s.readData ∧
    (noteWidth s).operands = s.operands ∧ (noteWidth s).result = s.result ∧ (noteWidth s).draws = s.draws ∧
    (noteWidth s).inDraw = s.inDraw ∧ (noteWidth s).outDraw = s.outDraw ∧ (noteWidth s).raced = s.raced := by and_intros <;> rfl

/-- What a cursor write leaves alone (41_bitstream.md R114). -/
@[simp] theorem setCursor_keeps (k r : Nat) (s : State) :
    (setCursor k r s).params = s.params ∧ (setCursor k r s).config = s.config ∧
    (setCursor k r s).status = s.status ∧ (setCursor k r s).errcode = s.errcode ∧
    (setCursor k r s).streamCfg = s.streamCfg ∧ (setCursor k r s).statMaxw = s.statMaxw ∧
    (setCursor k r s).statFinalw = s.statFinalw ∧ (setCursor k r s).inLen = s.inLen ∧
    (setCursor k r s).outLen = s.outLen ∧ (setCursor k r s).phase = s.phase ∧ (setCursor k r s).inBuf = s.inBuf ∧
    (setCursor k r s).outBuf = s.outBuf ∧ (setCursor k r s).sampledConfig = s.sampledConfig ∧
    (setCursor k r s).sampledInLen = s.sampledInLen ∧ (setCursor k r s).starting = s.starting ∧
    (setCursor k r s).blockMode = s.blockMode ∧ (setCursor k r s).maxBits = s.maxBits ∧
    (setCursor k r s).codeWidth = s.codeWidth ∧ (setCursor k r s).nextCode = s.nextCode ∧
    (setCursor k r s).dd = s.dd ∧ (setCursor k r s).ed = s.ed ∧ (setCursor k r s).w = s.w ∧
    (setCursor k r s).inIdx = s.inIdx ∧ (setCursor k r s).acc = s.acc ∧ (setCursor k r s).nbits = s.nbits ∧
    (setCursor k r s).dw = s.dw ∧ (setCursor k r s).maxw = s.maxw ∧ (setCursor k r s).inputs = s.inputs ∧
    (setCursor k r s).readData = s.readData ∧ (setCursor k r s).operands = s.operands ∧
    (setCursor k r s).result = s.result ∧ (setCursor k r s).draws = s.draws ∧ (setCursor k r s).inDraw = s.inDraw ∧
    (setCursor k r s).outDraw = s.outDraw ∧ (setCursor k r s).raced = s.raced := by
  unfold setCursor
  split <;> (and_intros <;> rfl)

/-- What DICT_RESET leaves alone (42_dictionary.md R130). -/
@[simp] theorem dictReset_keeps (m : Bool) (side : Side) (s : State) :
    (dictReset m side s).params = s.params ∧ (dictReset m side s).config = s.config ∧
    (dictReset m side s).status = s.status ∧ (dictReset m side s).errcode = s.errcode ∧
    (dictReset m side s).streamCfg = s.streamCfg ∧ (dictReset m side s).statMaxw = s.statMaxw ∧
    (dictReset m side s).statFinalw = s.statFinalw ∧ (dictReset m side s).inLen = s.inLen ∧
    (dictReset m side s).outLen = s.outLen ∧ (dictReset m side s).phase = s.phase ∧
    (dictReset m side s).inBuf = s.inBuf ∧ (dictReset m side s).outBuf = s.outBuf ∧
    (dictReset m side s).sampledConfig = s.sampledConfig ∧ (dictReset m side s).sampledInLen = s.sampledInLen ∧
    (dictReset m side s).starting = s.starting ∧ (dictReset m side s).maxBits = s.maxBits ∧
    (dictReset m side s).w = s.w ∧ (dictReset m side s).inIdx = s.inIdx ∧ (dictReset m side s).acc = s.acc ∧
    (dictReset m side s).nbits = s.nbits ∧ (dictReset m side s).byteIndex = s.byteIndex ∧
    (dictReset m side s).bitOffset = s.bitOffset ∧ (dictReset m side s).dw = s.dw ∧
    (dictReset m side s).maxw = s.maxw ∧ (dictReset m side s).inputs = s.inputs ∧
    (dictReset m side s).readData = s.readData ∧ (dictReset m side s).operands = s.operands ∧
    (dictReset m side s).result = s.result ∧ (dictReset m side s).draws = s.draws ∧
    (dictReset m side s).inDraw = s.inDraw ∧ (dictReset m side s).outDraw = s.outDraw ∧
    (dictReset m side s).raced = s.raced := by
  cases side <;> (and_intros <;> rfl)

/-- What DICT_INSERT_IF_ROOM leaves alone (42_dictionary.md R133). -/
@[simp] theorem insertIfRoom_keeps (side : Side) (key : Symbols) (s : State) :
    (insertIfRoom side key s).params = s.params ∧ (insertIfRoom side key s).config = s.config ∧
    (insertIfRoom side key s).status = s.status ∧ (insertIfRoom side key s).errcode = s.errcode ∧
    (insertIfRoom side key s).streamCfg = s.streamCfg ∧ (insertIfRoom side key s).statMaxw = s.statMaxw ∧
    (insertIfRoom side key s).statFinalw = s.statFinalw ∧ (insertIfRoom side key s).inLen = s.inLen ∧
    (insertIfRoom side key s).outLen = s.outLen ∧ (insertIfRoom side key s).phase = s.phase ∧
    (insertIfRoom side key s).inBuf = s.inBuf ∧ (insertIfRoom side key s).outBuf = s.outBuf ∧
    (insertIfRoom side key s).sampledConfig = s.sampledConfig ∧
    (insertIfRoom side key s).sampledInLen = s.sampledInLen ∧ (insertIfRoom side key s).starting = s.starting ∧
    (insertIfRoom side key s).blockMode = s.blockMode ∧ (insertIfRoom side key s).maxBits = s.maxBits ∧
    (insertIfRoom side key s).codeWidth = s.codeWidth ∧ (insertIfRoom side key s).w = s.w ∧
    (insertIfRoom side key s).inIdx = s.inIdx ∧ (insertIfRoom side key s).acc = s.acc ∧
    (insertIfRoom side key s).nbits = s.nbits ∧ (insertIfRoom side key s).byteIndex = s.byteIndex ∧
    (insertIfRoom side key s).bitOffset = s.bitOffset ∧ (insertIfRoom side key s).dw = s.dw ∧
    (insertIfRoom side key s).maxw = s.maxw ∧ (insertIfRoom side key s).inputs = s.inputs ∧
    (insertIfRoom side key s).readData = s.readData ∧ (insertIfRoom side key s).operands = s.operands ∧
    (insertIfRoom side key s).result = s.result ∧ (insertIfRoom side key s).draws = s.draws ∧
    (insertIfRoom side key s).inDraw = s.inDraw ∧ (insertIfRoom side key s).outDraw = s.outDraw ∧
    (insertIfRoom side key s).raced = s.raced := by
  unfold insertIfRoom
  split
  · cases side <;> (and_intros <;> rfl)
  · (and_intros <;> rfl)

/-- What DICT_MAYBE_GROW leaves alone (42_dictionary.md R134). -/
@[simp] theorem maybeGrow_keeps (s : State) :
    (maybeGrow s).params = s.params ∧ (maybeGrow s).config = s.config ∧ (maybeGrow s).status = s.status ∧
    (maybeGrow s).errcode = s.errcode ∧ (maybeGrow s).streamCfg = s.streamCfg ∧
    (maybeGrow s).statMaxw = s.statMaxw ∧ (maybeGrow s).statFinalw = s.statFinalw ∧ (maybeGrow s).inLen = s.inLen ∧
    (maybeGrow s).outLen = s.outLen ∧ (maybeGrow s).phase = s.phase ∧ (maybeGrow s).inBuf = s.inBuf ∧
    (maybeGrow s).outBuf = s.outBuf ∧ (maybeGrow s).sampledConfig = s.sampledConfig ∧
    (maybeGrow s).sampledInLen = s.sampledInLen ∧ (maybeGrow s).starting = s.starting ∧
    (maybeGrow s).blockMode = s.blockMode ∧ (maybeGrow s).maxBits = s.maxBits ∧
    (maybeGrow s).nextCode = s.nextCode ∧ (maybeGrow s).dd = s.dd ∧ (maybeGrow s).ed = s.ed ∧
    (maybeGrow s).w = s.w ∧ (maybeGrow s).inIdx = s.inIdx ∧ (maybeGrow s).acc = s.acc ∧
    (maybeGrow s).nbits = s.nbits ∧ (maybeGrow s).byteIndex = s.byteIndex ∧ (maybeGrow s).bitOffset = s.bitOffset ∧
    (maybeGrow s).dw = s.dw ∧ (maybeGrow s).maxw = s.maxw ∧ (maybeGrow s).inputs = s.inputs ∧
    (maybeGrow s).readData = s.readData ∧ (maybeGrow s).operands = s.operands ∧ (maybeGrow s).result = s.result ∧
    (maybeGrow s).draws = s.draws ∧ (maybeGrow s).inDraw = s.inDraw ∧ (maybeGrow s).outDraw = s.outDraw ∧
    (maybeGrow s).raced = s.raced := by
  unfold maybeGrow
  split <;> (and_intros <;> rfl)

/-- What a host register write leaves alone (10_state.md R20). -/
@[simp] theorem writeReg_keeps (idx : Nat) (v : Word32) (s : State) :
    (writeReg idx v s).params = s.params ∧ (writeReg idx v s).status = s.status ∧
    (writeReg idx v s).errcode = s.errcode ∧ (writeReg idx v s).streamCfg = s.streamCfg ∧
    (writeReg idx v s).statMaxw = s.statMaxw ∧ (writeReg idx v s).statFinalw = s.statFinalw ∧
    (writeReg idx v s).outLen = s.outLen ∧ (writeReg idx v s).phase = s.phase ∧
    (writeReg idx v s).inBuf = s.inBuf ∧ (writeReg idx v s).outBuf = s.outBuf ∧
    (writeReg idx v s).sampledConfig = s.sampledConfig ∧ (writeReg idx v s).sampledInLen = s.sampledInLen ∧
    (writeReg idx v s).starting = s.starting ∧ (writeReg idx v s).blockMode = s.blockMode ∧
    (writeReg idx v s).maxBits = s.maxBits ∧ (writeReg idx v s).codeWidth = s.codeWidth ∧
    (writeReg idx v s).nextCode = s.nextCode ∧ (writeReg idx v s).dd = s.dd ∧ (writeReg idx v s).ed = s.ed ∧
    (writeReg idx v s).w = s.w ∧ (writeReg idx v s).inIdx = s.inIdx ∧ (writeReg idx v s).acc = s.acc ∧
    (writeReg idx v s).nbits = s.nbits ∧ (writeReg idx v s).byteIndex = s.byteIndex ∧
    (writeReg idx v s).bitOffset = s.bitOffset ∧ (writeReg idx v s).dw = s.dw ∧ (writeReg idx v s).maxw = s.maxw ∧
    (writeReg idx v s).inputs = s.inputs ∧ (writeReg idx v s).readData = s.readData ∧
    (writeReg idx v s).operands = s.operands ∧ (writeReg idx v s).result = s.result ∧
    (writeReg idx v s).draws = s.draws ∧ (writeReg idx v s).inDraw = s.inDraw ∧
    (writeReg idx v s).outDraw = s.outDraw ∧ (writeReg idx v s).raced = s.raced := by
  unfold writeReg
  split
  · (and_intros <;> rfl)
  · split <;> (and_intros <;> rfl)

/-- What a host register read leaves alone. -/
@[simp] theorem readReg_keeps (idx : Nat) (s : State) :
    (readReg idx s).params = s.params ∧ (readReg idx s).config = s.config ∧ (readReg idx s).status = s.status ∧
    (readReg idx s).errcode = s.errcode ∧ (readReg idx s).streamCfg = s.streamCfg ∧
    (readReg idx s).statMaxw = s.statMaxw ∧ (readReg idx s).statFinalw = s.statFinalw ∧
    (readReg idx s).inLen = s.inLen ∧ (readReg idx s).outLen = s.outLen ∧ (readReg idx s).phase = s.phase ∧
    (readReg idx s).inBuf = s.inBuf ∧ (readReg idx s).outBuf = s.outBuf ∧
    (readReg idx s).sampledConfig = s.sampledConfig ∧ (readReg idx s).sampledInLen = s.sampledInLen ∧
    (readReg idx s).starting = s.starting ∧ (readReg idx s).blockMode = s.blockMode ∧
    (readReg idx s).maxBits = s.maxBits ∧ (readReg idx s).codeWidth = s.codeWidth ∧
    (readReg idx s).nextCode = s.nextCode ∧ (readReg idx s).dd = s.dd ∧ (readReg idx s).ed = s.ed ∧
    (readReg idx s).w = s.w ∧ (readReg idx s).inIdx = s.inIdx ∧ (readReg idx s).acc = s.acc ∧
    (readReg idx s).nbits = s.nbits ∧ (readReg idx s).byteIndex = s.byteIndex ∧
    (readReg idx s).bitOffset = s.bitOffset ∧ (readReg idx s).dw = s.dw ∧ (readReg idx s).maxw = s.maxw ∧
    (readReg idx s).inputs = s.inputs ∧ (readReg idx s).operands = s.operands ∧ (readReg idx s).result = s.result ∧
    (readReg idx s).inDraw = s.inDraw ∧ (readReg idx s).outDraw = s.outDraw ∧ (readReg idx s).raced = s.raced := by
  unfold readReg
  split <;> (and_intros <;> rfl)

/-- What a host read of OUT_BUF leaves alone (20_memory.md R57). -/
@[simp] theorem readOut_keeps (i : Word32) (s : State) :
    (readOut i s).params = s.params ∧ (readOut i s).config = s.config ∧ (readOut i s).status = s.status ∧
    (readOut i s).errcode = s.errcode ∧ (readOut i s).streamCfg = s.streamCfg ∧
    (readOut i s).statMaxw = s.statMaxw ∧ (readOut i s).statFinalw = s.statFinalw ∧ (readOut i s).inLen = s.inLen ∧
    (readOut i s).outLen = s.outLen ∧ (readOut i s).phase = s.phase ∧ (readOut i s).inBuf = s.inBuf ∧
    (readOut i s).outBuf = s.outBuf ∧ (readOut i s).sampledConfig = s.sampledConfig ∧
    (readOut i s).sampledInLen = s.sampledInLen ∧ (readOut i s).starting = s.starting ∧
    (readOut i s).blockMode = s.blockMode ∧ (readOut i s).maxBits = s.maxBits ∧
    (readOut i s).codeWidth = s.codeWidth ∧ (readOut i s).nextCode = s.nextCode ∧ (readOut i s).dd = s.dd ∧
    (readOut i s).ed = s.ed ∧ (readOut i s).w = s.w ∧ (readOut i s).inIdx = s.inIdx ∧ (readOut i s).acc = s.acc ∧
    (readOut i s).nbits = s.nbits ∧ (readOut i s).byteIndex = s.byteIndex ∧ (readOut i s).bitOffset = s.bitOffset ∧
    (readOut i s).dw = s.dw ∧ (readOut i s).maxw = s.maxw ∧ (readOut i s).inputs = s.inputs ∧
    (readOut i s).operands = s.operands ∧ (readOut i s).result = s.result ∧ (readOut i s).inDraw = s.inDraw ∧
    (readOut i s).outDraw = s.outDraw ∧ (readOut i s).raced = s.raced := by
  unfold readOut
  split
  · (and_intros <;> rfl)
  · split <;> (and_intros <;> rfl)

/-- What a host write of IN_BUF leaves alone. -/
@[simp] theorem writeIn_keeps (i : Word32) (b : Byte) (s : State) :
    (writeIn i b s).params = s.params ∧ (writeIn i b s).config = s.config ∧ (writeIn i b s).status = s.status ∧
    (writeIn i b s).errcode = s.errcode ∧ (writeIn i b s).streamCfg = s.streamCfg ∧
    (writeIn i b s).statMaxw = s.statMaxw ∧ (writeIn i b s).statFinalw = s.statFinalw ∧
    (writeIn i b s).inLen = s.inLen ∧ (writeIn i b s).outLen = s.outLen ∧ (writeIn i b s).phase = s.phase ∧
    (writeIn i b s).outBuf = s.outBuf ∧ (writeIn i b s).sampledConfig = s.sampledConfig ∧
    (writeIn i b s).sampledInLen = s.sampledInLen ∧ (writeIn i b s).starting = s.starting ∧
    (writeIn i b s).blockMode = s.blockMode ∧ (writeIn i b s).maxBits = s.maxBits ∧
    (writeIn i b s).codeWidth = s.codeWidth ∧ (writeIn i b s).nextCode = s.nextCode ∧ (writeIn i b s).dd = s.dd ∧
    (writeIn i b s).ed = s.ed ∧ (writeIn i b s).w = s.w ∧ (writeIn i b s).inIdx = s.inIdx ∧
    (writeIn i b s).acc = s.acc ∧ (writeIn i b s).nbits = s.nbits ∧ (writeIn i b s).byteIndex = s.byteIndex ∧
    (writeIn i b s).bitOffset = s.bitOffset ∧ (writeIn i b s).dw = s.dw ∧ (writeIn i b s).maxw = s.maxw ∧
    (writeIn i b s).inputs = s.inputs ∧ (writeIn i b s).readData = s.readData ∧
    (writeIn i b s).operands = s.operands ∧ (writeIn i b s).result = s.result ∧ (writeIn i b s).inDraw = s.inDraw ∧
    (writeIn i b s).outDraw = s.outDraw := by
  unfold writeIn
  simp only []
  split <;> (and_intros <;> rfl)

/-- What an abort sets (60_exceptions.md R210). -/
@[simp] theorem abort_sets (e : ErrKind) (s : State) :
    (abort e s).status = { busy := false, done := false, err := true, dir := s.status.dir } ∧
    (abort e s).errcode = some e ∧ (abort e s).phase = .error ∧ (abort e s).starting = false ∧
    (abort e s).outBuf = [] := ⟨rfl, rfl, rfl, rfl, rfl⟩

/-- What acceptance sets (45_control.md R190). -/
@[simp] theorem accept_sets (d : Side) (s : State) :
    (accept d s).status = { busy := true, done := false, err := false, dir := d } ∧
    (accept d s).errcode = none ∧ (accept d s).statMaxw = 0 ∧ (accept d s).statFinalw = 0 ∧
    (accept d s).sampledConfig = s.config ∧ (accept d s).sampledInLen = s.inLen ∧ (accept d s).raced = [] ∧
    (accept d s).starting = true := ⟨rfl, rfl, rfl, rfl, rfl, rfl, rfl, rfl⟩

@[simp] theorem accept_encode_phase (s : State) : (accept .encode s).phase = .encEmpty := rfl

@[simp] theorem accept_decode_phase (s : State) : (accept .decode s).phase = .decAwaitHeader := rfl

/-- What a rejection sets (45_control.md R192). -/
@[simp] theorem reject_sets (s : State) :
    (reject s).status = { busy := false, done := false, err := true, dir := s.status.dir } ∧
    (reject s).errcode = some .invalidArgument ∧ (reject s).phase = .error := ⟨rfl, rfl, rfl⟩

/-- What a completion sets (43_encoder.md R156, 44_decoder.md R176). -/
@[simp] theorem complete_sets (d : Side) (s : State) :
    (complete d s).status = { busy := false, done := true, err := false, dir := d } ∧
    (complete d s).errcode = none ∧ (complete d s).statMaxw = s.maxw.setWidth 8 ∧
    (complete d s).statFinalw = s.codeWidth.setWidth 8 := ⟨rfl, rfl, rfl, rfl⟩

@[simp] theorem complete_encode_phase (s : State) : (complete .encode s).phase = .encFlushed := rfl

@[simp] theorem complete_decode_phase (s : State) : (complete .decode s).phase = .decDone := rfl

/-- What `OUT_LEN <- 0` sets. -/
@[simp] theorem clearOut_sets (s : State) : (clearOut s).outLen = 0 ∧ (clearOut s).outBuf = [] := ⟨rfl, rfl⟩

/-- What DICT_RESET sets (42_dictionary.md R130). -/
@[simp] theorem dictReset_sets (m : Bool) (side : Side) (s : State) :
    (dictReset m side s).blockMode = m ∧ (dictReset m side s).codeWidth = 9 ∧
    (dictReset m side s).nextCode = firstAssignable m := by
  cases side <;> exact ⟨rfl, rfl, rfl⟩

@[simp] theorem dictReset_encode_tables (m : Bool) (s : State) :
    (dictReset m .encode s).ed = seedED ∧ (dictReset m .encode s).dd = s.dd := ⟨rfl, rfl⟩

@[simp] theorem dictReset_decode_tables (m : Bool) (s : State) :
    (dictReset m .decode s).dd = seedDD ∧ (dictReset m .decode s).ed = s.ed := ⟨rfl, rfl⟩

@[simp] theorem noteWidth_maxw (s : State) : (noteWidth s).maxw = widerOf s := rfl

@[simp] theorem maybeGrow_codeWidth (s : State) : (maybeGrow s).codeWidth = grownWidth s.nextCode.toNat s := by
  unfold maybeGrow grownWidth dictSizeMax
  split <;> rfl

end Sys2Proof.Machine
end

