-- ==== Sys2Proof/Laws/Ops.lean ====
section
/-! SUPPORT. Laws/Ops.lean: what sequencing, emission and the step that an operation is can do, each said once. -/

namespace Sys2Proof.Machine

variable {α β : Type}

/-! ## Sequencing -/

@[simp] theorem resBind_ok (a : α) (s : State) (f : α → State → Res β) : resBind (.ok a s) f = f a s := rfl

@[simp] theorem resBind_raise (e : ErrKind) (s : State) (f : α → State → Res β) : resBind (.raise e s) f = .raise e s := rfl

@[simp] theorem resBind_undef (f : α → State → Res β) : resBind .undef f = .undef := rfl

theorem resBind_eq_ok {r : Res α} {f : α → State → Res β} {b : β} {u : State} (h : resBind r f = .ok b u) :
    ∃ a t, r = .ok a t ∧ f a t = .ok b u := by
  cases r with
  | ok a t => exact ⟨a, t, rfl, h⟩
  | raise e t => simp at h
  | undef => simp at h

theorem resBind_eq_raise {r : Res α} {f : α → State → Res β} {e : ErrKind} {u : State} (h : resBind r f = .raise e u) :
    r = .raise e u ∨ ∃ a t, r = .ok a t ∧ f a t = .raise e u := by
  cases r with
  | ok a t => exact .inr ⟨a, t, rfl, h⟩
  | raise e' t => exact .inl (by simpa using h)
  | undef => simp at h

/-- A step that answers a next state ran to its end or was aborted. -/
theorem finish_eq_next {r : Res α} {k : α → State → State} {t : State} (h : finish r k = .next t) :
    (∃ a u, r = .ok a u ∧ t = k a u) ∨ ∃ e u, r = .raise e u ∧ t = abort e u := by
  cases r with
  | ok a u => exact .inl ⟨a, u, rfl, by simpa [finish] using h.symm⟩
  | raise e u => exact .inr ⟨e, u, rfl, by simpa [finish] using h.symm⟩
  | undef => simp [finish] at h

@[simp] theorem finish_ok (a : α) (s : State) (k : α → State → State) : finish (.ok a s) k = .next (k a s) := rfl

@[simp] theorem finish_raise (e : ErrKind) (s : State) (k : α → State → State) :
    finish (.raise e s) k = .next (abort e s) := rfl

@[simp] theorem finishUnit_ok (s : State) : finishUnit (.ok () s) = .next s := rfl

@[simp] theorem finishUnit_raise (e : ErrKind) (s : State) : finishUnit (.raise e s) = .next (abort e s) := rfl

/-! ## Emission -/

theorem outFull_eq_false {n : Nat} {s : State} (h : RoomFor (n + 1) s) : outFull s = false := by
  unfold outFull
  split
  · rfl
  · rename_i c hc
    have := h.1 c (by simp [hc])
    simp; omega

/-- An emission appends a byte, or raises OutputOverflow with nothing done. -/
theorem emit_cases (b : Byte) (s : State) :
    (outFull s = true ∧ emit b s = .raise .outputOverflow s) ∨ (outFull s = false ∧ emit b s = .ok () (appendOut b s)) := by
  unfold emit
  cases h : outFull s <;> simp

theorem appendOut_room {n : Nat} {s : State} (b : Byte) (h : RoomFor (n + 1) s) :
    appendOut b s = { s with outBuf := memWrite s.outBuf s.outLen.toNat b, outLen := s.outLen + 1 } := by
  have : s.outLen.toNat + 1 < 2 ^ 32 := by have := h.2; omega
  unfold appendOut
  exact if_pos this

theorem outLen_succ {n : Nat} {s : State} (h : RoomFor (n + 1) s) : (s.outLen + 1).toNat = s.outLen.toNat + 1 := by
  have := h.2
  rw [BitVec.toNat_add]
  simp
  omega

/-- With room, emitting a sequence completes, appends it and changes nothing else (00_scope.md R14). -/
theorem emitAll_room (bs : Symbols) (s : State) (h : RoomFor bs.length s) :
    ∃ t, emitAll bs s = .ok () t ∧ Appended bs s t ∧ t = { s with outBuf := t.outBuf, outLen := t.outLen } := by
  induction bs generalizing s with
  | nil => exact ⟨s, rfl, ⟨rfl, by simp, by simp⟩, rfl⟩
  | cons b rest ih =>
    have h1 : RoomFor (rest.length + 1) s := by simpa using h
    have hs := outLen_succ h1
    obtain ⟨u, hu⟩ : ∃ u, u = appendOut b s := ⟨_, rfl⟩
    have hu' := hu
    rw [appendOut_room b h1] at hu'
    have hulen : u.outLen.toNat = s.outLen.toNat + 1 := by rw [hu']; exact hs
    have h2 : RoomFor rest.length u := by
      refine ⟨fun c hc => ?_, ?_⟩
      · have := h1.1 c (by simpa [hu'] using hc)
        omega
      · have := h1.2
        omega
    obtain ⟨t, ht, ⟨hlen, hin, hout⟩, hframe⟩ := ih u h2
    refine ⟨t, ?_, ⟨?_, ?_, ?_⟩, ?_⟩
    · rcases emit_cases b s with ⟨hf, _⟩ | ⟨_, he⟩
      · simp [outFull_eq_false h1] at hf
      · simp [emitAll, he, ← hu, ht]
    · simp only [List.length_cons]; omega
    · intro j hj
      rcases j with _ | j
      · rw [Nat.add_zero, hout _ (.inl (by omega)), hu']
        simp
      · have := hin j (by simpa using hj)
        rw [hulen] at this
        rw [show s.outLen.toNat + (j + 1) = s.outLen.toNat + 1 + j by omega, this]
        simp
    · intro a ha
      simp only [List.length_cons] at ha
      rw [hout a (by omega), hu']
      exact memRead_write_ne _ _ (by omega)
    · rw [hframe, hu']

/-- Where fewer than `n + 1` bytes are allowed, either none is, or the next one is and fewer than `n` after it. -/
theorem Overflows.step {n : Nat} {s : State} (b : Byte) (h : Overflows (n + 1) s) :
    outFull s = true ∨ (outFull s = false ∧ Overflows n (appendOut b s)) := by
  obtain ⟨-, c, hc, h32, hlt⟩ := h
  have hc' : s.params.outCap = some c := by simpa using hc
  by_cases hf : c ≤ s.outLen.toNat
  · exact .inl (by simp [outFull, hc', hf])
  · have hr : s.outLen.toNat + 1 < 2 ^ 32 := by omega
    have ha : appendOut b s = { s with outBuf := memWrite s.outBuf s.outLen.toNat b, outLen := s.outLen + 1 } := if_pos hr
    have hs : (s.outLen + 1).toNat = s.outLen.toNat + 1 := by
      rw [BitVec.toNat_add]; simp; omega
    refine .inr ⟨by simp [outFull, hc', hf], ?_⟩
    rw [ha]
    exact ⟨by omega, c, hc, h32, by simp only [hs]; omega⟩

/-- A sequence longer than what OUT_CAP allows raises OutputOverflow (60_exceptions.md R206). -/
theorem emitAll_overflows (bs : Symbols) (s : State) (h : Overflows bs.length s) :
    ∃ t, emitAll bs s = .raise .outputOverflow t := by
  induction bs generalizing s with
  | nil => exact absurd h.1 (by simp)
  | cons b rest ih =>
    rcases Overflows.step b h with hf | ⟨hf, hr⟩
    · exact ⟨s, by simp [emitAll, emit, hf]⟩
    · obtain ⟨t, ht⟩ := ih _ hr
      exact ⟨t, by simp [emitAll, emit, hf, ht]⟩

/-- Whatever a sequence's emission does, it changes OUT_BUF, OUT_LEN and the draw counter only. -/
theorem emitAll_frame (bs : Symbols) (s : State) :
    (∃ t, emitAll bs s = .ok () t ∧ t = { s with outBuf := t.outBuf, outLen := t.outLen, draws := t.draws }) ∨
    ∃ t, emitAll bs s = .raise .outputOverflow t ∧
      t = { s with outBuf := t.outBuf, outLen := t.outLen, draws := t.draws } := by
  induction bs generalizing s with
  | nil => exact .inl ⟨s, rfl, rfl⟩
  | cons b rest ih =>
    have ha : appendOut b s = { s with
        outBuf := (appendOut b s).outBuf, outLen := (appendOut b s).outLen, draws := (appendOut b s).draws } := by
      unfold appendOut
      simp only []
      split <;> rfl
    rcases emit_cases b s with ⟨_, he⟩ | ⟨_, he⟩
    · exact .inr ⟨s, by simp [emitAll, he], rfl⟩
    · rcases ih (appendOut b s) with ⟨t, ht, hf⟩ | ⟨t, ht, hf⟩
      · exact .inl ⟨t, by simp [emitAll, he, ht], by rw [hf, ha]⟩
      · exact .inr ⟨t, by simp [emitAll, he, ht], by rw [hf, ha]⟩

/-! ## The dictionary -/

theorem hasRoom_iff (s : State) : hasRoom s = true ↔ s.nextCode.toNat < 2 ^ s.codeWidth.toNat := by
  unfold hasRoom dictSizeMax
  exact decide_eq_true_iff

theorem nextCode_succ {s : State} (h : s.nextCode.toNat < 2 ^ s.codeWidth.toNat) :
    (s.nextCode + 1).toNat = s.nextCode.toNat + 1 := by
  have hw := s.codeWidth.isLt
  have : 2 ^ s.codeWidth.toNat ≤ 2 ^ 31 := Nat.pow_le_pow_right (by decide) (by omega)
  rw [BitVec.toNat_add]
  simp
  omega

/-- An insertion on the encode side (42_dictionary.md R133). -/
theorem insertIfRoom_encode (key : Symbols) (s : State) :
    EncInserted key s.codeWidth s (insertIfRoom .encode key s) ∧ (insertIfRoom .encode key s).dd = s.dd := by
  by_cases h : s.nextCode.toNat < 2 ^ s.codeWidth.toNat
  · have hr := (hasRoom_iff s).2 h
    refine ⟨?_, by simp [insertIfRoom, hr]⟩
    simp only [EncInserted, h, if_true, insertIfRoom, hr]
    exact ⟨edGet_set_same _ _ _, fun k hk => edGet_set_ne _ _ hk, nextCode_succ h⟩
  · have hr : ¬ hasRoom s = true := fun e => h ((hasRoom_iff s).1 e)
    refine ⟨?_, by simp [insertIfRoom, hr]⟩
    simp [EncInserted, h, insertIfRoom, hr]

/-- An insertion on the decode side (42_dictionary.md R133). -/
theorem insertIfRoom_decode (key : Symbols) (s : State) :
    DecInserted key s.codeWidth s (insertIfRoom .decode key s) ∧ (insertIfRoom .decode key s).ed = s.ed := by
  by_cases h : s.nextCode.toNat < 2 ^ s.codeWidth.toNat
  · have hr := (hasRoom_iff s).2 h
    refine ⟨?_, by simp [insertIfRoom, hr]⟩
    simp only [DecInserted, h, if_true, insertIfRoom, hr]
    exact ⟨ddGet_set_same _ _ _, fun k hk => ddGet_set_ne _ _ hk, nextCode_succ h⟩
  · have hr : ¬ hasRoom s = true := fun e => h ((hasRoom_iff s).1 e)
    refine ⟨?_, by simp [insertIfRoom, hr]⟩
    simp [DecInserted, h, insertIfRoom, hr]

end Sys2Proof.Machine
end

