-- ==== Sys2Proof/Laws/Bitstream.lean ====
section
/-! SUPPORT. Laws/Bitstream.lean: what the packer and the unpacker do, each said once over shared operations
(41_bitstream.md). -/

namespace Sys2Proof.Machine

/-! ## Packer -/

theorem Appended.trans {a b : Symbols} {s u t : State} (h1 : Appended a s u) (h2 : Appended b u t) :
    Appended (a ++ b) s t := by
  obtain ⟨l1, i1, o1⟩ := h1
  obtain ⟨l2, i2, o2⟩ := h2
  refine ⟨by simp [l2, l1]; omega, fun j hj => ?_, fun x hx => ?_⟩
  · by_cases hja : j < a.length
    · rw [o2 _ (.inl (by omega)), i1 j hja, List.getElem?_append_left hja]
    · have hb : j - a.length < b.length := by simp at hj; omega
      have := i2 (j - a.length) hb
      rw [l1, show s.outLen.toNat + a.length + (j - a.length) = s.outLen.toNat + j by omega] at this
      rw [this, List.getElem?_append_right (by omega)]
  · simp only [List.length_append] at hx
    rw [o2 x (by omega), o1 x (by omega)]

theorem RoomFor.mono {m n : Nat} {s : State} (h : RoomFor n s) (hm : m ≤ n) : RoomFor m s :=
  ⟨fun c hc => by have := h.1 c hc; omega, by have := h.2; omega⟩

/-- The room left after an append. -/
theorem RoomFor.after {m : Nat} {bs : Symbols} {s t : State} (h : RoomFor (bs.length + m) s) (ha : Appended bs s t)
    (hp : t.params = s.params) : RoomFor m t :=
  ⟨fun c hc => by have := h.1 c (by rwa [hp] at hc); have := ha.1; omega, by have := h.2; have := ha.1; omega⟩

@[simp] theorem digits_length (v n : Nat) : (digits v n).length = n := by simp [digits]

@[simp] theorem digits_zero (v : Nat) : digits v 0 = [] := rfl

theorem digits_succ (v n : Nat) : digits v (n + 1) = BitVec.ofNat 8 v :: digits (v / 256) n := by
  simp only [digits, List.range_succ_eq_map, List.map_cons, List.map_map, pow_zero, Nat.div_one]
  congr 1
  apply List.map_congr_left
  intro j _
  simp [Nat.pow_succ', Nat.div_div_eq_div_mul]

/-- One emission with room, as an append. -/
theorem emit_room (b : Byte) (s : State) (h : RoomFor 1 s) :
    ∃ t, emit b s = .ok () t ∧ Appended [b] s t ∧ t = { s with outBuf := t.outBuf, outLen := t.outLen } := by
  obtain ⟨t, ht, ha, hf⟩ := emitAll_room [b] s h
  refine ⟨t, ?_, ha, hf⟩
  rcases emit_cases b s with ⟨_, he⟩ | ⟨_, he⟩
  · simp [emitAll, he] at ht
  · simpa [emitAll, he] using ht

/-- The peel loop with room (41_bitstream.md R110). -/
theorem peel_room (fuel v n : Nat) (s : State) (hn : n ≤ fuel) (hv : v < 2 ^ n) (hr : RoomFor ((n - 1) / 8) s) :
    ∃ t, peel fuel v n s = .ok () t ∧ Appended (digits v ((n - 1) / 8)) s t ∧
      t.acc.toNat = v / 256 ^ ((n - 1) / 8) ∧ t.nbits.toNat = n - 8 * ((n - 1) / 8) ∧
      t = { s with outBuf := t.outBuf, outLen := t.outLen, acc := t.acc, nbits := t.nbits } := by
  induction fuel generalizing v n s with
  | zero =>
    obtain rfl : n = 0 := by omega
    obtain rfl : v = 0 := by simpa using hv
    exact ⟨{ s with acc := BitVec.ofNat 39 0, nbits := BitVec.ofNat 6 0 }, rfl, ⟨rfl, by simp, by simp⟩, by simp, by simp, rfl⟩
  | succ fuel ih =>
    by_cases h8 : 8 < n
    · obtain ⟨p, hp⟩ : ∃ p, (n - 1) / 8 = p + 1 := ⟨(n - 1) / 8 - 1, by omega⟩
      have hp' : (n - 8 - 1) / 8 = p := by omega
      rw [hp] at hr
      obtain ⟨u, hu, hau, hfu⟩ := emit_room (BitVec.ofNat 8 v) s (hr.mono (by omega))
      have hru : RoomFor ((n - 8 - 1) / 8) u := by
        rw [hp']
        exact RoomFor.after (bs := [BitVec.ofNat 8 v]) (hr.mono (by simp; omega)) hau (by rw [hfu])
      have hv' : v / 256 < 2 ^ (n - 8) := by
        rw [Nat.div_lt_iff_lt_mul (by decide), show 256 = 2 ^ 8 by rfl, ← Nat.pow_add]
        rwa [show n - 8 + 8 = n by omega]
      obtain ⟨t, ht, hat, hacc, hnb, hft⟩ := ih (v / 256) (n - 8) u (by omega) hv' hru
      rw [hp'] at hat hacc hnb
      refine ⟨t, by simp [peel, h8, hu, ht], ?_, ?_, ?_, ?_⟩
      · rw [hp, digits_succ]
        exact hau.trans hat
      · rw [hacc, hp, Nat.div_div_eq_div_mul, ← Nat.pow_succ']
      · rw [hnb, hp]; omega
      · rw [hft, hfu]
    · have hp : (n - 1) / 8 = 0 := by omega
      have hlt : v < 256 := lt_of_lt_of_le hv (Nat.pow_le_pow_right (by decide) (by omega : n ≤ 8))
      refine ⟨{ s with acc := BitVec.ofNat 39 v, nbits := BitVec.ofNat 6 n }, by simp only [peel, if_neg h8], ?_, ?_, ?_, rfl⟩
      · rw [hp]; exact ⟨rfl, by simp, by simp⟩
      · rw [hp]; simp; omega
      · rw [hp]; simp; omega

/-- The peel loop where OUT_CAP allows fewer bytes than it peels (60_exceptions.md R206). -/
theorem peel_overflows (fuel v n : Nat) (s : State) (hn : n ≤ fuel) (h : Overflows ((n - 1) / 8) s) :
    ∃ t, peel fuel v n s = .raise .outputOverflow t ∧
      t = { s with outBuf := t.outBuf, outLen := t.outLen, draws := t.draws } := by
  induction fuel generalizing v n s with
  | zero => have := h.1; omega
  | succ fuel ih =>
    have h8 : 8 < n := by have := h.1; omega
    obtain ⟨p, hp⟩ : ∃ p, (n - 1) / 8 = p + 1 := ⟨(n - 1) / 8 - 1, by omega⟩
    rw [hp] at h
    rcases Overflows.step (BitVec.ofNat 8 v) h with hf | ⟨hf, hr⟩
    · exact ⟨s, by simp [peel, h8, emit, hf], rfl⟩
    · obtain ⟨t, ht, hfr⟩ := ih (v / 256) (n - 8) _ (by omega) (by rwa [show (n - 8 - 1) / 8 = p by omega])
      refine ⟨t, by simp [peel, h8, emit, hf, ht], ?_⟩
      rw [hfr]
      unfold appendOut
      simp only []
      split <;> rfl

/-- BW_PUSH of a code that fits, where OUT_CAP allows fewer bytes than it peels. -/
theorem bwPush_overflows {code width : Nat} {s : State} (hc : ValidCode code width)
    (h : Overflows (peelCount width s) s) :
    ∃ t, bwPush code width s = .raise .outputOverflow t ∧
      t = { s with outBuf := t.outBuf, outLen := t.outLen, draws := t.draws } := by
  obtain ⟨h1, h31, hlt⟩ := hc
  unfold bwPush
  rw [if_neg (by omega)]
  exact peel_overflows _ _ _ s le_rfl h

theorem pendingWith_lt {code width : Nat} {s : State} (hc : code < 2 ^ width) (hp : PackerWf s) :
    pendingWith code s < 2 ^ (s.nbits.toNat + width) := by
  have : (code + 1) * 2 ^ s.nbits.toNat ≤ 2 ^ width * 2 ^ s.nbits.toNat := Nat.mul_le_mul_right _ hc
  have h2 := hp.1
  unfold pendingWith
  rw [Nat.pow_add, Nat.mul_comm (2 ^ s.nbits.toNat)]
  rw [Nat.add_mul, Nat.one_mul] at this
  omega

/-- BW_PUSH of a code that fits, with room (41_bitstream.md R110). -/
theorem bwPush_room {code width : Nat} {s : State} (hc : ValidCode code width) (hp : PackerWf s)
    (hr : RoomFor (peelCount width s) s) :
    ∃ t, bwPush code width s = .ok () t ∧ Packs code width s t ∧ PackerWf t ∧ 1 ≤ t.nbits.toNat ∧
      t = { s with outBuf := t.outBuf, outLen := t.outLen, acc := t.acc, nbits := t.nbits } := by
  obtain ⟨h1, h31, hlt⟩ := hc
  have hv := pendingWith_lt hlt hp
  obtain ⟨t, ht, ha, hacc, hnb, hf⟩ := peel_room (s.nbits.toNat + width) (pendingWith code s) (s.nbits.toNat + width) s
    le_rfl hv hr
  have h2 := hp.2
  refine ⟨t, ?_, ⟨ha, hacc, hnb⟩, ⟨?_, ?_⟩, ?_, hf⟩
  · unfold bwPush
    rw [if_neg (by omega)]
    exact ht
  · rw [hacc, hnb, Nat.div_lt_iff_lt_mul (Nat.pow_pos (by decide)), show 256 = 2 ^ 8 by rfl, ← Nat.pow_mul, ← Nat.pow_add]
    refine lt_of_lt_of_le hv (Nat.pow_le_pow_right (by decide) (by omega))
  · omega
  · omega

/-! ## Unpacker -/

theorem inputValue_lt (s : State) (n : Nat) : inputValue s n < 256 ^ n := by
  induction n with
  | zero => simp [inputValue]
  | succ n ih =>
    have hb := (coreRead s n).isLt
    have : ((coreRead s n).toNat + 1) * 256 ^ n ≤ 256 * 256 ^ n := Nat.mul_le_mul_right _ (by omega)
    rw [Nat.add_mul, Nat.one_mul] at this
    rw [inputValue, Nat.pow_succ']
    omega

/-- The bits below byte `k` do not depend on the bytes from `k` on. -/
theorem inputValue_mod (s : State) {k n : Nat} (h : k ≤ n) : inputValue s n % 256 ^ k = inputValue s k := by
  induction n with
  | zero =>
    obtain rfl : k = 0 := by omega
    simp [inputValue]
  | succ n ih =>
    rcases Nat.lt_or_ge n k with hk | hk
    · obtain rfl : k = n + 1 := by omega
      exact Nat.mod_eq_of_lt (inputValue_lt s (n + 1))
    · rw [inputValue, show 256 ^ n = 256 ^ k * 256 ^ (n - k) by rw [← Nat.pow_add]; congr 1; omega,
        show (coreRead s n).toNat * (256 ^ k * 256 ^ (n - k)) = 256 ^ k * ((coreRead s n).toNat * 256 ^ (n - k)) by ring,
        Nat.add_mul_mod_self_left]
      exact ih hk

theorem pow256 (k : Nat) : 256 ^ k = 2 ^ (8 * k) := by rw [show 256 = 2 ^ 8 by rfl, ← Nat.pow_mul]

theorem inputValue_succ_div (s : State) {k p : Nat} (h : p ≤ 8 * k) :
    inputValue s (k + 1) / 2 ^ p = inputValue s k / 2 ^ p + (coreRead s k).toNat * 2 ^ (8 * k - p) := by
  rw [inputValue, pow256, show 2 ^ (8 * k) = 2 ^ (8 * k - p) * 2 ^ p by rw [← Nat.pow_add]; congr 1; omega,
    ← Nat.mul_assoc, Nat.add_mul_div_right _ _ (Nat.pow_pos (by decide))]

/-- What has been gathered is the input's bits from the cursor up to byte `g.k`. -/
def GatherInv (s : State) (g : Gathered) : Prop :=
  cursorPos s ≤ 8 * g.k ∧ g.n = 8 * g.k - cursorPos s ∧ g.acc = inputValue s g.k / 2 ^ cursorPos s ∧
    g.k ≤ s.sampledInLen.toNat

theorem gatherFirst_inv {s : State} (h : s.byteIndex.toNat < s.sampledInLen.toNat) :
    GatherInv s (gatherFirst s) ∧ 1 ≤ (gatherFirst s).n ∧ (gatherFirst s).n ≤ 8 := by
  have ho := s.bitOffset.isLt
  simp only [gatherFirst, h, if_true, GatherInv, cursorPos]
  refine ⟨⟨by omega, by omega, ?_, by omega⟩, by omega, by omega⟩
  have hlt := inputValue_lt s s.byteIndex.toNat
  rw [inputValue, pow256, Nat.pow_add, ← Nat.div_div_eq_div_mul, Nat.add_mul_div_right _ _ (Nat.pow_pos (by decide)),
    Nat.div_eq_of_lt (a := inputValue s _) (by rwa [← pow256]), Nat.zero_add]

theorem gatherMore_inv {s : State} {width : Nat} (fuel : Nat) (g : Gathered) (h : GatherInv s g) :
    GatherInv s (gatherMore s width fuel g) ∧
    (width ≤ g.n + 8 * fuel →
      width ≤ (gatherMore s width fuel g).n ∨ (gatherMore s width fuel g).k = s.sampledInLen.toNat) ∧
    ((gatherMore s width fuel g).n < width + 8 ∨ (gatherMore s width fuel g).n = g.n) := by
  induction fuel generalizing g with
  | zero => exact ⟨h, fun hw => .inl (by simpa [gatherMore] using hw), .inr rfl⟩
  | succ fuel ih =>
    unfold gatherMore
    split
    · rename_i hc
      obtain ⟨h1, h2, h3, h4⟩ := h
      have hi := ih { acc := g.acc + (coreRead s g.k).toNat * 2 ^ g.n, n := g.n + 8, k := g.k + 1 }
        ⟨by simp; omega, by simp; omega, by simp only []; rw [inputValue_succ_div s h1, h3, h2], by simp; omega⟩
      refine ⟨hi.1, fun hw => hi.2.1 (by simp only []; omega), ?_⟩
      rcases hi.2.2 with h5 | h5
      · exact .inl h5
      · exact .inl (by rw [h5]; simp only []; omega)
    · rename_i hc
      refine ⟨h, fun _ => ?_, .inr rfl⟩
      have := h.2.2.2
      omega

theorem setCursor_advanced {s : State} {k width : Nat} (hk : 8 * k - cursorPos s - width < 8)
    (hle : cursorPos s + width ≤ 8 * k) : setCursor k (8 * k - cursorPos s - width) s = advanced width s := by
  unfold setCursor advanced
  split
  · rw [show (cursorPos s + width) / 8 = k - 1 by omega,
      show 8 - (8 * k - cursorPos s - width) = (cursorPos s + width) % 8 by omega]
  · rw [show (cursorPos s + width) / 8 = k by omega, show (cursorPos s + width) % 8 = 0 by omega]
    rfl

/-- BR_PULL of a legal width (41_bitstream.md R114 to R116). -/
theorem brPull_spec {width : Nat} {s : State} (h1 : 1 ≤ width) (h31 : width ≤ 31) :
    (BitsLeft width s → brPull width s = .ok (some (BitVec.ofNat 31 (codeAt width s))) (advanced width s)) ∧
    (¬ BitsLeft width s → brPull width s = .ok none s) := by
  have hw : ¬ (width = 0 ∨ 31 < width) := by omega
  have ho := s.bitOffset.isLt
  by_cases hlt : s.byteIndex.toNat < s.sampledInLen.toNat
  · obtain ⟨hg, hn1, hn8⟩ := gatherFirst_inv hlt
    obtain ⟨⟨i1, i2, i3, i4⟩, hdone, hbound⟩ := gatherMore_inv (width := width) width (gatherFirst s) hg
    have hd := hdone (by omega)
    obtain ⟨g, hgdef⟩ : ∃ g, g = gatherMore s width width (gatherFirst s) := ⟨_, rfl⟩
    rw [← hgdef] at i1 i2 i3 i4 hd hbound
    refine ⟨fun hb => ?_, fun hb => ?_⟩ <;> unfold BitsLeft at hb
    · have hge : width ≤ g.n := by rcases hd with hd | hd <;> omega
      unfold brPull
      rw [if_neg hw]
      simp only [← hgdef]
      rw [if_neg (by omega), i2, setCursor_advanced (by omega) (by omega), i3]
      congr 3
      unfold codeAt
      have hm := inputValue_mod s i4
      have e : 8 * g.k = cursorPos s + (8 * g.k - cursorPos s) := by omega
      rw [← hm, pow256, e, Nat.pow_add, Nat.mod_mul_right_div_self]
      rw [Nat.mod_mod_of_dvd]
      exact Nat.pow_dvd_pow _ (by omega)
    · unfold brPull
      rw [if_neg hw]
      simp only [← hgdef]
      rw [if_pos (by omega)]
  · have hb : ¬ BitsLeft width s := by unfold BitsLeft cursorPos; omega
    refine ⟨fun h => absurd h hb, fun _ => ?_⟩
    have hg : gatherFirst s = { acc := 0, n := 0, k := s.byteIndex.toNat } := by simp [gatherFirst, hlt]
    have hm : ∀ fuel, gatherMore s width fuel { acc := 0, n := 0, k := s.byteIndex.toNat } =
        { acc := 0, n := 0, k := s.byteIndex.toNat } := by
      intro fuel
      cases fuel with
      | zero => rfl
      | succ f => unfold gatherMore; rw [if_neg (by simp; omega)]
    unfold brPull
    rw [if_neg hw]
    simp only [hg, hm]
    rw [if_pos (by omega)]

end Sys2Proof.Machine
end

