-- ==== Sys2Proof/Laws/PerInstr.lean ====
section
/-! SUPPORT. Laws/PerInstr.lean: a statement about every instruction as syntax: how many bytes its word has
(30_encoding.md R70, R80, R81; a code word stands as four bytes). -/

namespace Sys2Proof.Laws.WordShape

/-- The number of bytes of a format's word. -/
def formBytes : Form → Nat
  | .cmd => 1
  | .label => 1
  | .code _ => 4
  | .header => 3

/-- An instruction's word has the length of its format. -/
def Statement (i : Instr) : Prop := (encode i).length = formBytes (formOf i)

theorem encode : Statement .encode := rfl
theorem decode : Statement .decode := rfl
theorem illegalCmd (op : Byte) : Statement (.illegalCmd op) := rfl
theorem hdrWrite : Statement .hdrWrite := rfl
theorem hdrRead : Statement .hdrRead := rfl
theorem bwPush : Statement .bwPush := rfl
theorem bwFlush : Statement .bwFlush := rfl
theorem brPull : Statement .brPull := rfl
theorem dictReset : Statement .dictReset := rfl
theorem encDictLookup : Statement .encDictLookup := rfl
theorem decDictLookup : Statement .decDictLookup := rfl
theorem dictInsertIfRoom : Statement .dictInsertIfRoom := rfl
theorem dictMaybeGrow : Statement .dictMaybeGrow := rfl
theorem encStart : Statement .encStart := rfl
theorem encSymbol : Statement .encSymbol := rfl
theorem encFinish : Statement .encFinish := rfl
theorem decStart : Statement .decStart := rfl
theorem decCode : Statement .decCode := rfl
theorem codeZeroReject : Statement .codeZeroReject := rfl
theorem codeClear : Statement .codeClear := rfl
theorem codeFirstLiteral (k : Byte) : Statement (.codeFirstLiteral k) := rfl
theorem codeFirstBad (k : Code31) : Statement (.codeFirstBad k) := rfl
theorem codeKnown (k : Code31) : Statement (.codeKnown k) := rfl
theorem codeKwkwk (k : Code31) : Statement (.codeKwkwk k) := rfl
theorem codeUnknown (k : Code31) : Statement (.codeUnknown k) := rfl
theorem header (m : Bool) (b : Width) : Statement (.header m b) := rfl

end Sys2Proof.Laws.WordShape
end

