-- ==== Sys2Proof/Tests/Slice0.lean ====
section
/-! SUPPORT. Tests/Slice0.lean: the model's own tests. Expected values come from the tables of 95_test_vectors.md and from
words written out from 30_encoding.md; a test's comment names its vector. -/

namespace Sys2Proof.Tests

open Sys2Proof Sys2Proof.Machine

/-! ## Well-formedness: an ill-formed term for each check -/

theorem test_wf_illegal_encode : (Instr.illegalCmd 0x01).wf = false := by decide
theorem test_wf_illegal_decode : (Instr.illegalCmd 0x02).wf = false := by decide
theorem test_wf_illegal_ok : (Instr.illegalCmd 0x07).wf = true := by decide
theorem test_wf_firstBad : (Instr.codeFirstBad 255).wf = false := by decide
theorem test_wf_firstBad_ok : (Instr.codeFirstBad 256).wf = true := by decide

/-! ## Decoding: every constructor by a word written out from 30_encoding.md -/

theorem test_decode_encode : decode .cmd [0b00000001#8] = .ok .encode := by decide
theorem test_decode_decode : decode .cmd [0b00000010#8] = .ok .decode := by decide
theorem test_decode_illegalCmd : decode .cmd [0b00000000#8] = .ok (.illegalCmd 0) := by decide
theorem test_decode_hdrWrite : decode .label [0b00010000#8] = .ok .hdrWrite := by decide
theorem test_decode_hdrRead : decode .label [0b00010001#8] = .ok .hdrRead := by decide
theorem test_decode_bwPush : decode .label [0b00100000#8] = .ok .bwPush := by decide
theorem test_decode_bwFlush : decode .label [0b00100001#8] = .ok .bwFlush := by decide
theorem test_decode_brPull : decode .label [0b00100010#8] = .ok .brPull := by decide
theorem test_decode_dictReset : decode .label [0b00110000#8] = .ok .dictReset := by decide
theorem test_decode_encDictLookup : decode .label [0b00110001#8] = .ok .encDictLookup := by decide
theorem test_decode_decDictLookup : decode .label [0b00110010#8] = .ok .decDictLookup := by decide
theorem test_decode_dictInsertIfRoom : decode .label [0b00110011#8] = .ok .dictInsertIfRoom := by decide
theorem test_decode_dictMaybeGrow : decode .label [0b00110100#8] = .ok .dictMaybeGrow := by decide
theorem test_decode_encStart : decode .label [0b01000000#8] = .ok .encStart := by decide
theorem test_decode_encSymbol : decode .label [0b01000001#8] = .ok .encSymbol := by decide
theorem test_decode_encFinish : decode .label [0b01000010#8] = .ok .encFinish := by decide
theorem test_decode_decStart : decode .label [0b01010000#8] = .ok .decStart := by decide
theorem test_decode_decCode : decode .label [0b01010001#8] = .ok .decCode := by decide
theorem test_decode_unusedLabel : decode .label [0b00110101#8] = .error (.unusedLabel 0x35) := by decide

/-- Code contexts (30_encoding.md R76). -/
def ctx (zeroReject blockMode running known isNext : Bool) : CodeCtx :=
  { zeroReject := zeroReject, blockMode := blockMode, running := running, known := known, isNext := isNext }

theorem test_decode_zeroReject :
    decode (.code (ctx true true false false false)) [0x00, 0x00, 0x00, 0x00] = .ok .codeZeroReject := by decide
theorem test_decode_clear :
    decode (.code (ctx false true true false true)) [0x00, 0x01, 0x00, 0x00] = .ok .codeClear := by decide
theorem test_decode_firstLiteral :
    decode (.code (ctx false true false true false)) [0x41, 0x00, 0x00, 0x00] = .ok (.codeFirstLiteral 0x41) := by decide
theorem test_decode_firstBad :
    decode (.code (ctx false true false false false)) [0x2C, 0x01, 0x00, 0x00] = .ok (.codeFirstBad 300) := by decide
theorem test_decode_known :
    decode (.code (ctx false false true true false)) [0x00, 0x01, 0x00, 0x00] = .ok (.codeKnown 256) := by decide
theorem test_decode_kwkwk :
    decode (.code (ctx false true true false true)) [0x01, 0x01, 0x00, 0x00] = .ok (.codeKwkwk 257) := by decide
theorem test_decode_unknown :
    decode (.code (ctx false true true false false)) [0xFF, 0xFF, 0xFF, 0x7F] = .ok (.codeUnknown 0x7FFFFFFF) := by decide
theorem test_decode_codeTooWide :
    decode (.code (ctx false true true false false)) [0x00, 0x00, 0x00, 0x80] = .error .codeTooWide := by decide
/-- H7, H8, D14: bits 6:5 of byte 2 are ignored. -/
theorem test_decode_header : decode .header [0x1F, 0x9D, 0b11110000#8] = .ok (.header true 16) := by decide
theorem test_decode_header_zero : decode .header [0x1F, 0x9D, 0b01100000#8] = .ok (.header false 0) := by decide
theorem test_decode_badMagic : decode .header [0x1F, 0x9E, 0x90] = .error .badMagic := by decide

/-- The table's label rows do not overlap. -/
theorem test_labels_distinct : (unitLabels.map UnitLabel.toByte).Nodup := by decide

/-- The words of spec/opcode_table.json, numbered as the table numbers them. -/
theorem test_table_words :
    decodeTableWord 8 0x01 = some .encode ∧ decodeTableWord 8 0x00 = some (.illegalCmd 0) ∧
    decodeTableWord 8 0x51 = some .decCode ∧ decodeTableWord 24 0x1F9D00 = some (.header false 0) ∧
    decodeTableWord 32 0x0 = some .codeZeroReject ∧ decodeTableWord 32 0x100 = some .codeClear ∧
    decodeTableWord 32 0x41 = some (.codeFirstLiteral 0x41) ∧ decodeTableWord 16 0 = none := by decide

/-! ## States -/

/-- A field of the next state, if the outcome is one. -/
def after {α : Type} (o : Host.Outcome State Fault Refusal) (f : State → α) : Option α :=
  match o with
  | .next t => some (f t)
  | .fault _ => none
  | .refused _ => none

def busy (d : Side) : Status := { busy := true, done := false, err := false, dir := d }

/-- Operands of a unit operation. -/
def ops (m : Bool) (b : Byte) (code : Word32) (width : Byte) (key : Symbols) (side : Side) : Operands :=
  { blockMode := m, maxBits := b, code := code, width := width, key := key, side := side }

/-- The machine after reset with an operand latch. -/
def unit (o : Operands) : State := { State.reset with operands := o }

/-- The packer at `(acc, nbits)`, a push of `(code, width)` latched (vectors W). -/
def packer (acc : BitVec 39) (nbits : BitVec 6) (code : Word32) (width : Byte) : State :=
  { unit (ops false 0 code width [] .encode) with acc := acc, nbits := nbits }

/-- The unpacker on the bytes of a buffer at a cursor, a pull of `width` latched (vectors B). -/
def unpacker (m : Memory) (len byteIndex : Word32) (bitOffset : BitVec 3) (width : Byte) : State :=
  { unit (ops false 0 0 width [] .decode) with
    inBuf := m, sampledInLen := len, byteIndex := byteIndex, bitOffset := bitOffset }

/-- The dictionary unit at a next code, a width and `max_bits` (vectors G). -/
def dict (next : Word32) (cw mb : Width) (side : Side) : State :=
  { unit (ops true 0 0 0 [0x41, 0x41] side) with nextCode := next, codeWidth := cw, maxBits := mb }

/-- An encoder in mid-run with a small table: `S.w = [41]`, next symbol 41 (vector E1, symbol 1). -/
def encoder : State :=
  { State.reset with
    status := busy .encode, phase := .encMatching, blockMode := true, maxBits := 16, codeWidth := 9, nextCode := 257
    ed := [([0x41], 0x41)], w := [0x41], inBuf := [(0, 0x41), (1, 0x41)], inLen := 2, sampledInLen := 2, inIdx := 1 }

/-- A decoder with a small table, `S.dw = [41]` (vector D1 after its first code). -/
def decoder : State :=
  { State.reset with
    status := busy .decode, phase := .decRunning, blockMode := true, maxBits := 16, codeWidth := 9, nextCode := 257
    dd := [(65, [0x41]), (66, [0x42])], dw := some [0x41]
    inBuf := [(0, 0x1F), (1, 0x9D), (2, 0x90), (3, 0x41), (4, 0x02), (5, 0x0A), (6, 0x1C), (7, 0x08)]
    inLen := 8, sampledInLen := 8, byteIndex := 4, bitOffset := 1, maxw := 9, outLen := 1, outBuf := [(0, 0x41)] }

/-- The same decoder before its first code. -/
def decoderInit : State :=
  { decoder with phase := .decInit, dw := none, byteIndex := 3, bitOffset := 0, maxw := 0, outLen := 0, outBuf := [] }

/-- A DECODE accepted on the same input, its header not yet read. -/
def decoderAwait : State := { decoderInit with phase := .decAwaitHeader, starting := true, codeWidth := 0, dd := [] }

/-- An ENCODE accepted with CONFIG = 0x90, its start step due. -/
def encoderDue : State := accept .encode { State.reset with inLen := 2, inBuf := [(0, 0x41), (1, 0x41)] }

/-! ## One step of each instruction -/

/-- K2. -/
theorem test_encode_accepted :
    after (exec .encode State.reset) (fun t => (t.status.toByte, t.phase.toByte)) = some (0x01, 1) := by decide
/-- P2, acceptance. -/
theorem test_decode_accepted :
    after (exec .decode State.reset) (fun t => (t.status.toByte, t.phase.toByte)) = some (0x09, 4) := by decide
/-- K1. -/
theorem test_illegal_rejected :
    after (exec (.illegalCmd 0x07) State.reset) (fun t => (t.status.toByte, errcodeByte t.errcode, t.phase.toByte)) =
      some (0x04, 5, 8) := by decide
/-- K4: DIR keeps 1. -/
theorem test_illegal_keeps_dir :
    after (exec (.illegalCmd 0x00) { State.reset with status := statusDone .decode, phase := .decDone })
      (fun t => t.status.toByte) = some 0x0C := by decide
/-- K3. -/
theorem test_command_ignored_while_busy : exec .decode encoder = .next encoder := rfl
/-- H1. -/
theorem test_hdrWrite :
    after (exec .hdrWrite (unit (ops true 16 0 0 [] .encode))) (fun t => t.outBuf) =
      some [(0, 0x1F), (1, 0x9D), (2, 0x90)] := by decide
/-- H5: `b = 0` is written as 9. -/
theorem test_hdrWrite_clamps :
    after (exec .hdrWrite (unit (ops true 0 0 0 [] .encode))) (fun t => memRead t.outBuf 2) = some (some 0x89) := by decide
/-- H7: bits 6:5 ignored. -/
theorem test_hdrRead :
    after (exec .hdrRead (unpacker [(0, 0x1F), (1, 0x9D), (2, 0xFF)] 3 0 0 0)) (fun t => t.result) =
      some (.headerRead true 31) := by decide
/-- H12: `16 > MAX_BITS_CAP`. -/
theorem test_hdrRead_cap :
    after (exec .hdrRead { unpacker [(0, 0x1F), (1, 0x9D), (2, 0x90)] 3 0 0 0 with
      params := { Params.default with maxBitsCap := 12 } }) (fun t => t.errcode) = some (some .invalidHeader) := by decide
/-- W2. -/
theorem test_bwPush :
    after (exec .bwPush (packer 0 1 257 9)) (fun t => (t.outBuf, t.acc, t.nbits)) = some ([(0, 0x02)], 2, 2) := by decide
/-- W8: the 39-bit case. -/
theorem test_bwPush_widest :
    after (exec .bwPush (packer 0xFF 8 0x7FFFFFFF 31)) (fun t => (t.outBuf.map Prod.snd, t.acc, t.nbits)) =
      some ([0xFF, 0xFF, 0xFF, 0xFF], 0x7F, 7) := by decide
/-- W10. -/
theorem test_bwFlush :
    after (exec .bwFlush (packer 8 4 0 0)) (fun t => (t.outBuf, t.acc, t.nbits)) = some ([(0, 0x08)], 0, 0) := by decide
/-- B3. -/
theorem test_brPull :
    after (exec .brPull (unpacker [(0, 0x41), (1, 0x02), (2, 0x0A), (3, 0x1C), (4, 0x08)] 5 2 2 9))
      (fun t => (t.result, t.byteIndex, t.bitOffset)) = some (.pulled (some 258), 3, 3) := by decide
/-- B7: no bits over, the cursor at the next byte. -/
theorem test_brPull_exact :
    after (exec .brPull (unpacker [(0, 0xFF)] 1 0 3 5)) (fun t => (t.result, t.byteIndex, t.bitOffset)) =
      some (.pulled (some 31), 1, 0) := by decide
/-- G1. -/
theorem test_dictReset :
    after (exec .dictReset (unit (ops true 0 0 0 [] .decode)))
      (fun t => (t.nextCode, t.codeWidth, ddGet t.dd 65, ddGet t.dd 256)) = some (257, 9, some [0x41], none) := by decide +kernel
/-- G2. -/
theorem test_dictReset_nonblock :
    after (exec .dictReset (unit (ops false 0 0 0 [] .encode))) (fun t => (t.nextCode, t.ed.head?, t.ed.length)) =
      some (256, some ([0xFF], 255), 256) := by decide +kernel
/-- G9. -/
theorem test_encDictLookup :
    after (exec .encDictLookup { unit (ops false 0 0 0 [0x41, 0x41] .encode) with ed := [([0x41, 0x41], 257), ([0x41], 65)] })
      (fun t => t.result) = some (.encFound (some 257)) := by decide
/-- G3: 257 is no key. -/
theorem test_decDictLookup :
    after (exec .decDictLookup { decoder with operands := ops false 0 257 0 [] .decode }) (fun t => t.result) =
      some (.decFound none) := by decide
/-- G4. -/
theorem test_dictInsertIfRoom :
    after (exec .dictInsertIfRoom (dict 511 9 16 .decode)) (fun t => (t.nextCode, ddGet t.dd 511, t.result)) =
      some (512, some [0x41, 0x41], .inserted true) := by decide
/-- G5: frozen. -/
theorem test_dictInsertIfRoom_full :
    after (exec .dictInsertIfRoom (dict 512 9 9 .encode)) (fun t => (t.nextCode, t.ed, t.result)) =
      some (512, [], .inserted false) := by decide
/-- G6. -/
theorem test_dictMaybeGrow : after (exec .dictMaybeGrow (dict 512 9 16 .encode)) (fun t => t.codeWidth) = some 10 := by decide
/-- G7. -/
theorem test_dictMaybeGrow_at_max :
    after (exec .dictMaybeGrow (dict 512 9 9 .encode)) (fun t => t.codeWidth) = some 9 := by decide
/-- E7, start step. -/
theorem test_encStart :
    after (exec .encStart encoderDue) (fun t => (t.outBuf, t.outLen, t.nextCode, t.streamCfg)) =
      some ([(0, 0x1F), (1, 0x9D), (2, 0x90)], 3, 257, 0x90) := by decide
/-- E10. -/
theorem test_encStart_cap :
    after (exec .encStart { encoderDue with sampledConfig := 0x94, params := { Params.default with maxBitsCap := 16 } })
      (fun t => (t.status.toByte, errcodeByte t.errcode, t.streamCfg)) = some (0x04, 5, 0) := by decide
/-- E1, symbol 1: a miss. -/
theorem test_encSymbol_miss :
    after (exec .encSymbol encoder) (fun t => (t.outBuf, t.acc, t.nbits, t.nextCode)) = some ([(0, 0x41)], 0, 1, 258) := by
  decide
theorem test_encSymbol_miss_inserts :
    after (exec .encSymbol encoder) (fun t => (edGet t.ed [0x41, 0x41], t.w)) = some (some 257, [0x41]) := by decide
/-- E4, the 256th miss: pushed at width 9, then the width grows, then the insertion at 512. -/
theorem test_encSymbol_grows :
    after (exec .encSymbol { encoder with nextCode := 512 })
      (fun t => (t.nbits, t.codeWidth, edGet t.ed [0x41, 0x41], t.nextCode, t.maxw)) =
      some (1, 10, some 512, 513, 9) := by decide
/-- E1, FINISH. -/
theorem test_encFinish :
    after (exec .encFinish { encoder with
      w := [0x41, 0x41, 0x41, 0x41], ed := [([0x41, 0x41, 0x41, 0x41], 259)], acc := 4, nbits := 3, inIdx := 2 })
      (fun t => (t.outBuf.map Prod.snd, t.statMaxw, t.statFinalw, t.status.toByte, t.phase.toByte)) =
      some ([0x1C, 0x08], 9, 9, 0x02, 3) := by decide
/-- D1, start step. -/
theorem test_decStart :
    after (exec .decStart decoderAwait) (fun t => (t.maxBits, t.nextCode, t.byteIndex, t.streamCfg, t.phase.toByte)) =
      some (16, 257, 3, 0x90, 5) := by decide
/-- D1, code 1. -/
theorem test_decCode_first :
    after (exec .decCode decoderInit) (fun t => (t.outBuf, t.dw, t.byteIndex, t.bitOffset, t.nextCode)) =
      some ([(0, 0x41)], some [0x41], 4, 1, 257) := by decide
/-- D1, code 2: KWKWK. -/
theorem test_decCode_kwkwk :
    after (exec .decCode decoder) (fun t => (t.outBuf.map Prod.snd, ddGet t.dd 257, t.nextCode, t.byteIndex, t.bitOffset)) =
      some ([0x41, 0x41, 0x41], some [0x41, 0x41], 258, 5, 2) := by decide
/-- D12 under `reject`. -/
theorem test_codeZeroReject :
    after (exec .codeZeroReject { decoderInit with params := { Params.default with zeroPolicy := .reject } })
      (fun t => (t.errcode, t.status.toByte)) = some (some .corruptStream, 0x0C) := by decide
/-- D11. -/
theorem test_codeClear :
    after (exec .codeClear decoder) (fun t => (t.errcode, t.status.toByte)) = some (some .unsupportedClearCode, 0x0C) := by decide
/-- D13's first literal. -/
theorem test_codeFirstLiteral :
    after (exec (.codeFirstLiteral 0x41) decoderInit) (fun t => (t.outBuf, t.dw, t.phase.toByte)) =
      some ([(0, 0x41)], some [0x41], 6) := by decide
/-- D7. -/
theorem test_codeFirstBad :
    after (exec (.codeFirstBad 300) decoderInit) (fun t => t.errcode) = some (some .corruptStream) := by decide
/-- D2, code 2: 66 known, 257 = 41 42 inserted. -/
theorem test_codeKnown :
    after (exec (.codeKnown 66) decoder) (fun t => (memRead t.outBuf 1, ddGet t.dd 257, t.dw)) =
      some (some 0x42, some [0x41, 0x42], some [0x42]) := by decide
/-- D8: the insertion at 511 fills the table and the width grows. -/
theorem test_codeKnown_grows :
    after (exec (.codeKnown 66) { decoder with nextCode := 511 }) (fun t => (t.nextCode, t.codeWidth)) =
      some (512, 10) := by decide
/-- D10: in non-block mode 256 can be the next code. -/
theorem test_codeKwkwk :
    after (exec (.codeKwkwk 256) { decoder with blockMode := false, nextCode := 256 })
      (fun t => (t.outBuf.map Prod.snd, t.dw)) = some ([0x41, 0x41, 0x41], some [0x41, 0x41]) := by decide
/-- D6. -/
theorem test_codeUnknown :
    after (exec (.codeUnknown 258) decoder) (fun t => t.errcode) = some (some .corruptStream) := by decide
/-- D15: `max_bits` 5 is read as 9. -/
theorem test_header :
    after (exec (.header true 5) decoderAwait) (fun t => (t.maxBits, t.streamCfg, t.phase.toByte)) =
      some (9, 0x89, 5) := by decide

/-! ## Steps -/

/-- K5: CONFIG reads 0x9F after 0xFF is written. -/
theorem test_step_config :
    after (step { State.reset with inputs := [.writeReg 1 0xFF] }) (fun t => regValue t 1) = some 0x9F := by decide
/-- 20_memory.md R63: IN_LEN written while busy is stored, the sample stays. -/
theorem test_step_inLen_while_busy :
    after (step { encoder with inputs := [.writeReg 7 9] }) (fun t => (t.inLen, t.sampledInLen)) = some (9, 2) := by decide
/-- 43_encoder.md R155: WAIT lets the next ENC_SYMBOL run. -/
theorem test_step_wait :
    after (step { encoder with inputs := [.wait] }) (fun t => (t.inIdx, t.inputs)) = some (2, [.wait]) := by decide
/-- 70_reset_and_hazards.md R230: a reset in mid-transaction. -/
theorem test_step_reset :
    after (step { encoder with inputs := [.reset] }) (fun t => (t.status.toByte, t.phase.toByte, regValue t 1)) =
      some (0, 0, 0x90) := by decide
/-- 20_memory.md R50: no OUT_BUF index at OUT_CAP. -/
theorem test_step_readOut_past_cap :
    step { State.reset with params := { Params.default with outCap := some 2 }, inputs := [.readOut 2] } =
      .fault .outIndexBeyondCap := rfl
/-- H10's header, issued where the decoder takes it: InvalidHeader. -/
theorem test_step_bad_magic :
    after (step (withInput (.issue (.header 0x1F 0x9E 0x90)) decoderAwait)) (fun t => (t.errcode, t.status.toByte)) =
      some (some .invalidHeader, 0x0C) := by decide
/-- 20_memory.md R50: a finished transaction's byte, read by the host. -/
theorem test_step_readOut :
    after (step (withInput (.readOut 0) { decoder with status := statusDone .decode, phase := .decDone }))
      (fun t => t.readData) = some 0x41 := by decide
/-- Table words run as the first step after reset. -/
theorem test_fetch_words :
    after (step (State.reset.withFetchWord 8 0x02)) (fun t => t.phase) = some .decAwaitHeader ∧
    after (step (State.reset.withFetchWord 8 0x40)) (fun t => t.starting) = some false ∧
    after (step (State.reset.withFetchWord 8 0x41)) (fun t => t.phase) = some .encMatching ∧
    after (step (State.reset.withFetchWord 8 0x42)) (fun t => t.phase) = some .encFlushed ∧
    after (step (State.reset.withFetchWord 8 0x51)) (fun t => t.phase) = some .decDone := by decide +kernel
theorem test_fetch_stream_words :
    after (step (State.reset.withFetchWord 24 0x1F9D0C)) (fun t => t.maxBits) = some 12 ∧
    after (step (State.reset.withFetchWord 32 0)) (fun t => t.errcode) = some (some .corruptStream) ∧
    after (step (State.reset.withFetchWord 32 256)) (fun t => t.errcode) = some (some .unsupportedClearCode) ∧
    after (step (State.reset.withFetchWord 32 65)) (fun t => t.dw) = some (some [0x41]) := by decide +kernel

/-- The parameters with an output capacity. -/
def capped (c : Nat) (s : State) : State := { s with params := { Params.default with outCap := some c } }

/-! ## Witnesses: for each obligation with hypotheses, states and operands that meet them, a witness for each clause -/

theorem witness_DecodeOfEncode :
    (Instr.illegalCmd 0xFF).wf = true ∧ (Instr.codeFirstBad 256).wf = true ∧ (Instr.codeFirstBad 0x7FFFFFFF).wf = true ∧
    (Instr.codeKnown 0).wf = true ∧ (Instr.header true 31).wf = true := by decide

theorem witness_EncodeOfDecode :
    decode .header [0x1F, 0x9D, 0xFF] = .ok (.header true 31) ∧ decode .label [0x51] = .ok .decCode ∧
    decode .cmd [0xFF] = .ok (.illegalCmd 0xFF) := by decide

/-- A decoder under the policy `reject`. -/
def rejecting (s : State) : State := { s with params := { Params.default with zeroPolicy := .reject } }

theorem witness_CodeClassInTableOrder :
    (decoding (rejecting decoderInit) = true ∧ classify (codeCtx (rejecting decoderInit) 0) 0 = .zeroReject) ∧
    (decoding decoderInit = true ∧ classify (codeCtx decoderInit 256) 256 = .clear ∧
      classify (codeCtx decoderInit 255) 255 = .firstLiteral ∧ classify (codeCtx decoderInit 257) 257 = .firstBad) ∧
    (decoding decoder = true ∧ classify (codeCtx decoder 66) 66 = .known ∧
      classify (codeCtx decoder 257) 257 = .kwkwk ∧ classify (codeCtx decoder 258) 258 = .unknown) := by decide

/-- H10's header issued to a decoder that awaits one, and to a machine at rest. -/
theorem witness_StepRunsDecodedInstruction :
    (fetch encoder = .run .label [0x41] encoder ∧ decode .label [0x41] = .ok .encSymbol) ∧
    (fetch (withInput (.issue (.header 0x1F 0x9E 0x90)) decoderAwait) = .run .header [0x1F, 0x9E, 0x90] decoderAwait ∧
      decode .header [0x1F, 0x9E, 0x90] = .error .badMagic ∧ decoderAwait.phase = .decAwaitHeader) ∧
    (fetch (withInput (.issue (.header 0x1F 0x9E 0x90)) State.reset) = .run .header [0x1F, 0x9E, 0x90] State.reset ∧
      State.reset.phase ≠ .decAwaitHeader) := ⟨⟨rfl, rfl⟩, ⟨rfl, rfl, rfl⟩, ⟨rfl, by decide⟩⟩

/-- An encoder with no symbol left: `S.w` = 41 41 41 41, pushed as 259 (vector E1). -/
def encoderLast : State :=
  { encoder with
    w := [0x41, 0x41, 0x41, 0x41], ed := [([0x41, 0x41, 0x41, 0x41], 259)], acc := 4, nbits := 3, inIdx := 2 }

/-- An encoder of no symbol at all (vector E7). -/
def encoderNone : State :=
  { encoder with phase := .encEmpty, w := [], ed := [], inLen := 0, sampledInLen := 0, inIdx := 0, inBuf := [] }

theorem witness_ControllerOrder :
    (encoderDue.status.busy = true ∧ encoderDue.inputs = [] ∧ encoderDue.phase = .encEmpty ∧ encoderDue.starting = true) ∧
    (encoder.status.busy = true ∧ (withInput .wait encoder).inputs.head? = some .wait ∧ encoder.phase = .encMatching ∧
      encoder.starting = false ∧ encoder.inIdx.toNat < encoder.sampledInLen.toNat) ∧
    (encoderLast.status.busy = true ∧ encoderLast.inputs = [] ∧ encoderLast.phase = .encMatching ∧
      encoderLast.starting = false ∧ ¬ encoderLast.inIdx.toNat < encoderLast.sampledInLen.toNat) ∧
    (decoderAwait.status.busy = true ∧ decoderAwait.inputs = [] ∧ decoderAwait.phase = .decAwaitHeader) ∧
    (decoderInit.status.busy = true ∧ decoderInit.inputs = [] ∧ decoderInit.phase = .decInit) ∧
    (decoder.status.busy = true ∧ decoder.inputs = [] ∧ decoder.phase = .decRunning) := by decide

theorem witness_IdleKeepsEverything : State.reset.status.busy = false ∧ State.reset.inputs = [] := by decide

theorem witness_HostRegisterWrites :
    ∀ idx ∈ [0, 1, 2, 6, 7, 8, 9, 10], ∃ s : State, s.inputs = .writeReg idx 0xFFFFFFFF :: [] :=
  fun idx _ => ⟨withInput (.writeReg idx 0xFFFFFFFF) State.reset, rfl⟩

theorem witness_HostRegisterReads :
    (∀ idx ∈ [0, 1, 2, 3, 4, 5, 6, 7, 9, 10], (withInput (.readReg idx) encoder).inputs = .readReg idx :: [] ∧
      ¬ (idx = 8 ∧ (withInput (.readReg idx) encoder).status.busy = true)) ∧
    (withInput (.readReg 8) State.reset).inputs = .readReg 8 :: [] ∧
      ¬ (8 = 8 ∧ (withInput (.readReg 8) State.reset).status.busy = true) := by decide

theorem witness_HostWritesOneInputByte :
    (withInput (.writeIn 0xFFFFFFFF 0xFF) State.reset).inputs = .writeIn 0xFFFFFFFF 0xFF :: [] ∧
    (withInput (.writeIn 0xFFFFFFFF 0xFF) State.reset).status.busy = false ∧
    assocGet (withInput (.writeIn 0xFFFFFFFF 0xFF) State.reset).raced 0xFFFFFFFF = none ∧
    (withInput (.writeIn 0 1) encoder).inputs = .writeIn 0 1 :: [] ∧ encoder.status.busy = true := by decide

theorem witness_HostReadsOutputByte :
    (∀ c ∈ (capped 1 { decoder with status := statusDone .decode, phase := .decDone }).params.outCap, (0 : Word32).toNat < c) ∧
    ({ decoder with status := statusDone .decode, phase := .decDone } : State).status.busy = false ∧
    memRead decoder.outBuf (0 : Word32).toNat = some 0x41 ∧
    (withInput (.readOut 0) decoder).inputs = .readOut 0 :: [] ∧ decoder.status.busy = true ∧
    (∃ c ∈ (capped 1 State.reset).params.outCap, c ≤ (1 : Word32).toNat) := by decide

theorem witness_HardwareReset : (withInput .reset encoder).inputs = .reset :: [] := by decide

theorem witness_CommandAccepted : State.reset.status.busy = false := by decide

theorem witness_IllegalCommandRejected :
    State.reset.status.busy = false ∧
    ∀ op ∈ [(0x00 : Byte), 0x03, 0xFF], decodeCmd op ≠ .encode ∧ decodeCmd op ≠ .decode := by decide

theorem witness_CommandIgnoredWhileBusy : encoder.status.busy = true ∧ decoder.status.busy = true := by decide

/-- Room for a number of bytes, from closed facts. -/
theorem roomFor_capped {n c : Nat} {s : State} (h : s.outLen.toNat + n ≤ c) (h2 : s.outLen.toNat + n < 2 ^ 32) :
    RoomFor n (capped c s) :=
  ⟨fun d hd => by simp [capped] at hd; subst hd; exact h, h2⟩

theorem roomFor_unbounded {n : Nat} {s : State} (hp : s.params.outCap = none) (h2 : s.outLen.toNat + n < 2 ^ 32) :
    RoomFor n s :=
  ⟨fun d hd => by simp [hp] at hd, h2⟩

theorem witness_HdrWriteEmitsHeader :
    (capped 3 (unit (ops true 31 0 0 [] .encode))).operands.maxBits.toNat ≤ 31 ∧
    RoomFor 3 (capped 3 (unit (ops true 31 0 0 [] .encode))) :=
  ⟨by decide, roomFor_capped (by decide) (by decide)⟩

/-- An unpacker on a header of `max_bits` 16, with a cap on `max_bits`. -/
def headerAt (b2 : Byte) (cap : Nat) : State :=
  { unpacker [(0, 0x1F), (1, 0x9D), (2, b2)] 3 0 0 0 with params := { Params.default with maxBitsCap := cap } }

theorem witness_HdrReadReturnsFields :
    3 ≤ (headerAt 0x90 16).sampledInLen.toNat ∧ coreRead (headerAt 0x90 16) 0 = 0x1F ∧
    coreRead (headerAt 0x90 16) 1 = 0x9D ∧
    max ((coreRead (headerAt 0x90 16) 2).toNat % 32) 9 ≤ (headerAt 0x90 16).params.maxBitsCap := by decide

theorem witness_HdrReadInvalidHeader :
    { headerAt 0x90 16 with sampledInLen := 2 }.sampledInLen.toNat < 3 ∧
    coreRead { headerAt 0x90 16 with inBuf := [(0, 0x1E), (1, 0x9D), (2, 0x90)] } 0 ≠ 0x1F ∧
    coreRead { headerAt 0x90 16 with inBuf := [(0, 0x1F), (1, 0x9E), (2, 0x90)] } 1 ≠ 0x9D ∧
    (headerAt 0x91 16).params.maxBitsCap < max ((coreRead (headerAt 0x91 16) 2).toNat % 32) 9 := by decide

theorem witness_HeaderFidelity :
    (unit (ops true 16 0 0 [] .encode)).operands.maxBits.toNat ≤ 31 ∧ RoomFor 3 (unit (ops true 16 0 0 [] .encode)) ∧
    9 ≤ (headerAt 0x90 16).params.maxBitsCap ∧
    (unit (ops true 16 0 0 [] .encode)).operands.maxBits.toNat ≤ (headerAt 0x90 16).params.maxBitsCap ∧
    3 ≤ (headerAt 0x90 16).sampledInLen.toNat ∧
    ∀ t, exec .hdrWrite (unit (ops true 16 0 0 [] .encode)) = .next t →
      ∀ j, j < 3 → memRead t.outBuf ((unit (ops true 16 0 0 [] .encode)).outLen.toNat + j) =
        some (coreRead (headerAt 0x90 16) j) := by
  refine ⟨by decide, roomFor_unbounded rfl (by decide), by decide, by decide, by decide, fun t h => ?_⟩
  have : t.outBuf = [(0, 0x1F), (1, 0x9D), (2, 0x90)] := by
    have h2 := congrArg (fun o => after o fun t => t.outBuf) h
    rw [test_hdrWrite] at h2
    simpa [after] using h2.symm
  rw [this]
  decide

/-- The widest push: 8 pending bits, a code of 31 bits. -/
theorem witness_BwPushPacksCode :
    ValidCode 0x7FFFFFFF 31 ∧ PackerWf (packer 0xFF 8 0x7FFFFFFF 31) ∧
    RoomFor (peelCount 31 (packer 0xFF 8 0x7FFFFFFF 31)) (packer 0xFF 8 0x7FFFFFFF 31) :=
  ⟨⟨by decide, by decide, by decide⟩, ⟨by decide, by decide⟩, roomFor_unbounded rfl (by decide)⟩

theorem witness_BwFlushEmitsPendingBits :
    (PackerWf (packer 0 0 0 0) ∧ (packer 0 0 0 0).nbits.toNat = 0) ∧
    (PackerWf (packer 0xFF 8 0 0) ∧ 0 < (packer 0xFF 8 0 0).nbits.toNat ∧ RoomFor 1 (packer 0xFF 8 0 0)) :=
  ⟨⟨⟨by decide, by decide⟩, rfl⟩, ⟨by decide, by decide⟩, by decide, roomFor_unbounded rfl (by decide)⟩

/-- Codes of vector E1: 65, 257 at width 9. -/
def twoCodes : List (Nat × Nat) := [(65, 9), (257, 9)]

theorem twoCodes_valid : ∀ e ∈ twoCodes, ValidCode e.1 e.2 := by
  intro e he
  simp only [twoCodes, List.mem_cons, List.not_mem_nil, or_false] at he
  rcases he with rfl | rfl <;> exact ⟨by decide, by decide, by decide⟩

theorem witness_PackingLaw :
    (∀ e ∈ twoCodes, ValidCode e.1 e.2) ∧ (packer 0 0 0 0).acc = 0 ∧ (packer 0 0 0 0).nbits = 0 ∧
    RoomFor ((totalBits twoCodes + 7) / 8) (packer 0 0 0 0) :=
  ⟨twoCodes_valid, rfl, rfl, roomFor_unbounded rfl (by decide)⟩

/-- 65 and 257 at width 9 from index 3: 41 02 02. -/
def twoCodesIn : State := unpacker [(0, 0x1F), (1, 0x9D), (2, 0x90), (3, 0x41), (4, 0x02), (5, 0x02)] 6 3 0 9

theorem witness_UnpackingLaw :
    (∀ e ∈ twoCodes, ValidCode e.1 e.2) ∧ twoCodesIn.sampledInLen.toNat = 3 + (totalBits twoCodes + 7) / 8 ∧
    (∀ j, j < (totalBits twoCodes + 7) / 8 →
      some (coreRead twoCodesIn (3 + j)) = (digits (packedValue twoCodes) ((totalBits twoCodes + 7) / 8))[j]?) ∧
    twoCodesIn.byteIndex = 3 ∧ twoCodesIn.bitOffset = 0 :=
  ⟨twoCodes_valid, rfl, by decide, rfl, rfl⟩

theorem witness_BrPullTakesBitsAtCursor :
    (BitsLeft 1 (unpacker [(0, 0x80)] 1 0 7 1)) ∧ (BitsLeft 31 (unpacker [] 4 0 1 31)) ∧
    ¬ BitsLeft 31 (unpacker [] 4 0 2 31) := by
  unfold BitsLeft
  decide

theorem witness_UnitsRejectBadOperands :
    31 < (unit (ops true 32 0 0 [] .encode)).operands.maxBits.toNat ∧
    ¬ ValidCode 512 9 ∧ ¬ ValidCode 0 0 ∧ ¬ ValidCode 0 32 ∧
    (unit (ops true 0 0 0 [] .encode)).operands.width.toNat = 0 ∧
    31 < (unit (ops true 0 0 32 [] .encode)).operands.width.toNat := by
  unfold ValidCode
  decide

theorem witness_FrozenDictionaryStays :
    { encoder with codeWidth := 9, maxBits := 9, nextCode := 512 }.nextCode.toNat =
      dictSizeMax { encoder with codeWidth := 9, maxBits := 9, nextCode := 512 } ∧
    (after (exec .encSymbol { encoder with codeWidth := 9, maxBits := 9, nextCode := 512 }) fun _ => ()) = some () ∧
    (after (exec .encFinish { encoderLast with codeWidth := 9, maxBits := 9, nextCode := 512 }) fun _ => ()) = some () ∧
    (after (exec .decCode { decoder with codeWidth := 9, maxBits := 9, nextCode := 512 }) fun _ => ()) = some () := by decide

theorem witness_EncStartInitialises :
    (capped 3 encoderDue).phase = .encEmpty ∧ (capped 3 encoderDue).starting = true ∧
    max ((capped 3 encoderDue).sampledConfig.toNat % 32) 9 ≤ (capped 3 encoderDue).params.maxBitsCap ∧
    ∀ c ∈ (capped 3 encoderDue).params.outCap, 3 ≤ c := by decide

theorem witness_EncStartErrors :
    ({ encoderDue with params := { Params.default with maxBitsCap := 15 } }.params.maxBitsCap <
      max (encoderDue.sampledConfig.toNat % 32) 9) ∧
    (max ((capped 2 encoderDue).sampledConfig.toNat % 32) 9 ≤ (capped 2 encoderDue).params.maxBitsCap ∧
      ∃ c ∈ (capped 2 encoderDue).params.outCap, c < 3) ∧
    encoderDue.phase = .encEmpty ∧ encoderDue.starting = true := by decide

theorem witness_EncSymbolAbsorbsKnown :
    { encoder with ed := [([0x41, 0x41], 257), ([0x41], 65)] }.inIdx.toNat < encoder.sampledInLen.toNat ∧
    encoder.phase = .encMatching ∧ encoder.starting = false ∧
    (edGet { encoder with ed := [([0x41, 0x41], 257), ([0x41], 65)] }.ed
      (encoder.w ++ [coreRead encoder encoder.inIdx.toNat])).isSome = true := by decide

theorem witness_EncSymbolEmitsOnMiss :
    encoder.phase = .encMatching ∧ encoder.starting = false ∧ encoder.inIdx.toNat < encoder.sampledInLen.toNat ∧
    edGet encoder.ed (encoder.w ++ [coreRead encoder encoder.inIdx.toNat]) = none ∧
    edGet encoder.ed encoder.w = some 0x41 ∧ ValidCode 0x41 encoder.codeWidth.toNat ∧ PackerWf encoder ∧
    RoomFor (peelCount encoder.codeWidth.toNat encoder) encoder :=
  ⟨rfl, rfl, by decide, by decide, by decide, ⟨by decide, by decide, by decide⟩, ⟨by decide, by decide⟩,
    roomFor_unbounded rfl (by decide)⟩

theorem witness_EncFinishCompletes :
    (encoderLast.phase = .encMatching ∧ encoderLast.starting = false ∧ encoderLast.inIdx = encoderLast.sampledInLen ∧
      PackerWf encoderLast ∧ encoderLast.w ≠ [] ∧ edGet encoderLast.ed encoderLast.w = some 259 ∧
      ValidCode 259 encoderLast.codeWidth.toNat ∧
      RoomFor ((encoderLast.nbits.toNat + encoderLast.codeWidth.toNat + 7) / 8) encoderLast) ∧
    (encoderNone.phase = .encEmpty ∧ encoderNone.starting = false ∧ encoderNone.inIdx = encoderNone.sampledInLen ∧
      PackerWf encoderNone ∧ encoderNone.w = [] ∧ RoomFor ((encoderNone.nbits.toNat + 7) / 8) encoderNone) :=
  ⟨⟨rfl, rfl, rfl, ⟨by decide, by decide⟩, by decide, by decide, ⟨by decide, by decide, by decide⟩,
      roomFor_unbounded rfl (by decide)⟩,
    rfl, rfl, rfl, ⟨by decide, by decide⟩, rfl, roomFor_unbounded rfl (by decide)⟩

/-- A DECODE awaiting a header. -/
def awaiting (b2 : Byte) (cap : Nat) : State :=
  { decoderAwait with
    params := { Params.default with maxBitsCap := cap }
    inBuf := [(0, 0x1F), (1, 0x9D), (2, b2)], inLen := 3, sampledInLen := 3 }

theorem witness_DecStartInitialises :
    (awaiting 0x90 16).phase = .decAwaitHeader ∧ 3 ≤ (awaiting 0x90 16).sampledInLen.toNat ∧
    coreRead (awaiting 0x90 16) 0 = 0x1F ∧ coreRead (awaiting 0x90 16) 1 = 0x9D ∧
    max ((coreRead (awaiting 0x90 16) 2).toNat % 32) 9 ≤ (awaiting 0x90 16).params.maxBitsCap := by decide

theorem witness_DecStartInvalidHeader :
    (awaiting 0x91 16).phase = .decAwaitHeader ∧
    (awaiting 0x91 16).params.maxBitsCap < max ((coreRead (awaiting 0x91 16) 2).toNat % 32) 9 ∧
    { awaiting 0x90 16 with sampledInLen := 2 }.sampledInLen.toNat < 3 ∧
    coreRead { awaiting 0x90 16 with inBuf := [(0, 0x1E), (1, 0x9D), (2, 0x90)] } 0 ≠ 0x1F ∧
    coreRead { awaiting 0x90 16 with inBuf := [(0, 0x1F), (1, 0x9E), (2, 0x90)] } 1 ≠ 0x9D := by decide

theorem witness_HeaderWordTaken :
    (awaiting 0x90 16).phase = .decAwaitHeader ∧ max (16 : Width).toNat 9 ≤ (awaiting 0x90 16).params.maxBitsCap ∧
    (awaiting 0x91 16).params.maxBitsCap < max (17 : Width).toNat 9 ∧
    (3 ≤ (awaiting 0x90 16).sampledInLen.toNat ∧
      decodeHeader (coreRead (awaiting 0x90 16) 0) (coreRead (awaiting 0x90 16) 1) (coreRead (awaiting 0x90 16) 2) =
        .ok (.header true 16)) := by decide

/-- A decoder with 8 bits left, one less than a code. -/
def decoderShort : State := { decoder with byteIndex := 7, bitOffset := 0 }

theorem witness_DecCodeEndOfStream :
    decoderShort.phase = .decRunning ∧ 9 ≤ decoderShort.codeWidth.toNat ∧
    ¬ BitsLeft decoderShort.codeWidth.toNat decoderShort := by
  unfold BitsLeft
  decide

/-- A decoder with exactly 9 bits left. -/
def decoderExact : State := { decoder with byteIndex := 6, bitOffset := 7 }

theorem witness_DecCodeRunsItsClass :
    decoderExact.phase = .decRunning ∧ 9 ≤ decoderExact.codeWidth.toNat ∧
    BitsLeft decoderExact.codeWidth.toNat decoderExact := by
  unfold BitsLeft
  decide

/-- A decoder before the first code, the code 256 (vector D11). -/
def decoderClear : State :=
  { decoderInit with inBuf := [(0, 0x1F), (1, 0x9D), (2, 0x90), (3, 0x00), (4, 0x01)], inLen := 5, sampledInLen := 5 }

theorem witness_ClearCodeUnsupported :
    decoderClear.phase = .decInit ∧ 9 ≤ decoderClear.codeWidth.toNat ∧
    BitsLeft decoderClear.codeWidth.toNat decoderClear ∧ decoderClear.blockMode = true ∧
    codeAt decoderClear.codeWidth.toNat decoderClear = 256 := by
  unfold BitsLeft
  decide

theorem witness_CorruptCodesRaise :
    ((rejecting decoderInit).phase = .decInit ∧ (rejecting decoderInit).params.zeroPolicy = .reject) ∧
    (decoderInit.phase = .decInit ∧ 255 < (257 : Code31).toNat ∧
      ¬ (decoderInit.blockMode = true ∧ (257 : Code31).toNat = 256)) ∧
    (({ decoderInit with blockMode := false } : State).phase = .decInit ∧ 255 < (256 : Code31).toNat ∧
      ¬ (({ decoderInit with blockMode := false } : State).blockMode = true ∧ (256 : Code31).toNat = 256)) ∧
    (decoder.phase = .decRunning ∧ ddGet decoder.dd (258 : Code31).toNat = none ∧
      (258 : Code31).toNat ≠ decoder.nextCode.toNat ∧ ¬ (decoder.blockMode = true ∧ (258 : Code31).toNat = 256) ∧
      ¬ (decoder.params.zeroPolicy = .reject ∧ (258 : Code31).toNat = 0)) := by decide

theorem witness_FirstLiteralEmitted :
    decoderInit.phase = .decInit ∧ ¬ (decoderInit.params.zeroPolicy = .reject ∧ (0xFF : Byte).toNat = 0) ∧
    ¬ (decoderInit.params.zeroPolicy = .reject ∧ (0 : Byte).toNat = 0) ∧ RoomFor 1 decoderInit :=
  ⟨by decide, by decide, by decide, roomFor_unbounded rfl (by decide)⟩

theorem witness_KnownCodeTaken :
    decoder.phase = .decRunning ∧ ¬ (decoder.params.zeroPolicy = .reject ∧ (66 : Code31).toNat = 0) ∧
    ¬ (decoder.blockMode = true ∧ (66 : Code31).toNat = 256) ∧
    ddGet decoder.dd (66 : Code31).toNat = some (0x42 :: []) ∧ decoder.dw = some [0x41] ∧
    RoomFor (([] : Symbols).length + 1) decoder :=
  ⟨by decide, by decide, by decide, by decide, by decide, roomFor_unbounded rfl (by decide)⟩

theorem witness_NextCodeTaken :
    decoder.phase = .decRunning ∧ ¬ (decoder.params.zeroPolicy = .reject ∧ (257 : Code31).toNat = 0) ∧
    ¬ (decoder.blockMode = true ∧ (257 : Code31).toNat = 256) ∧ ddGet decoder.dd (257 : Code31).toNat = none ∧
    (257 : Code31).toNat = decoder.nextCode.toNat ∧ decoder.dw = some (0x41 :: []) ∧
    RoomFor (([] : Symbols).length + 2) decoder :=
  ⟨by decide, by decide, by decide, by decide, by decide, by decide, roomFor_unbounded rfl (by decide)⟩

theorem witness_DecoderIgnoresConfig :
    Instr.decStart ∈ [Instr.decStart, .decCode] ∧ Instr.decCode ∈ [Instr.decStart, .decCode] := by decide

/-- OUT_LEN at `l` under a capacity of `c`. -/
def filled (c : Nat) (l : Word32) (s : State) : State := capped c { s with outLen := l }

theorem overflows_filled {n c : Nat} {l : Word32} {s : State} (hn : 0 < n) (h32 : c < 2 ^ 32) (h : c < l.toNat + n) :
    Overflows n (filled c l s) := ⟨hn, c, rfl, h32, h⟩

/-- The widest push peels 4 bytes; capacities that allow 0 or one less than each emission needs. -/
theorem witness_FullOutputOverflows :
    (0 < (filled 1 1 (packer 0xFF 8 0 0)).nbits.toNat ∧ Overflows 1 (filled 1 1 (packer 0xFF 8 0 0))) ∧
    ((filled 2 0 (unit (ops true 31 0 0 [] .encode))).operands.maxBits.toNat ≤ 31 ∧
      Overflows 3 (filled 2 0 (unit (ops true 31 0 0 [] .encode)))) ∧
    (ValidCode 0x7FFFFFFF 31 ∧ Overflows (peelCount 31 (packer 0xFF 8 0x7FFFFFFF 31)) (filled 3 0 (packer 0xFF 8 0x7FFFFFFF 31))) ∧
    (encoding (filled 3 3 encoder) = true ∧ (filled 3 3 encoder).inIdx.toNat < (filled 3 3 encoder).sampledInLen.toNat ∧
      edGet (filled 3 3 encoder).ed ((filled 3 3 encoder).w ++ [coreRead (filled 3 3 encoder) 1]) = none ∧
      edGet (filled 3 3 encoder).ed (filled 3 3 encoder).w = some 0x41 ∧ ValidCode 0x41 9 ∧
      Overflows (peelCount 9 encoder) (filled 3 3 encoder)) ∧
    (encoding (filled 4 3 encoderLast) = true ∧ (filled 4 3 encoderLast).inIdx = (filled 4 3 encoderLast).sampledInLen ∧
      (filled 4 3 encoderLast).w ≠ [] ∧ edGet (filled 4 3 encoderLast).ed (filled 4 3 encoderLast).w = some 259 ∧
      ValidCode 259 9 ∧ Overflows ((encoderLast.nbits.toNat + 9 + 7) / 8) (filled 4 3 encoderLast)) ∧
    (encoding (filled 3 3 { encoderNone with nbits := 8 }) = true ∧ (filled 3 3 { encoderNone with nbits := 8 }).w = [] ∧
      0 < (filled 3 3 { encoderNone with nbits := 8 }).nbits.toNat ∧ Overflows 1 (filled 3 3 { encoderNone with nbits := 8 })) :=
  ⟨⟨by decide, overflows_filled (by decide) (by decide) (by decide)⟩,
    ⟨by decide, overflows_filled (by decide) (by decide) (by decide)⟩,
    ⟨⟨by decide, by decide, by decide⟩, overflows_filled (by decide) (by decide) (by decide)⟩,
    ⟨by decide, by decide, by decide, by decide, ⟨by decide, by decide, by decide⟩,
      overflows_filled (by decide) (by decide) (by decide)⟩,
    ⟨by decide, by decide, by decide, by decide, ⟨by decide, by decide, by decide⟩,
      overflows_filled (by decide) (by decide) (by decide)⟩,
    ⟨by decide, by decide, by decide, overflows_filled (by decide) (by decide) (by decide)⟩⟩

/-- The clauses of the code classes and of DEC_CODE: a first literal, a known code, the next code, a pulled code 257. -/
theorem witness_FullOutputOverflows_codes :
    (Resolves (filled 0 0 decoderInit) 0xFF [0xFF] ∧ Overflows 1 (filled 0 0 decoderInit)) ∧
    (Resolves (filled 1 1 decoder) 66 [0x42] ∧ Overflows 1 (filled 1 1 decoder)) ∧
    (Resolves (filled 2 1 decoder) 257 [0x41, 0x41] ∧ Overflows 2 (filled 2 1 decoder)) ∧
    (9 ≤ (filled 2 1 decoder).codeWidth.toNat ∧ BitsLeft (filled 2 1 decoder).codeWidth.toNat (filled 2 1 decoder) ∧
      BitVec.ofNat 31 (codeAt (filled 2 1 decoder).codeWidth.toNat (filled 2 1 decoder)) = 257) :=
  ⟨⟨⟨by decide, by decide, .inl ⟨rfl, by decide, rfl⟩⟩, overflows_filled (by decide) (by decide) (by decide)⟩,
    ⟨⟨by decide, by decide, .inr (.inl ⟨rfl, rfl⟩)⟩, overflows_filled (by decide) (by decide) (by decide)⟩,
    ⟨⟨by decide, by decide, .inr (.inr ⟨rfl, by decide, rfl, 0x41, [], rfl, rfl⟩)⟩,
      overflows_filled (by decide) (by decide) (by decide)⟩,
    ⟨by decide, by unfold BitsLeft; decide, by decide⟩⟩

theorem witness_AbortsAreUniform :
    (FlagsAgree decoder ∧ decoder.status.busy = true) ∧ decoder.phase ≠ .error ∧
    after (exec (.codeUnknown 258) decoder) (fun t => t.phase) = some .error ∧
    ∀ op, Instr.codeUnknown 258 ≠ .illegalCmd op :=
  ⟨⟨⟨by decide, by decide, by decide, by decide, by decide, by decide, by decide, by decide⟩, by decide⟩, by decide, by decide,
    by intro op h; cases h⟩

theorem witness_CoreLeavesHostStateAlone :
    (after (exec .encSymbol encoder) fun _ => ()) = some () ∧ (after (exec .decCode decoder) fun _ => ()) = some () := by
  decide

/-- Bytes above the sampled length differ, those below do not. -/
theorem witness_OnlyInputBelowLengthIsRead :
    ∀ k, k < encoder.sampledInLen.toNat →
      coreRead { encoder with inBuf := [(0, 0x41), (1, 0x41), (2, 0x99)], raced := [(3, 7)], inDraw := 5 } k =
        coreRead encoder k := by decide

theorem witness_ResultsStayUntilCommand :
    let s := withInput (.writeReg 7 9) { State.reset with status := statusDone .encode, phase := .encFlushed }
    s.status.busy = false ∧ (after (step s) fun _ => ()) = some () ∧
    (∀ v, s.inputs.head? ≠ some (.writeReg 0 v)) ∧ s.inputs.head? ≠ some .reset ∧
    ∀ w, s.inputs.head? ≠ some (.issue w) :=
  ⟨by decide, by decide, by intro v; simp [withInput], by simp [withInput], by intro w; simp [withInput]⟩

/-! ## Witnesses for the invariants -/

theorem flagsAgree_encoder : FlagsAgree encoder :=
  ⟨by decide, by decide, by decide, by decide, by decide, by decide, by decide, by decide⟩

theorem witness_StepKeepsRegistersConsistent :
    Canonical encoder ∧ ReservedZero encoder ∧ FlagsAgree encoder ∧ (after (step encoder) fun _ => ()) = some () :=
  ⟨⟨by decide, by decide, by decide, by decide⟩, ⟨by decide, by decide⟩, flagsAgree_encoder, by decide⟩

/-- An ENCODE whose start step has run (its header is not written: the invariant does not ask for it). -/
def encodeStarted : State := { encInit true 16 encoderDue with starting := false }

/-- A DECODE whose start step has run. -/
def decodeStarted : State := decInit true 16 decoderAwait

theorem runInv_encodeStarted : RunInv encodeStarted where
  host := by intro m hm; simp [encodeStarted, encoderDue, encInit, clearOut, dictReset, accept, State.reset] at hm
  params := by decide
  canonical := ⟨by decide, by decide, by decide, by decide⟩
  reserved := ⟨by decide, by decide⟩
  flags := ⟨by decide, by decide, by decide, by decide, by decide, by decide, by decide, by decide⟩
  dict := fun _ => ⟨by decide, by decide, by decide, by decide, by decide⟩
  enc := fun _ _ => by
    have hlen : ∀ key c, edGet encodeStarted.ed key = some c → ∃ b : Byte, key = [b] ∧ c = b.setWidth 32 := by
      intro key c h
      by_cases hk : key.length = 1
      · obtain ⟨b, rfl⟩ := List.length_eq_one_iff.1 hk
        rw [show encodeStarted.ed = seedED from rfl, edGet_seed] at h
        exact ⟨b, rfl, by simpa using h.symm⟩
      · rw [show encodeStarted.ed = seedED from rfl, edGet_seed_other hk] at h
        cases h
    have hlt : ∀ b : Byte, (b.setWidth 32 : Word32).toNat < 256 := by
      intro b
      have := b.isLt
      simp
      omega
    exact {
      packer := ⟨by decide, by decide⟩
      codes_below := fun key c h => by
        obtain ⟨b, -, rfl⟩ := hlen key c h
        have := hlt b
        rw [show encodeStarted.nextCode.toNat = 257 from rfl]
        omega
      never_clear := fun key c h _ => by
        obtain ⟨b, -, rfl⟩ := hlen key c h
        have := hlt b
        omega
      literals := edGet_seed
      keys_nonempty := edGet_seed_other (by simp)
      prefixes := fun p b c h hp => by
        obtain ⟨b', hk, -⟩ := hlen _ c h
        exact absurd (congrArg List.length hk) (by cases p <;> simp_all)
      codes_distinct := fun key key' c h h' => by
        obtain ⟨b, rfl, rfl⟩ := hlen _ c h
        obtain ⟨b', rfl, hb⟩ := hlen _ _ h'
        have := congrArg BitVec.toNat hb
        have h1 := b.isLt
        have h2 := b'.isLt
        simp at this
        rw [show b = b' from BitVec.eq_of_toNat_eq (by omega)]
      empty_iff := ⟨fun _ => rfl, fun _ => rfl⟩
      match_known := fun h => absurd rfl h
      index_le := by decide }
  dec := fun _ h => by simp [encodeStarted, encoderDue, encInit, clearOut, dictReset, accept, Phase.side] at h

theorem runInv_decodeStarted : RunInv decodeStarted where
  host := by intro m hm; simp [decodeStarted, decInit, dictReset, decoderAwait, decoderInit, decoder, State.reset] at hm
  params := by decide
  canonical := ⟨by decide, by decide, seedDD_wf, by decide⟩
  reserved := ⟨by decide, by decide⟩
  flags := ⟨by decide, by decide, by decide, by decide, by decide, by decide, by decide, by decide⟩
  dict := fun _ => ⟨by decide, by decide, by decide, by decide, by decide⟩
  enc := fun _ h => by simp [decodeStarted, decInit, Phase.side] at h
  dec := fun _ _ =>
    { keys := fun k => by
        rw [show decodeStarted.dd = seedDD from rfl, ddGet_seed,
          show decodeStarted.nextCode.toNat = 257 from rfl,
          show (firstAssignable decodeStarted.blockMode).toNat = 257 from rfl]
        split <;> simp <;> omega
      literals := fun k hk => by
        rw [show decodeStarted.dd = seedDD from rfl, ddGet_seed, if_pos hk]
      entries_nonempty := fun k e h => by
        rw [show decodeStarted.dd = seedDD from rfl, ddGet_seed] at h
        split at h
        · cases h; simp
        · cases h
      init_iff := ⟨fun _ => rfl, fun _ => rfl⟩
      previous_nonempty := fun d h => by simp [decodeStarted, decInit] at h
      cursor_ge := by decide
      cursor_le := by decide }

/-- The same of no symbol. -/
def encodeOfNothing : State := { encodeStarted with sampledInLen := 0 }

theorem runInv_encodeOfNothing : RunInv encodeOfNothing where
  host := runInv_encodeStarted.host
  params := by decide
  canonical := runInv_encodeStarted.canonical
  reserved := runInv_encodeStarted.reserved
  flags := ⟨by decide, by decide, by decide, by decide, by decide, by decide, by decide, by decide⟩
  dict := fun _ => ⟨by decide, by decide, by decide, by decide, by decide⟩
  enc := fun h1 h2 =>
    have e := runInv_encodeStarted.enc h1 h2
    { packer := e.packer, codes_below := e.codes_below, never_clear := e.never_clear, literals := e.literals
      keys_nonempty := e.keys_nonempty, prefixes := e.prefixes, codes_distinct := e.codes_distinct
      empty_iff := e.empty_iff, match_known := e.match_known, index_le := by decide }
  dec := fun _ h => by simp [encodeOfNothing, encodeStarted, encoderDue, encInit, clearOut, dictReset, accept, Phase.side] at h

theorem witness_EncoderRaisesOnlyOverflow :
    (RunInv encodeStarted ∧ encoding encodeStarted = true ∧
      encodeStarted.inIdx.toNat < encodeStarted.sampledInLen.toNat) ∧
    (RunInv encodeOfNothing ∧ encoding encodeOfNothing = true ∧ encodeOfNothing.inIdx = encodeOfNothing.sampledInLen) :=
  ⟨⟨runInv_encodeStarted, by decide, by decide⟩, runInv_encodeOfNothing, by decide, by decide⟩

theorem witness_EncodeEnds : RunInv encodeStarted ∧ encodeStarted.inputs = [] ∧ encoding encodeStarted = true :=
  ⟨runInv_encodeStarted, by decide, by decide⟩

theorem witness_DecodeEnds : RunInv decodeStarted ∧ decodeStarted.inputs = [] ∧ decoding decodeStarted = true :=
  ⟨runInv_decodeStarted, by decide, by decide⟩

theorem witness_StepKeepsRunInv :
    (RunInv encodeStarted ∧ (after (step encodeStarted) fun _ => ()) = some ()) ∧
    (RunInv decodeStarted ∧ (after (step decodeStarted) fun _ => ()) = some ()) :=
  ⟨⟨runInv_encodeStarted, by decide +kernel⟩, runInv_decodeStarted, by decide +kernel⟩

theorem witness_HostDrivenStepsComplete :
    RunInv decodeStarted ∧
    ∀ i, decodeStarted.inputs.head? = some (.readOut i) → outIndexExists decodeStarted i = true :=
  ⟨runInv_decodeStarted, fun i h => by
    simp [decodeStarted, decInit, dictReset, decoderAwait, decoderInit, decoder, State.reset] at h⟩

theorem witness_EncodeDecodeRoundTrip :
    State.reset.status.busy = false ∧ State.reset.params.zeroPolicy = .accept ∧ State.reset.params.outCap = none ∧
    max ((0xFF : Byte).toNat % 32) 9 ≤ State.reset.params.maxBitsCap ∧ ([] : Symbols).length < 2 ^ 29 ∧
    ([0x41, 0x41] : Symbols).length < 2 ^ 29 := by decide

end Sys2Proof.Tests
end

section
/-! The words that a step runs: which words `fetch` finds, what each decodes to, and the step that a fetched word
is (00_scope.md R8). Settles O5. -/

namespace Sys2Proof

/-! ## What a word decodes to -/

@[simp] theorem decode_cmd (v : Byte) : decode .cmd [v] = .ok (decodeCmd v) := rfl

@[simp] theorem labelOf_toByte (u : UnitLabel) : labelOf u.toByte = some u := by
  cases u <;> decide

@[simp] theorem decode_label_toByte (u : UnitLabel) : decode .label [u.toByte] = .ok u.instr := by
  simp [decode, decodeLabel]

theorem word32_extractLsb' (w : Word32) :
    word32 (w.extractLsb' 0 8) (w.extractLsb' 8 8) (w.extractLsb' 16 8) (w.extractLsb' 24 8) = w := by
  unfold word32
  rw [BitVec.extractLsb'_append_extractLsb'_eq_extractLsb' (start₂ := 8) rfl,
    BitVec.extractLsb'_append_extractLsb'_eq_extractLsb' (start₂ := 16) rfl,
    BitVec.extractLsb'_append_extractLsb'_eq_extractLsb' (start₂ := 24) rfl, BitVec.extractLsb'_eq_self]

/-- Bit 31 of a code's word is 0: a code has at most 31 bits (30_encoding.md R73). -/
@[simp] theorem decode_codeBytes (c : CodeCtx) (k : Code31) : decode (.code c) (codeBytes k) = .ok (decodeCode c k) := by
  have hbit : ((k.setWidth 32).extractLsb' 24 8).getLsbD 7 = false := by simp
  simp only [decode, codeBytes, hbit, word32_extractLsb']
  simp

/-- Of three header bytes the only ones that are no instruction are those without the magic (30_encoding.md R83). -/
theorem decode_header_eq_error {b0 b1 b2 : Byte} {e : DecodeReject} (h : decode .header [b0, b1, b2] = .error e) :
    e = .badMagic := by
  simp only [decode, decodeHeader] at h
  split at h
  · cases h
  · cases h; rfl

end Sys2Proof

namespace Sys2Proof.Machine

/-! ## What fetch finds -/

/-- The words that a step can run in state `t`: a value of CMD, a label of 30_encoding.md R81, a code in the context of
its class in `t` (R76), three header bytes. -/
inductive FetchedWord (t : State) : Form → List Byte → Prop where
  | cmd (v : Byte) : FetchedWord t .cmd [v]
  | label (u : UnitLabel) : FetchedWord t .label [u.toByte]
  | code (k : Code31) : FetchedWord t (.code (codeCtx t k)) (codeBytes k)
  | header (b0 b1 b2 : Byte) : FetchedWord t .header [b0, b1, b2]

variable {s t : State} {f : Form} {bytes : List Byte}

/-- CORE's turn runs a controller step and leaves the state as it is. -/
theorem coreTurn_eq_run (h : coreTurn s = .run f bytes t) :
    ∃ u, nextLabel s = some u ∧ s.status.busy = true ∧ f = .label ∧ bytes = [u.toByte] ∧ t = s := by
  unfold coreTurn at h
  split at h
  next u hbusy hlabel => cases h; exact ⟨u, hlabel, hbusy, rfl, rfl, rfl⟩
  next => cases h

theorem fetchedWord_of_coreTurn (h : coreTurn s = .run f bytes t) : FetchedWord t f bytes := by
  obtain ⟨u, -, -, rfl, rfl, -⟩ := coreTurn_eq_run h
  exact .label u

theorem fetchedWord_of_issued {w : IssueWord} (h : issued w s = .run f bytes t) : FetchedWord t f bytes := by
  cases w with
  | label u ops => cases h; exact .label u
  | code k => cases h; exact .code k
  | header b0 b1 b2 => cases h; exact .header b0 b1 b2

theorem fetchedWord_of_fetch (h : fetch s = .run f bytes t) : FetchedWord t f bytes := by
  cases hin : s.inputs with
  | nil => simp only [fetch, hin] at h; exact fetchedWord_of_coreTurn h
  | cons move rest =>
    cases move <;> simp only [fetch, hin] at h
    case wait =>
      split at h
      · exact fetchedWord_of_coreTurn h
      · cases h
    case yield => exact fetchedWord_of_coreTurn h
    case issue w => exact fetchedWord_of_issued h
    case writeReg idx v =>
      split at h
      · cases h; exact .cmd _
      · cases h
    case readOut i => split at h <;> cases h
    all_goals cases h

/-- The one fetched word that is no instruction is a header without the magic (30_encoding.md R83). -/
theorem FetchedWord.eq_header_of_error {e : DecodeReject} (hw : FetchedWord t f bytes) (h : decode f bytes = .error e) :
    f = .header ∧ e = .badMagic := by
  cases hw with
  | cmd v => simp at h
  | label u => simp at h
  | code k => simp at h
  | header b0 b1 b2 => exact ⟨rfl, decode_header_eq_error h⟩

/-! ## The step of a fetched word -/

theorem step_eq_exec {i : Instr} (hf : fetch s = .run f bytes t) (hd : decode f bytes = .ok i) : step s = exec i t := by
  simp only [step, hf, hd]

theorem step_eq_execIllegalWord {e : DecodeReject} (hf : fetch s = .run f bytes t) (hd : decode f bytes = .error e) :
    step s = execIllegalWord e t := by
  simp only [step, hf, hd]

/-- An abort is one as 60_exceptions.md R210 describes it. -/
theorem abort_abortedWith (e : ErrKind) (s : State) : AbortedWith e s (abort e s) := by
  simp [AbortedWith]

/-- Setting `OUT_LEN <- 0` first writes nothing that `AbortedWith` compares. -/
theorem abort_clearOut_abortedWith (e : ErrKind) (s : State) : AbortedWith e s (abort e (clearOut s)) :=
  abort_abortedWith e (clearOut s)

theorem execIllegalWord_badMagic (h : t.phase = .decAwaitHeader) :
    execIllegalWord .badMagic t = .next (abort .invalidHeader (clearOut t)) := by
  simp [execIllegalWord, h]

theorem execIllegalWord_outOfPhase (e : DecodeReject) (h : t.phase ≠ .decAwaitHeader) :
    execIllegalWord e t = .refused .outOfPhase := by
  simp [execIllegalWord, h]

end Sys2Proof.Machine

open Sys2Proof Sys2Proof.Machine

/-- Settles O5: a fetched word that does not decode is a header without the magic, whose step is `execIllegalWord`'s. -/
theorem stepRunsDecodedInstruction : Obligations.StepRunsDecodedInstruction := by
  unfold Obligations.StepRunsDecodedInstruction
  intro s t f bytes hf
  refine ⟨fun i hd => step_eq_exec hf hd, fun e hd => ?_⟩
  have hstep := step_eq_execIllegalWord hf hd
  obtain ⟨hform, rfl⟩ := (fetchedWord_of_fetch hf).eq_header_of_error hd
  refine ⟨hform, rfl, fun hawait => ?_, fun hother => ?_⟩
  · exact ⟨_, hstep.trans (execIllegalWord_badMagic hawait), abort_clearOut_abortedWith _ t⟩
  · exact hstep.trans (execIllegalWord_outOfPhase _ hother)
end

section
/-! What a step can do, said once (00_scope.md R8): the inversion of `step`, and the host's moves with their frame.
Settles O8, O9, O12 and O54. -/

namespace Sys2Proof.Machine

/-! ## What a step can do -/

/-- A move of the host that runs no operation, or none at all, made in `u` (45_control.md R195). -/
inductive HostMove (u : State) : State → Prop where
  | none : HostMove u u
  | writeReg (idx : Nat) (v : Word32) : HostMove u (writeReg idx v u)
  | readReg (idx : Nat) : HostMove u (readReg idx u)
  | writeIn (i : Word32) (b : Byte) : HostMove u (writeIn i b u)
  | readOut (i : Word32) : HostMove u (readOut i u)

/-- The ways in which a step leads from `s` to `t`. `rest` is what stays pending; it is all of it where the host has no
move or waits. -/
inductive StepTaken (s t : State) : Prop where
  | hostMove (rest : List Input) (hrest : rest ⊆ s.inputs) (hmove : HostMove { s with inputs := rest } t)
  | reset (rest : List Input) (hin : s.inputs = .reset :: rest) (ht : t = hardReset { s with inputs := rest })
  | command (v : Word32) (rest : List Input) (hin : s.inputs = .writeReg 0 v :: rest)
      (hexec : exec (decodeCmd (v.setWidth 8)) { s with inputs := rest } = .next t)
  | controller (l : UnitLabel) (rest : List Input) (hrest : rest ⊆ s.inputs) (hbusy : s.status.busy = true)
      (hlabel : nextLabel s = some l) (hexec : exec l.instr { s with inputs := rest } = .next t)
  | issued (w : IssueWord) (rest : List Input) (hin : s.inputs = .issue w :: rest) (ops : Operands)
      (hexec : (∃ i, exec i { s with inputs := rest, operands := ops } = .next t) ∨
        execIllegalWord .badMagic { s with inputs := rest, operands := ops } = .next t)

variable {s t u : State}

/-- The outcome of what `fetch` found, as `step` has it. -/
def runFetched : Fetched → Host.Outcome State Fault Refusal
  | .done t => .next t
  | .stop r => .fault r
  | .run f bytes t =>
    match decode f bytes with
    | .ok i => exec i t
    | .error e => execIllegalWord e t

theorem step_eq_runFetched (s : State) : step s = runFetched (fetch s) := by
  unfold step runFetched
  cases fetch s <;> rfl

@[simp] theorem runFetched_done (t : State) : runFetched (.done t) = .next t := rfl

theorem runFetched_label (l : UnitLabel) (t : State) : runFetched (.run .label [l.toByte] t) = exec l.instr t := by
  simp [runFetched]

/-- CORE's turn, with `rest` still pending: a controller step while `BUSY = 1`, else nothing. -/
theorem stepTaken_of_coreTurn {rest : List Input} (hrest : rest ⊆ s.inputs)
    (h : runFetched (coreTurn { s with inputs := rest }) = .next t) : StepTaken s t := by
  unfold coreTurn at h
  split at h
  next l hbusy hlabel => exact .controller l rest hrest hbusy hlabel (by rwa [runFetched_label] at h)
  next => cases h; exact .hostMove rest hrest .none

theorem stepTaken_of_issued {w : IssueWord} {rest : List Input} (hin : s.inputs = .issue w :: rest)
    (h : runFetched (issued w { s with inputs := rest }) = .next t) : StepTaken s t := by
  cases w with
  | label l ops => exact .issued _ rest hin ops (.inl ⟨l.instr, by rwa [issued, runFetched_label] at h⟩)
  | code k => exact .issued _ rest hin s.operands (.inl ⟨_, by simpa [issued, runFetched] using h⟩)
  | header b0 b1 b2 =>
    refine .issued _ rest hin s.operands ?_
    cases hd : decode .header [b0, b1, b2] with
    | ok i => exact .inl ⟨i, by simpa [issued, runFetched, hd] using h⟩
    | error e =>
      obtain rfl := decode_header_eq_error hd
      exact .inr (by simpa [issued, runFetched, hd] using h)

/-- The inversion of a step, along the branches of `fetch`. -/
theorem step_cases (h : step s = .next t) : StepTaken s t := by
  rw [step_eq_runFetched] at h
  cases hin : s.inputs with
  | nil =>
    simp only [fetch, hin] at h
    exact stepTaken_of_coreTurn (List.Subset.refl _) h
  | cons move rest =>
    have hrest : rest ⊆ s.inputs := hin ▸ List.subset_cons_self move rest
    cases move <;> simp only [fetch, hin] at h
    case writeReg idx v =>
      split at h
      next h0 => subst h0; exact .command v rest hin h
      next => cases h; exact .hostMove rest hrest (.writeReg idx v)
    case readReg idx => cases h; exact .hostMove rest hrest (.readReg idx)
    case writeIn i b => cases h; exact .hostMove rest hrest (.writeIn i b)
    case readOut i =>
      split at h
      · cases h; exact .hostMove rest hrest (.readOut i)
      · cases h
    case wait =>
      split at h
      · exact stepTaken_of_coreTurn (List.Subset.refl _) h
      · cases h; exact .hostMove rest hrest .none
    case yield => exact stepTaken_of_coreTurn hrest h
    case reset => cases h; exact .reset rest hin rfl
    case issue w => exact stepTaken_of_issued hin h

/-! ## The host's moves -/

/-- The frame of a host's move: CONFIG, IN_LEN and IN_BUF, and fields of the model's own (20_memory.md R57). -/
theorem HostMove.frame (h : HostMove s t) :
    t = { s with
      config := t.config, inLen := t.inLen, inBuf := t.inBuf, raced := t.raced, readData := t.readData
      draws := t.draws } := by
  cases h with
  | none => rfl
  | writeReg idx v => unfold Machine.writeReg; split_ifs <;> rfl
  | readReg idx => unfold Machine.readReg; split_ifs <;> rfl
  | writeIn i b => unfold Machine.writeIn; simp only []; split_ifs <;> rfl
  | readOut i =>
    unfold Machine.readOut
    split_ifs
    · rfl
    · split <;> rfl

theorem step_writeReg {idx : Nat} {v : Word32} {rest : List Input} (hin : s.inputs = .writeReg idx v :: rest) :
    step s = if idx = 0 then exec (decodeCmd (v.setWidth 8)) { s with inputs := rest }
      else .next (writeReg idx v { s with inputs := rest }) := by
  rw [step_eq_runFetched]
  simp only [fetch, hin]
  split <;> rfl

theorem step_readReg {idx : Nat} {rest : List Input} (hin : s.inputs = .readReg idx :: rest) :
    step s = .next (readReg idx { s with inputs := rest }) := by
  rw [step_eq_runFetched]
  simp only [fetch, hin, runFetched_done]

/-! ## The byte forms of STATUS, ERRCODE and PHASE, as numbers -/

theorem Status.toNat_toByte (f : Status) :
    f.toByte.toNat = f.busy.toNat + 2 * f.done.toNat + 4 * f.err.toNat + 8 * (if f.dir = .decode then 1 else 0) := by
  obtain ⟨busy, done, err, dir⟩ := f
  revert busy done err
  cases dir <;> decide

theorem toNat_errcodeByte (o : Option ErrKind) :
    (errcodeByte o).toNat =
      match o with
      | none => 0
      | some .invalidHeader => 1
      | some .corruptStream => 2
      | some .unsupportedClearCode => 3
      | some .outOfRangeSymbol => 4
      | some .invalidArgument => 5
      | some .outputOverflow => 6 := by
  rcases o with _ | e
  · rfl
  · cases e <;> rfl

theorem toNat_phaseByte (p : Phase) :
    p.toByte.toNat =
      match p with
      | .idle => 0
      | .encEmpty => 1
      | .encMatching => 2
      | .encFlushed => 3
      | .decAwaitHeader => 4
      | .decInit => 5
      | .decRunning => 6
      | .decDone => 7
      | .error => 8 := by
  cases p <;> rfl

/-- A host read of an 8-bit register has zeros above it (log 6). -/
theorem toNat_widenByte (b : Byte) : (b.setWidth 32).toNat = b.toNat :=
  BitVec.toNat_setWidth_of_le (by decide)

end Sys2Proof.Machine

open Sys2Proof Sys2Proof.Machine

/-- Settles O8: `step_writeReg`, and the three cases of `writeReg`. -/
theorem hostRegisterWrites : Obligations.HostRegisterWrites := by
  unfold Obligations.HostRegisterWrites
  intro s idx v rest hin
  rw [step_writeReg hin]
  unfold writeReg
  split_ifs <;> rfl

/-- Settles O12: the ten registers one by one, and the indices above 9. -/
theorem resetRegisterValues : Obligations.ResetRegisterValues := by
  unfold Obligations.ResetRegisterValues
  intro idx
  rcases Nat.lt_or_ge 9 idx with h | h
  · obtain ⟨n, rfl⟩ := Nat.exists_eq_add_of_le' h
    rfl
  · interval_cases idx <;> rfl

/-- Settles O9: the value read is `regValue`, which widens an 8-bit register's byte form to 32 bits. -/
theorem hostRegisterReads : Obligations.HostRegisterReads := by
  unfold Obligations.HostRegisterReads
  intro s idx rest hin hdefined
  have hstep : step s = .next { s with inputs := rest, readData := regValue s idx } := by
    rw [step_readReg hin, readReg, if_neg hdefined]
    rfl
  refine ⟨regValue s idx, hstep, ?cmd, ?config, ?status, ?errcode, ?streamCfg, ?statMaxw, ?statFinalw, ?inLen, ?outLen,
    ?phase, ?above⟩ <;> intro hidx
  case above =>
    obtain ⟨n, rfl⟩ := Nat.exists_eq_add_of_le' hidx
    rfl
  all_goals subst hidx
  case cmd | inLen | outLen => rfl
  case config | streamCfg | statMaxw | statFinalw => exact toNat_widenByte _
  case status => exact (toNat_widenByte _).trans s.status.toNat_toByte
  case errcode => exact (toNat_widenByte _).trans (toNat_errcodeByte s.errcode)
  case phase => exact (toNat_widenByte _).trans (toNat_phaseByte s.phase)

/-- Settles O54: with `BUSY = 0` only a host's move is left, and its frame keeps the results. -/
theorem resultsStayUntilCommand : Obligations.ResultsStayUntilCommand := by
  unfold Obligations.ResultsStayUntilCommand
  intro s t hidle hstep hcmd hreset hissue
  cases step_cases hstep with
  | hostMove rest _ hmove =>
    rw [hmove.frame]
    exact ⟨rfl, rfl, rfl, rfl, rfl, rfl, rfl, rfl⟩
  | reset rest hin _ => simp [hin] at hreset
  | command v rest hin _ => exact absurd (by simp [hin]) (hcmd v)
  | controller l rest _ hbusy _ _ => simp [hidle] at hbusy
  | issued w rest hin ops _ => exact absurd (by simp [hin]) (hissue w)
end

section
/-! What the operations write, whatever they are given: emission and packing (`Emits`), the decoder's cursor; and the
flags of STATUS with ERRCODE and PHASE under each event (10_state.md R22, R23, R40). -/

namespace Sys2Proof.Machine

/-! ## A property of the states in which an operation ends -/

/-- `Q` holds of the state in which an operation's pseudocode ends, be it a normal end or a raise. -/
def Res.All {α : Type} (Q : State → Prop) : Res α → Prop
  | .ok _ s => Q s
  | .raise _ s => Q s
  | .undef => True

variable {α β : Type} {Q R : State → Prop} {s t u : State}

theorem Res.All.mono {r : Res α} (h : r.All Q) (hQR : ∀ u, Q u → R u) : r.All R := by
  cases r with
  | ok a u => exact hQR u h
  | raise e u => exact hQR u h
  | undef => trivial

theorem Res.All.bind {r : Res α} {f : α → State → Res β} (h : r.All Q) (hraise : ∀ u, Q u → R u)
    (hok : ∀ a u, Q u → (f a u).All R) : (resBind r f).All R := by
  cases r with
  | ok a u => exact hok a u h
  | raise e u => exact hraise u h
  | undef => trivial

theorem Res.All.of_ok {r : Res α} {a : α} (h : r.All Q) (hr : r = .ok a t) : Q t := by
  rw [hr] at h
  exact h

/-- The state after the step that an operation is. -/
theorem Res.All.of_finish {r : Res α} {k : α → State → State} (h : r.All Q) (hraise : ∀ e u, Q u → R (abort e u))
    (hok : ∀ a u, Q u → R (k a u)) (hnext : finish r k = .next t) : R t := by
  rcases finish_eq_next hnext with ⟨a, u, rfl, rfl⟩ | ⟨e, u, rfl, rfl⟩
  · exact hok a u h
  · exact hraise e u h

/-! ## The three forms of an operation's step -/

/-- An operation that runs where `c` holds and is refused elsewhere. -/
theorem guarded_eq_next {c : Prop} [Decidable c] {r : Res Unit} {q : Refusal}
    (h : (if c then finishUnit r else .refused q) = .next t) : c ∧ finishUnit r = .next t := by
  split_ifs at h with hc
  exact ⟨hc, h⟩

/-- A code class runs in the decoder's phases only. -/
theorem runClass_eq_next {c : CodeClass} {k : Code31} {r : Res Unit} (h : runClass c k r s = .next t) :
    decoding s = true ∧ finishUnit r = .next t := by
  unfold runClass at h
  split_ifs at h with hd hc
  exact ⟨by simpa using hd, h⟩

/-- A write of CMD is ignored while `BUSY = 1` (45_control.md R193). -/
theorem command_eq_next (h : (if s.status.busy then .next s else .next u : Host.Outcome State Fault Refusal) = .next t) :
    t = s ∨ s.status.busy = false ∧ t = u := by
  split at h <;> cases h
  next => exact .inl rfl
  next hbusy => exact .inr ⟨by simpa using hbusy, rfl⟩

/-! ## Emission and packing -/

/-- From `s` to `t` only the output, the packer and the width statistic may have changed, and a canonical OUT_BUF stays
so. -/
def Emits (s t : State) : Prop :=
  (Memory.wf s.outBuf → Memory.wf t.outBuf) ∧
  t = { s with
    outBuf := t.outBuf, outLen := t.outLen, draws := t.draws, acc := t.acc, nbits := t.nbits, maxw := t.maxw }

theorem Emits.refl (s : State) : Emits s s := ⟨id, rfl⟩

theorem Emits.trans (h1 : Emits s t) (h2 : Emits t u) : Emits s u := by
  obtain ⟨hbuf1, hframe1⟩ := h1
  obtain ⟨hbuf2, hframe2⟩ := h2
  exact ⟨hbuf2 ∘ hbuf1, by rw [hframe2, hframe1]⟩

theorem appendOut_emits (b : Byte) (s : State) : Emits s (appendOut b s) := by
  unfold appendOut
  simp only []
  split_ifs <;> exact ⟨memWrite_wf _ b, rfl⟩

theorem emit_emits (b : Byte) (s : State) : (emit b s).All (Emits s) := by
  rcases emit_cases b s with ⟨-, he⟩ | ⟨-, he⟩ <;> rw [he]
  · exact .refl s
  · exact appendOut_emits b s

theorem emitAll_emits (bs : Symbols) (s : State) : (emitAll bs s).All (Emits s) := by
  induction bs generalizing s with
  | nil => exact .refl s
  | cons b rest ih => exact (emit_emits b s).bind (fun _ => id) fun _ u hu => (ih u).mono fun _ => hu.trans

theorem peel_emits (fuel v n : Nat) (s : State) : (peel fuel v n s).All (Emits s) := by
  induction fuel generalizing v n s with
  | zero => exact ⟨id, rfl⟩
  | succ fuel ih =>
    unfold peel
    split
    · exact (emit_emits _ s).bind (fun _ => id) fun _ u hu => (ih _ _ u).mono fun _ => hu.trans
    · exact ⟨id, rfl⟩

theorem bwPush_emits (code width : Nat) (s : State) : (bwPush code width s).All (Emits s) := by
  unfold bwPush
  split
  · exact .refl s
  · exact peel_emits _ _ _ s

theorem bwFlush_emits (s : State) : (bwFlush s).All (Emits s) := by
  unfold bwFlush
  split
  · exact .refl s
  · exact (emit_emits _ s).bind (fun _ => id) fun _ u hu => hu.trans ⟨id, rfl⟩

theorem hdrWrite_emits (m : Bool) (b : Nat) (s : State) : (hdrWrite m b s).All (Emits s) := by
  unfold hdrWrite
  split
  · exact .refl s
  · exact emitAll_emits _ s

theorem pushMatch_emits (s : State) : (pushMatch s).All (Emits s) := by
  unfold pushMatch
  split
  · trivial
  · exact (bwPush_emits _ _ s).bind (fun _ => id) fun _ u hu => hu.trans ⟨id, rfl⟩

/-- The match's code at the end of the input, if a match is left (43_encoder.md R153). -/
theorem lastMatch_emits (s : State) : (if s.w = [] then Res.ok () s else pushMatch s).All (Emits s) := by
  split
  · exact .refl s
  · exact pushMatch_emits s

/-! ## Reads of the input -/

/-- HDR_READ writes nothing. -/
theorem hdrRead_same (s : State) : (hdrRead s).All (· = s) := by
  unfold hdrRead
  simp only []
  split_ifs <;> rfl

/-- From `s` to `t` only the decoder's cursor may have changed. -/
def CursorMoved (s t : State) : Prop := t = { s with byteIndex := t.byteIndex, bitOffset := t.bitOffset }

theorem brPull_cursorMoved (width : Nat) (s : State) : (brPull width s).All (CursorMoved s) := by
  unfold brPull
  split
  · rfl
  · simp only []
    split
    · rfl
    · unfold setCursor
      split <;> rfl

/-! ## The effect of a code -/

/-- The code of a known entry, or no entry to read. -/
theorem codeKnown_cases (k : Code31) (s : State) :
    codeKnown k s = .undef ∨ ∃ entry, codeKnown k s = takeEntry entry s := by
  unfold codeKnown
  split
  · exact .inr ⟨_, rfl⟩
  · exact .inl rfl

/-- The next code's entry, made of the previous one if there is one. -/
theorem codeKwkwk_cases (s : State) : codeKwkwk s = .undef ∨ ∃ entry, codeKwkwk s = takeEntry entry s := by
  unfold codeKwkwk
  split
  · exact .inr ⟨_, rfl⟩
  · exact .inl rfl

/-- What a pulled code can do, its seven classes taken together (30_encoding.md R76, 44_decoder.md R172 to R174). -/
theorem takeCode_cases (k : Code31) (s : State) :
    (∃ e, takeCode k s = .raise e s) ∨ (∃ b, takeCode k s = codeFirstLiteral b s) ∨ takeCode k s = .undef ∨
      ∃ entry, takeCode k s = takeEntry entry s := by
  unfold takeCode
  cases classify (codeCtx s k) k with
  | zeroReject | clear | firstBad | unknown => exact .inl ⟨_, rfl⟩
  | firstLiteral => exact .inr (.inl ⟨_, rfl⟩)
  | known => exact .inr (.inr (codeKnown_cases k s))
  | kwkwk => exact .inr (.inr (codeKwkwk_cases s))

/-! ## STATUS, ERRCODE and PHASE -/

/-- The registers that `FlagsAgree` speaks of. -/
def flagRegs (s : State) : Status × Option ErrKind × Phase × Bool × Byte × Byte :=
  (s.status, s.errcode, s.phase, s.starting, s.statMaxw, s.statFinalw)

theorem FlagsAgree.congr (h : FlagsAgree s) (e : flagRegs t = flagRegs s) : FlagsAgree t := by
  simp only [flagRegs, Prod.mk.injEq] at e
  obtain ⟨hstatus, herr, hphase, hstart, hmaxw, hfinalw⟩ := e
  obtain ⟨h1, h2, h3, h4, h5, h6, h7, h8⟩ := h
  constructor <;> simpa only [hstatus, herr, hphase, hstart, hmaxw, hfinalw]

theorem Phase.not_ended_of_running {p : Phase} (h : p.running = true) :
    ¬ (p = .encFlushed ∨ p = .decDone) ∧ p ≠ .error := by
  revert h
  cases p <;> decide

/-- In a running phase nothing is done, nothing failed, and the statistics are 0. -/
theorem FlagsAgree.of_running (h : FlagsAgree s) (hrun : s.phase.running = true) :
    s.status.busy = true ∧ s.status.done ≠ true ∧ s.status.err ≠ true ∧ s.errcode.isSome ≠ true ∧
      s.statMaxw = 0 ∧ s.statFinalw = 0 := by
  have hbusy : s.status.busy = true := h.busy_iff.trans hrun
  obtain ⟨hdone, herr⟩ := Phase.not_ended_of_running hrun
  exact ⟨hbusy, mt h.done_iff.1 hdone, mt h.err_iff.1 herr, mt h.errcode_iff.1 herr, h.busy_stats hbusy⟩

theorem FlagsAgree.not_starting_of_idle (h : FlagsAgree s) (hidle : s.status.busy = false) : s.starting = false := by
  have hrun : s.phase.running = false := h.busy_iff.symm.trans hidle
  refine Bool.eq_false_iff.2 fun hs => ?_
  rcases h.starting_phase hs with hp | hp <;> simp [hp, Phase.running] at hrun

/-- A running transaction may go on in another phase of its side, its start step done. -/
theorem FlagsAgree.advance {p : Phase} (h : FlagsAgree s) (hrun : s.phase.running = true) (hp : p.running = true)
    (hside : p.side = s.phase.side) (hstarted : p ≠ .decAwaitHeader) :
    FlagsAgree { s with phase := p, starting := false } := by
  obtain ⟨hbusy, hdone, herr, hcode, hstats⟩ := h.of_running hrun
  obtain ⟨hpDone, hpErr⟩ := Phase.not_ended_of_running hp
  exact ⟨hbusy.trans hp.symm, iff_of_false hdone hpDone, iff_of_false herr hpErr, iff_of_false hcode hpErr,
    fun d hd => h.dir_eq d (hside ▸ hd), nofun, fun e => absurd e hstarted, fun _ => hstats⟩

theorem flagsAgree_abort (e : ErrKind) (s : State) : FlagsAgree (abort e s) := by
  constructor <;> simp [Phase.running, Phase.side]

theorem flagsAgree_accept (d : Side) (s : State) : FlagsAgree (accept d s) := by
  cases d <;> constructor <;> simp [Phase.running, Phase.side]

theorem flagsAgree_reject (h : s.starting = false) : FlagsAgree (reject s) := by
  constructor <;> simp [Phase.running, Phase.side, h]

theorem flagsAgree_complete {d : Side} (h : s.starting = false) : FlagsAgree (complete d s) := by
  cases d <;> constructor <;> simp [Phase.running, Phase.side, h]

theorem flagsAgree_hardReset (s : State) : FlagsAgree (hardReset s) := by
  constructor <;> simp [hardReset, State.reset, Phase.running, Phase.side]

end Sys2Proof.Machine
end

section
/-! The registers of 10_state.md R21 to R25 and R40, and the lists' canonical form, under every instruction and every move
from outside. Settles O55. -/

namespace Sys2Proof.Machine

variable {s t u : State}

/-- What O55 says of a state. -/
def RegistersConsistent (s : State) : Prop := Canonical s ∧ ReservedZero s ∧ FlagsAgree s

theorem RegistersConsistent.emits (h : RegistersConsistent s) (he : Emits s t) : RegistersConsistent t := by
  obtain ⟨⟨hin, hout, hdd, hraced⟩, hres, hflags⟩ := h
  obtain ⟨hbuf, hframe⟩ := he
  rw [hframe]
  exact ⟨⟨hin, hbuf hout, hdd, hraced⟩, hres, hflags.congr rfl⟩

theorem RegistersConsistent.cursorMoved (h : RegistersConsistent s) (hc : CursorMoved s t) : RegistersConsistent t := by
  obtain ⟨hcanon, hres, hflags⟩ := h
  rw [hc]
  exact ⟨hcanon, hres, hflags.congr rfl⟩

theorem RegistersConsistent.abort (h : RegistersConsistent s) (e : ErrKind) : RegistersConsistent (abort e s) := by
  obtain ⟨⟨hin, -, hdd, hraced⟩, hres, -⟩ := h
  exact ⟨⟨hin, List.Pairwise.nil, hdd, hraced⟩, hres, flagsAgree_abort e s⟩

theorem RegistersConsistent.accept (h : RegistersConsistent s) (d : Side) : RegistersConsistent (accept d s) := by
  obtain ⟨⟨hin, hout, hdd, -⟩, hres, -⟩ := h
  exact ⟨⟨hin, hout, hdd, List.Pairwise.nil⟩, hres, flagsAgree_accept d s⟩

theorem RegistersConsistent.reject (h : RegistersConsistent s) (hs : s.starting = false) :
    RegistersConsistent (reject s) := by
  obtain ⟨hcanon, hres, -⟩ := h
  exact ⟨hcanon, hres, flagsAgree_reject hs⟩

theorem RegistersConsistent.complete (h : RegistersConsistent s) (hs : s.starting = false) (d : Side) :
    RegistersConsistent (complete d s) := by
  obtain ⟨hcanon, hres, -⟩ := h
  exact ⟨hcanon, hres, flagsAgree_complete hs⟩

theorem RegistersConsistent.clearOut (h : RegistersConsistent s) : RegistersConsistent (clearOut s) := by
  obtain ⟨⟨hin, -, hdd, hraced⟩, hres, hflags⟩ := h
  exact ⟨⟨hin, List.Pairwise.nil, hdd, hraced⟩, hres, hflags.congr rfl⟩

theorem RegistersConsistent.dictReset (h : RegistersConsistent s) (m : Bool) (d : Side) :
    RegistersConsistent (dictReset m d s) := by
  obtain ⟨⟨hin, hout, hdd, hraced⟩, hres, hflags⟩ := h
  cases d with
  | encode => exact ⟨⟨hin, hout, hdd, hraced⟩, hres, hflags.congr rfl⟩
  | decode => exact ⟨⟨hin, hout, seedDD_wf, hraced⟩, hres, hflags.congr rfl⟩

theorem RegistersConsistent.insertIfRoom (h : RegistersConsistent s) (d : Side) (key : Symbols) :
    RegistersConsistent (insertIfRoom d key s) := by
  obtain ⟨⟨hin, hout, hdd, hraced⟩, hres, hflags⟩ := h
  unfold Machine.insertIfRoom
  split
  · cases d with
    | encode => exact ⟨⟨hin, hout, hdd, hraced⟩, hres, hflags.congr rfl⟩
    | decode => exact ⟨⟨hin, hout, ddSet_wf _ key hdd, hraced⟩, hres, hflags.congr rfl⟩
  · exact ⟨⟨hin, hout, hdd, hraced⟩, hres, hflags⟩

theorem RegistersConsistent.maybeGrow (h : RegistersConsistent s) : RegistersConsistent (maybeGrow s) := by
  obtain ⟨hcanon, hres, hflags⟩ := h
  unfold Machine.maybeGrow
  split
  · exact ⟨hcanon, hres, hflags.congr rfl⟩
  · exact ⟨hcanon, hres, hflags⟩

theorem RegistersConsistent.insertThenGrow (h : RegistersConsistent s) (key : Symbols) :
    RegistersConsistent (insertThenGrow key s) := by
  unfold Machine.insertThenGrow
  split
  · exact (h.insertIfRoom .decode key).maybeGrow
  · exact h

theorem reset_reservedZero : ReservedZero State.reset := ⟨by decide, by decide⟩

theorem registersConsistent_hardReset (s : State) : RegistersConsistent (hardReset s) :=
  ⟨reset_canonical, reset_reservedZero, flagsAgree_hardReset s⟩

/-- A header byte has its reserved bits 0 (30_encoding.md R72). -/
theorem headerByte_reserved (m : Bool) (b : Width) : headerByte m b &&& 0x60#8 = 0#8 := by
  revert b
  cases m <;> decide

/-! ### Decoder -/

theorem decoding_iff : decoding s = true ↔ s.phase = .decInit ∨ s.phase = .decRunning := by
  simp [decoding]

/-- In the decoder's phases a transaction runs, started. -/
theorem FlagsAgree.of_decoding (h : FlagsAgree s) (hd : decoding s = true) :
    s.phase.running = true ∧ s.phase.side = some .decode ∧ s.starting = false := by
  have hstart := mt h.starting_phase
  rcases decoding_iff.1 hd with hp | hp <;> simp [hp, Phase.running, Phase.side] at hstart ⊢ <;> exact hstart

theorem RegistersConsistent.decInit (h : RegistersConsistent s) (hphase : s.phase = .decAwaitHeader) (m : Bool)
    (b : Width) : RegistersConsistent (decInit m b s) := by
  obtain ⟨⟨hin, hout, -, hraced⟩, ⟨hconfig, -⟩, hflags⟩ := h
  have hnext : FlagsAgree { s with phase := .decInit, starting := false } :=
    hflags.advance (by rw [hphase]; rfl) rfl (by rw [hphase]; rfl) (by decide)
  exact ⟨⟨hin, hout, seedDD_wf, hraced⟩, ⟨hconfig, headerByte_reserved m b⟩, hnext.congr rfl⟩

theorem decStart_consistent (h : RegistersConsistent s) (hphase : s.phase = .decAwaitHeader) :
    (decStart s).All RegistersConsistent := by
  refine (hdrRead_same (Machine.clearOut s)).bind (fun u hu => hu ▸ h.clearOut) fun f u hu => ?_
  subst hu
  exact h.clearOut.decInit hphase f.1 f.2

theorem takeHeader_consistent (h : RegistersConsistent s) (hphase : s.phase = .decAwaitHeader) (m : Bool) (b : Width) :
    (takeHeader m b s).All RegistersConsistent := by
  unfold takeHeader
  split
  · exact h.clearOut
  · exact h.clearOut.decInit hphase m _

theorem codeFirstLiteral_consistent (h : RegistersConsistent s) (hd : decoding s = true) (k : Byte) :
    (codeFirstLiteral k s).All RegistersConsistent := by
  obtain ⟨hrun, hside, -⟩ := h.2.2.of_decoding hd
  refine (emitAll_emits [k] s).bind (fun u hu => h.emits hu) fun _ u hu => ?_
  obtain ⟨hcanon, hres, hflags⟩ := h.emits hu
  have hp : u.phase = s.phase := by rw [hu.2]
  have hstart : u.starting = false := (hflags.of_decoding (by simpa [decoding, hp] using hd)).2.2
  have hnext : FlagsAgree { u with phase := .decRunning, starting := false } :=
    hflags.advance (by rw [hp]; exact hrun) rfl (by rw [hp, hside]; rfl) (by decide)
  exact ⟨hcanon, hres, hnext.congr (by simp [flagRegs, hstart])⟩

theorem takeEntry_consistent (h : RegistersConsistent s) (entry : Symbols) :
    (takeEntry entry s).All RegistersConsistent := by
  refine (emitAll_emits entry s).bind (fun u hu => h.emits hu) fun _ u hu => ?_
  split
  next d x _ _ =>
    obtain ⟨hcanon, hres, hflags⟩ := (h.emits hu).insertThenGrow (d ++ [x])
    exact ⟨hcanon, hres, hflags.congr rfl⟩
  next => trivial

theorem codeKnown_consistent (h : RegistersConsistent s) (k : Code31) : (codeKnown k s).All RegistersConsistent := by
  rcases codeKnown_cases k s with hr | ⟨entry, hr⟩ <;> rw [hr]
  · trivial
  · exact takeEntry_consistent h entry

theorem codeKwkwk_consistent (h : RegistersConsistent s) : (codeKwkwk s).All RegistersConsistent := by
  rcases codeKwkwk_cases s with hr | ⟨entry, hr⟩ <;> rw [hr]
  · trivial
  · exact takeEntry_consistent h entry

theorem takeCode_consistent (h : RegistersConsistent s) (hd : decoding s = true) (k : Code31) :
    (takeCode k s).All RegistersConsistent := by
  rcases takeCode_cases k s with ⟨e, hr⟩ | ⟨b, hr⟩ | hr | ⟨entry, hr⟩ <;> rw [hr]
  · exact h
  · exact codeFirstLiteral_consistent h hd b
  · trivial
  · exact takeEntry_consistent h entry

theorem decCode_consistent (h : RegistersConsistent s) (hd : decoding s = true) :
    (decCode s).All RegistersConsistent := by
  refine (brPull_cursorMoved _ s).bind (fun u hu => h.cursorMoved hu) fun r u hu => ?_
  have hu' := h.cursorMoved hu
  have hdu : decoding u = true := by rw [hu]; exact hd
  cases r with
  | none => exact hu'.complete (hu'.2.2.of_decoding hdu).2.2 .decode
  | some k => exact takeCode_consistent (s := noteWidth u) (hu'.emits ⟨id, rfl⟩) hdu k

/-! ### Encoder -/

theorem encoding_iff : encoding s = true ↔ (s.phase = .encEmpty ∨ s.phase = .encMatching) ∧ s.starting = false := by
  simp [encoding]

theorem RegistersConsistent.encInit (h : RegistersConsistent s) (m : Bool) (e : Width) :
    RegistersConsistent (encInit m e s) := by
  obtain ⟨⟨hin, -, hdd, hraced⟩, hres, hflags⟩ := h
  exact ⟨⟨hin, List.Pairwise.nil, hdd, hraced⟩, hres, hflags.congr rfl⟩

theorem encStart_consistent (h : RegistersConsistent s) (hphase : s.phase = .encEmpty) :
    (encStart s).All RegistersConsistent := by
  unfold encStart
  simp only []
  split
  · exact h
  · refine (hdrWrite_emits _ _ _).bind (fun u hu => (h.encInit _ _).emits hu) fun _ u hu => ?_
    obtain ⟨hcanon, ⟨hconfig, -⟩, hflags⟩ := (h.encInit _ _).emits hu
    have hp : u.phase = .encEmpty := by rw [hu.2]; exact hphase
    have hnext : FlagsAgree { u with phase := .encEmpty, starting := false } :=
      hflags.advance (by rw [hp]; rfl) rfl (by rw [hp]) (by decide)
    exact ⟨hcanon, ⟨hconfig, headerByte_reserved _ _⟩, hnext.congr rfl⟩

/-- A symbol taken into the match: the encoder goes on in ENC_MATCHING. -/
theorem RegistersConsistent.matching (h : RegistersConsistent s) (he : encoding s = true) (w : Symbols) :
    RegistersConsistent { s with w := w, phase := .encMatching } := by
  obtain ⟨hcanon, hres, hflags⟩ := h
  obtain ⟨hphase, hstart⟩ := encoding_iff.1 he
  have hnext : FlagsAgree { s with phase := .encMatching, starting := false } := by
    refine hflags.advance ?_ rfl ?_ (by decide) <;> rcases hphase with hp | hp <;> rw [hp] <;> rfl
  exact ⟨hcanon, hres, hnext.congr (by simp [flagRegs, hstart])⟩

theorem encSymbol_consistent (h : RegistersConsistent s) (he : encoding s = true) :
    (encSymbol s).All RegistersConsistent := by
  have h1 : RegistersConsistent { s with inIdx := s.inIdx + 1 } := ⟨h.1, h.2.1, h.2.2.congr rfl⟩
  unfold encSymbol
  simp only []
  split
  · exact h1.matching he _
  · refine (pushMatch_emits _).bind (fun u hu => h1.emits hu) fun _ u hu => ?_
    refine ((h1.emits hu).maybeGrow.insertIfRoom .encode _).matching ?_ _
    rw [hu.2]
    simpa [encoding] using he

theorem encFinish_consistent (h : RegistersConsistent s) (he : encoding s = true) :
    (encFinish s).All RegistersConsistent := by
  refine (lastMatch_emits s).bind (fun u hu => h.emits hu) fun _ u hu => ?_
  refine (bwFlush_emits u).bind (fun v hv => (h.emits hu).emits hv) fun _ v hv => ?_
  refine ((h.emits hu).emits hv).complete ?_ .encode
  rw [hv.2, hu.2]
  exact (encoding_iff.1 he).2

/-! ### Every instruction -/

/-- The step of an operation that returns nothing. -/
theorem consistent_of_finishUnit {r : Res Unit} (h : r.All RegistersConsistent) (hnext : finishUnit r = .next t) :
    RegistersConsistent t :=
  h.of_finish (fun e _ hu => hu.abort e) (fun _ _ hu => hu) hnext

theorem exec_keeps_consistent {i : Instr} (h : RegistersConsistent s) (hnext : exec i s = .next t) :
    RegistersConsistent t := by
  have hemits : ∀ {r : Res Unit}, r.All (Emits s) → finishUnit r = .next t → RegistersConsistent t :=
    fun hr => consistent_of_finishUnit (hr.mono fun _ => h.emits)
  have hresult : ∀ {u : State} (x : UnitResult), RegistersConsistent u → RegistersConsistent { u with result := x } :=
    fun x hu => ⟨hu.1, hu.2.1, hu.2.2.congr rfl⟩
  cases i with
  | encode =>
    rcases command_eq_next hnext with rfl | ⟨-, rfl⟩
    · exact h
    · exact h.accept .encode
  | decode =>
    rcases command_eq_next hnext with rfl | ⟨-, rfl⟩
    · exact h
    · exact h.accept .decode
  | illegalCmd op =>
    rcases command_eq_next hnext with rfl | ⟨hidle, rfl⟩
    · exact h
    · exact h.reject (h.2.2.not_starting_of_idle hidle)
  | hdrWrite => exact hemits (hdrWrite_emits _ _ s) hnext
  | bwPush => exact hemits (bwPush_emits _ _ s) hnext
  | bwFlush => exact hemits (bwFlush_emits s) hnext
  | hdrRead =>
    exact (hdrRead_same s).of_finish (fun e u hu => by rw [hu]; exact h.abort e)
      (fun a u hu => by rw [hu]; exact hresult _ h) hnext
  | brPull =>
    exact (brPull_cursorMoved _ s).of_finish (fun e u hu => (h.cursorMoved hu).abort e)
      (fun a u hu => hresult _ (h.cursorMoved hu)) hnext
  | dictReset => cases hnext; exact h.dictReset _ _
  | encDictLookup => cases hnext; exact hresult _ h
  | decDictLookup => cases hnext; exact hresult _ h
  | dictInsertIfRoom => cases hnext; exact hresult _ (h.insertIfRoom _ _)
  | dictMaybeGrow => cases hnext; exact h.maybeGrow
  | encStart =>
    obtain ⟨hc, hnext⟩ := guarded_eq_next hnext
    exact consistent_of_finishUnit (encStart_consistent h hc.1) hnext
  | encSymbol =>
    obtain ⟨hc, hnext⟩ := guarded_eq_next hnext
    exact consistent_of_finishUnit (encSymbol_consistent h hc.1) hnext
  | encFinish =>
    obtain ⟨hc, hnext⟩ := guarded_eq_next hnext
    exact consistent_of_finishUnit (encFinish_consistent h hc.1) hnext
  | decStart =>
    obtain ⟨hc, hnext⟩ := guarded_eq_next hnext
    exact consistent_of_finishUnit (decStart_consistent h hc) hnext
  | decCode =>
    obtain ⟨hc, hnext⟩ := guarded_eq_next hnext
    exact consistent_of_finishUnit (decCode_consistent h hc) hnext
  | header m b =>
    obtain ⟨hc, hnext⟩ := guarded_eq_next hnext
    exact consistent_of_finishUnit (takeHeader_consistent h hc m b) hnext
  | codeZeroReject | codeClear | codeFirstBad k | codeUnknown k =>
    obtain ⟨-, hnext⟩ := runClass_eq_next hnext
    cases hnext
    exact h.abort _
  | codeFirstLiteral k =>
    obtain ⟨hd, hnext⟩ := runClass_eq_next hnext
    exact consistent_of_finishUnit (codeFirstLiteral_consistent h hd k) hnext
  | codeKnown k =>
    obtain ⟨-, hnext⟩ := runClass_eq_next hnext
    exact consistent_of_finishUnit (codeKnown_consistent h k) hnext
  | codeKwkwk k =>
    obtain ⟨-, hnext⟩ := runClass_eq_next hnext
    exact consistent_of_finishUnit (codeKwkwk_consistent h) hnext

theorem execIllegalWord_keeps_consistent {e : DecodeReject} (h : RegistersConsistent s)
    (hnext : execIllegalWord e s = .next t) : RegistersConsistent t := by
  unfold execIllegalWord at hnext
  split at hnext
  · cases hnext; exact h.clearOut.abort _
  · cases hnext

theorem RegistersConsistent.hostMove (h : RegistersConsistent s) (hmove : HostMove s t) : RegistersConsistent t := by
  obtain ⟨⟨hin, hout, hdd, hraced⟩, ⟨hconfig, hstream⟩, hflags⟩ := h
  have hflags' : FlagsAgree t := hflags.congr (by rw [hmove.frame]; rfl)
  refine ⟨?_, ?_, hflags'⟩
  · cases hmove with
    | none => exact ⟨hin, hout, hdd, hraced⟩
    | writeReg idx v => simpa [Canonical] using ⟨hin, hout, hdd, hraced⟩
    | readReg idx => simpa [Canonical] using ⟨hin, hout, hdd, hraced⟩
    | readOut i => simpa [Canonical] using ⟨hin, hout, hdd, hraced⟩
    | writeIn i b =>
      unfold Machine.writeIn
      simp only []
      split_ifs
      · exact ⟨memWrite_wf _ b hin, hout, hdd, assocSet_wf _ _ hraced⟩
      · exact ⟨memWrite_wf _ b hin, hout, hdd, hraced⟩
  · cases hmove with
    | none => exact ⟨hconfig, hstream⟩
    | writeReg idx v =>
      unfold Machine.writeReg
      split_ifs
      · exact ⟨by simp [BitVec.and_assoc], hstream⟩
      · exact ⟨hconfig, hstream⟩
      · exact ⟨hconfig, hstream⟩
    | readReg idx => simpa [ReservedZero] using ⟨hconfig, hstream⟩
    | readOut i => simpa [ReservedZero] using ⟨hconfig, hstream⟩
    | writeIn i b => simpa [ReservedZero] using ⟨hconfig, hstream⟩

theorem step_keeps_consistent (h : RegistersConsistent s) (hstep : step s = .next t) : RegistersConsistent t := by
  have hpop : ∀ (rest : List Input) (ops : Operands), RegistersConsistent { s with inputs := rest, operands := ops } :=
    fun rest ops => ⟨h.1, h.2.1, h.2.2.congr rfl⟩
  cases step_cases hstep with
  | hostMove rest _ hmove => exact (hpop rest s.operands).hostMove hmove
  | reset rest _ ht => exact ht ▸ registersConsistent_hardReset _
  | command v rest _ hexec => exact exec_keeps_consistent (hpop rest s.operands) hexec
  | controller l rest _ _ _ hexec => exact exec_keeps_consistent (hpop rest s.operands) hexec
  | issued w rest _ ops hexec =>
    rcases hexec with ⟨i, hexec⟩ | hexec
    · exact exec_keeps_consistent (hpop rest ops) hexec
    · exact execIllegalWord_keeps_consistent (hpop rest ops) hexec

end Sys2Proof.Machine

open Sys2Proof Sys2Proof.Machine

/-- Settles O55: every way of taking a step keeps `RegistersConsistent`. -/
theorem stepKeepsRegistersConsistent : Obligations.StepKeepsRegistersConsistent := by
  unfold Obligations.StepKeepsRegistersConsistent
  intro s t hcanon hres hflags hstep
  exact step_keeps_consistent ⟨hcanon, hres, hflags⟩ hstep
end

section
/-! The host's side of the state: what no operation writes (10_state.md R27, 20_memory.md R65). -/

namespace Sys2Proof.Machine

variable {s t u : State}

/-- The parameters, the pending moves, the registers and the buffer that the host writes, and what it latched. -/
def hostSide (s : State) : Params × List Input × Byte × Word32 × Memory × Nat × Word32 × Operands :=
  (s.params, s.inputs, s.config, s.inLen, s.inBuf, s.inDraw, s.readData, s.operands)

def SameHostSide (s t : State) : Prop := hostSide t = hostSide s

theorem SameHostSide.trans (h1 : SameHostSide s t) (h2 : SameHostSide t u) : SameHostSide s u :=
  Eq.trans h2 h1

theorem Emits.sameHostSide (h : Emits s t) : SameHostSide s t := by
  rw [h.2]
  rfl

theorem CursorMoved.sameHostSide (h : CursorMoved s t) : SameHostSide s t := by
  rw [h]
  rfl

theorem insertIfRoom_sameHostSide (d : Side) (key : Symbols) (s : State) : SameHostSide s (insertIfRoom d key s) := by
  simp [SameHostSide, hostSide]

theorem maybeGrow_sameHostSide (s : State) : SameHostSide s (maybeGrow s) := by
  simp [SameHostSide, hostSide]

theorem dictReset_sameHostSide (m : Bool) (d : Side) (s : State) : SameHostSide s (dictReset m d s) := by
  simp [SameHostSide, hostSide]

theorem insertThenGrow_sameHostSide (key : Symbols) (s : State) : SameHostSide s (insertThenGrow key s) := by
  unfold insertThenGrow
  split
  · exact (insertIfRoom_sameHostSide .decode key s).trans (maybeGrow_sameHostSide _)
  · rfl

theorem decStart_sameHostSide (s : State) : (decStart s).All (SameHostSide s) :=
  (hdrRead_same (clearOut s)).bind (fun _ hu => hu ▸ rfl) fun _ _ hu => hu ▸ rfl

theorem takeHeader_sameHostSide (m : Bool) (b : Width) (s : State) : (takeHeader m b s).All (SameHostSide s) := by
  unfold takeHeader
  split <;> rfl

theorem takeEntry_sameHostSide (entry : Symbols) (s : State) : (takeEntry entry s).All (SameHostSide s) := by
  refine (emitAll_emits entry s).bind (fun _ hu => hu.sameHostSide) fun _ u hu => ?_
  split
  · exact hu.sameHostSide.trans (insertThenGrow_sameHostSide _ u)
  · trivial

theorem codeFirstLiteral_sameHostSide (k : Byte) (s : State) : (codeFirstLiteral k s).All (SameHostSide s) :=
  (emitAll_emits [k] s).bind (fun _ hu => hu.sameHostSide) fun _ _ hu => hu.sameHostSide

theorem codeKnown_sameHostSide (k : Code31) (s : State) : (codeKnown k s).All (SameHostSide s) := by
  rcases codeKnown_cases k s with hr | ⟨entry, hr⟩ <;> rw [hr]
  · trivial
  · exact takeEntry_sameHostSide entry s

theorem codeKwkwk_sameHostSide (s : State) : (codeKwkwk s).All (SameHostSide s) := by
  rcases codeKwkwk_cases s with hr | ⟨entry, hr⟩ <;> rw [hr]
  · trivial
  · exact takeEntry_sameHostSide entry s

theorem takeCode_sameHostSide (k : Code31) (s : State) : (takeCode k s).All (SameHostSide s) := by
  rcases takeCode_cases k s with ⟨e, hr⟩ | ⟨b, hr⟩ | hr | ⟨entry, hr⟩ <;> rw [hr]
  · rfl
  · exact codeFirstLiteral_sameHostSide b s
  · trivial
  · exact takeEntry_sameHostSide entry s

theorem decCode_sameHostSide (s : State) : (decCode s).All (SameHostSide s) := by
  refine (brPull_cursorMoved _ s).bind (fun _ hu => hu.sameHostSide) fun r u hu => ?_
  cases r with
  | none => exact hu.sameHostSide
  | some k => exact (takeCode_sameHostSide k (noteWidth u)).mono fun _ => hu.sameHostSide.trans

theorem encStart_sameHostSide (s : State) : (encStart s).All (SameHostSide s) := by
  unfold encStart
  simp only []
  split
  · rfl
  · exact (hdrWrite_emits _ _ _).bind (fun _ hu => hu.sameHostSide) fun _ _ hu => hu.sameHostSide

theorem encSymbol_sameHostSide (s : State) : (encSymbol s).All (SameHostSide s) := by
  unfold encSymbol
  simp only []
  split
  · rfl
  · exact (pushMatch_emits _).bind (fun _ hu => hu.sameHostSide) fun _ u hu =>
      (hu.sameHostSide.trans (maybeGrow_sameHostSide u)).trans (insertIfRoom_sameHostSide _ _ _)

theorem encFinish_sameHostSide (s : State) : (encFinish s).All (SameHostSide s) :=
  (lastMatch_emits s).bind (fun _ hu => hu.sameHostSide) fun _ u hu =>
    (bwFlush_emits u).bind (fun _ hv => (hu.trans hv).sameHostSide) fun _ _ hv => (hu.trans hv).sameHostSide

theorem sameHostSide_of_finish {α : Type} {r : Res α} {k : α → State → State} (h : r.All (SameHostSide s))
    (hk : ∀ a u, SameHostSide u (k a u)) (hnext : finish r k = .next t) : SameHostSide s t :=
  h.of_finish (fun _ _ hu => hu) (fun a u hu => hu.trans (hk a u)) hnext

theorem sameHostSide_of_finishUnit {r : Res Unit} (h : r.All (SameHostSide s)) (hnext : finishUnit r = .next t) :
    SameHostSide s t :=
  sameHostSide_of_finish h (fun _ _ => rfl) hnext

theorem exec_sameHostSide {i : Instr} (hnext : exec i s = .next t) : SameHostSide s t := by
  have hemits : ∀ {r : Res Unit}, r.All (Emits s) → finishUnit r = .next t → SameHostSide s t :=
    fun hr => sameHostSide_of_finishUnit (hr.mono fun _ => Emits.sameHostSide)
  have hguarded : ∀ {c : Prop} [Decidable c] {r : Res Unit} {q : Refusal}, r.All (SameHostSide s) →
      (if c then finishUnit r else .refused q) = .next t → SameHostSide s t :=
    fun hr h => sameHostSide_of_finishUnit hr (guarded_eq_next h).2
  have hclass : ∀ {c : CodeClass} {k : Code31} {r : Res Unit}, r.All (SameHostSide s) → runClass c k r s = .next t →
      SameHostSide s t :=
    fun hr h => sameHostSide_of_finishUnit hr (runClass_eq_next h).2
  cases i with
  | encode | decode | illegalCmd op => rcases command_eq_next hnext with rfl | ⟨-, rfl⟩ <;> rfl
  | hdrWrite => exact hemits (hdrWrite_emits _ _ s) hnext
  | bwPush => exact hemits (bwPush_emits _ _ s) hnext
  | bwFlush => exact hemits (bwFlush_emits s) hnext
  | hdrRead =>
    refine sameHostSide_of_finish ((hdrRead_same s).mono fun _ hu => hu ▸ rfl) ?_ hnext
    exact fun _ _ => rfl
  | brPull =>
    refine sameHostSide_of_finish ((brPull_cursorMoved _ s).mono fun _ => CursorMoved.sameHostSide) ?_ hnext
    exact fun _ _ => rfl
  | dictReset => cases hnext; exact dictReset_sameHostSide _ _ s
  | encDictLookup | decDictLookup => cases hnext; rfl
  | dictInsertIfRoom => cases hnext; exact insertIfRoom_sameHostSide _ _ s
  | dictMaybeGrow => cases hnext; exact maybeGrow_sameHostSide s
  | encStart => exact hguarded (encStart_sameHostSide s) hnext
  | encSymbol => exact hguarded (encSymbol_sameHostSide s) hnext
  | encFinish => exact hguarded (encFinish_sameHostSide s) hnext
  | decStart => exact hguarded (decStart_sameHostSide s) hnext
  | decCode => exact hguarded (decCode_sameHostSide s) hnext
  | codeZeroReject | codeClear | codeFirstBad k | codeUnknown k =>
    obtain ⟨-, hnext⟩ := runClass_eq_next hnext
    cases hnext
    rfl
  | codeFirstLiteral k => exact hclass (codeFirstLiteral_sameHostSide k s) hnext
  | codeKnown k => exact hclass (codeKnown_sameHostSide k s) hnext
  | codeKwkwk k => exact hclass (codeKwkwk_sameHostSide s) hnext
  | header m b => exact hguarded (takeHeader_sameHostSide m b s) hnext

end Sys2Proof.Machine
end

section
/-! The two tables of the dictionary as lists: the rules on their keys (10_state.md R36, R37), seeded and after an
insertion; and the dictionary unit's registers (42_dictionary.md R135). -/

namespace Sys2Proof.Machine

variable {s t : State} {m : Bool} {next : Nat}

theorem firstAssignable_ge (m : Bool) : 256 ≤ (firstAssignable m).toNat := by
  cases m <;> decide

theorem firstAssignable_le (m : Bool) : (firstAssignable m).toNat ≤ 2 ^ 9 := by
  cases m <;> decide

/-- No assignable code is CLEAR in block mode. -/
theorem firstAssignable_gt_clear (hm : m = true) : 256 < (firstAssignable m).toNat := by
  subst hm
  decide

/-! ## The encode table -/

/-- The rules on the keys and codes of `S.ED` (10_state.md R37), those of `EncInv`. -/
structure EncTableWf (m : Bool) (next : Nat) (ed : EncTable) : Prop where
  codes_below : ∀ key c, edGet ed key = some c → c.toNat < next
  never_clear : ∀ key c, edGet ed key = some c → m = true → c.toNat ≠ 256
  literals : ∀ b : Byte, edGet ed [b] = some (b.setWidth 32)
  keys_nonempty : edGet ed [] = none
  prefixes : ∀ p b c, edGet ed (p ++ [b]) = some c → p ≠ [] → (edGet ed p).isSome = true
  codes_distinct : ∀ key key' c, edGet ed key = some c → edGet ed key' = some c → key = key'

theorem EncInv.table (h : EncInv s) : EncTableWf s.blockMode s.nextCode.toNat s.ed :=
  ⟨h.codes_below, h.never_clear, h.literals, h.keys_nonempty, h.prefixes, h.codes_distinct⟩

theorem encInv_of_table (htable : EncTableWf s.blockMode s.nextCode.toNat s.ed) (packer : PackerWf s)
    (empty_iff : s.w = [] ↔ s.phase = .encEmpty) (match_known : s.w ≠ [] → (edGet s.ed s.w).isSome = true)
    (index_le : s.inIdx.toNat ≤ s.sampledInLen.toNat) : EncInv s where
  packer := packer
  codes_below := htable.codes_below
  never_clear := htable.never_clear
  literals := htable.literals
  keys_nonempty := htable.keys_nonempty
  prefixes := htable.prefixes
  codes_distinct := htable.codes_distinct
  empty_iff := empty_iff
  match_known := match_known
  index_le := index_le

/-- The seeded keys are the 256 literals. -/
theorem edGet_seed_eq_some {key : Symbols} {c : Word32} (h : edGet seedED key = some c) :
    ∃ b : Byte, key = [b] ∧ c = b.setWidth 32 := by
  by_cases hlen : key.length = 1
  · obtain ⟨b, rfl⟩ := List.length_eq_one_iff.1 hlen
    rw [edGet_seed] at h
    exact ⟨b, rfl, (Option.some.inj h).symm⟩
  · rw [edGet_seed_other hlen] at h
    cases h

theorem literalCode_lt (b : Byte) : (b.setWidth 32 : Word32).toNat < 256 := by
  rw [toNat_widenByte]
  exact b.isLt

theorem encTableWf_seed (m : Bool) : EncTableWf m (firstAssignable m).toNat seedED where
  codes_below key c h := by
    obtain ⟨b, -, rfl⟩ := edGet_seed_eq_some h
    exact (literalCode_lt b).trans_le (firstAssignable_ge m)
  never_clear key c h _ := by
    obtain ⟨b, -, rfl⟩ := edGet_seed_eq_some h
    exact (literalCode_lt b).ne
  literals := edGet_seed
  keys_nonempty := edGet_seed_other (by simp)
  prefixes p b c h hp := by
    obtain ⟨b', hkey, -⟩ := edGet_seed_eq_some h
    exact absurd (List.append_eq_singleton_iff.1 hkey) (by simp [hp])
  codes_distinct key key' c h h' := by
    obtain ⟨b, rfl, rfl⟩ := edGet_seed_eq_some h
    obtain ⟨b', rfl, hb⟩ := edGet_seed_eq_some h'
    have hnat := congrArg BitVec.toNat hb
    rw [toNat_widenByte, toNat_widenByte] at hnat
    rw [BitVec.eq_of_toNat_eq hnat]

/-- A read of the table after an insertion. -/
theorem edGet_set_eq_some {ed : EncTable} {key k : Symbols} {code c : Word32}
    (h : edGet (edSet ed key code) k = some c) : k = key ∧ c = code ∨ k ≠ key ∧ edGet ed k = some c := by
  by_cases hk : k = key
  · subst hk
    rw [edGet_set_same] at h
    exact .inl ⟨rfl, (Option.some.inj h).symm⟩
  · rw [edGet_set_ne _ _ hk] at h
    exact .inr ⟨hk, h⟩

/-- Inserting the match extended by a symbol, at the next code. -/
theorem EncTableWf.insert {ed : EncTable} (h : EncTableWf m next ed) {w : Symbols} {x : Byte} {code : Word32}
    (hge : (firstAssignable m).toNat ≤ next) (hcode : code.toNat = next) (hnew : edGet ed (w ++ [x]) = none)
    (hw : w ≠ [] → (edGet ed w).isSome = true) : EncTableWf m (next + 1) (edSet ed (w ++ [x]) code) where
  codes_below key c hget := by
    rcases edGet_set_eq_some hget with ⟨-, rfl⟩ | ⟨-, hold⟩
    · omega
    · exact (h.codes_below key c hold).trans (Nat.lt_succ_self next)
  never_clear key c hget hm := by
    rcases edGet_set_eq_some hget with ⟨-, rfl⟩ | ⟨-, hold⟩
    · have := firstAssignable_gt_clear hm
      omega
    · exact h.never_clear key c hold hm
  literals b := by
    have hb : [b] ≠ w ++ [x] := fun e => by
      have hlit := h.literals b
      rw [e, hnew] at hlit
      cases hlit
    rw [edGet_set_ne _ _ hb]
    exact h.literals b
  keys_nonempty := by
    rw [edGet_set_ne _ _ (by simp)]
    exact h.keys_nonempty
  prefixes p b c hget hp := by
    have hstays : (edGet ed p).isSome = true → (edGet (edSet ed (w ++ [x]) code) p).isSome = true := fun hpre => by
      by_cases hpw : p = w ++ [x]
      · rw [hpw, edGet_set_same]; rfl
      · rwa [edGet_set_ne _ _ hpw]
    rcases edGet_set_eq_some hget with ⟨hkey, -⟩ | ⟨-, hold⟩
    · obtain ⟨rfl, -⟩ := List.append_inj' hkey rfl
      exact hstays (hw hp)
    · exact hstays (h.prefixes p b c hold hp)
  codes_distinct key key' c hget hget' := by
    rcases edGet_set_eq_some hget with ⟨hkey, hc⟩ | ⟨-, hold⟩ <;>
      rcases edGet_set_eq_some hget' with ⟨hkey', hc'⟩ | ⟨-, hold'⟩
    · rw [hkey, hkey']
    · have := h.codes_below key' c hold'
      rw [hc] at this
      omega
    · have := h.codes_below key c hold
      rw [hc'] at this
      omega
    · exact h.codes_distinct key key' c hold hold'

/-! ## The decode table -/

/-- The rules on the keys and entries of `S.DD` (10_state.md R36), those of `DecInv`. -/
structure DecTableWf (m : Bool) (next : Nat) (dd : DecTable) : Prop where
  keys : ∀ k, (ddGet dd k).isSome = true ↔ k < 256 ∨ ((firstAssignable m).toNat ≤ k ∧ k < next)
  literals : ∀ k, k < 256 → ddGet dd k = some [BitVec.ofNat 8 k]
  entries_nonempty : ∀ k e, ddGet dd k = some e → e ≠ []

theorem DecInv.table (h : DecInv s) : DecTableWf s.blockMode s.nextCode.toNat s.dd :=
  ⟨h.keys, h.literals, h.entries_nonempty⟩

theorem decInv_of_table (htable : DecTableWf s.blockMode s.nextCode.toNat s.dd)
    (init_iff : s.dw = none ↔ s.phase = .decInit) (previous_nonempty : ∀ d, s.dw = some d → d ≠ [])
    (cursor_ge : 24 ≤ cursorPos s) (cursor_le : cursorPos s ≤ 8 * s.sampledInLen.toNat) : DecInv s where
  keys := htable.keys
  literals := htable.literals
  entries_nonempty := htable.entries_nonempty
  init_iff := init_iff
  previous_nonempty := previous_nonempty
  cursor_ge := cursor_ge
  cursor_le := cursor_le

theorem decTableWf_seed (m : Bool) : DecTableWf m (firstAssignable m).toNat seedDD where
  keys k := by
    rw [ddGet_seed]
    split <;> simp <;> omega
  literals k hk := by rw [ddGet_seed, if_pos hk]
  entries_nonempty k e h := by
    rw [ddGet_seed] at h
    split at h
    · cases h; exact List.cons_ne_nil _ _
    · cases h

/-- Inserting a non-empty entry at the next code. -/
theorem DecTableWf.insert {dd : DecTable} (h : DecTableWf m next dd) {entry : Symbols}
    (hge : (firstAssignable m).toNat ≤ next) (hentry : entry ≠ []) :
    DecTableWf m (next + 1) (ddSet dd next entry) where
  keys k := by
    by_cases hk : k = next
    · subst hk
      rw [ddGet_set_same]
      simp [hge]
    · rw [ddGet_set_ne _ _ hk, h.keys]
      omega
  literals k hk := by
    have := firstAssignable_ge m
    rw [ddGet_set_ne _ _ (by omega), h.literals k hk]
  entries_nonempty k e hget := by
    by_cases hk : k = next
    · rw [hk, ddGet_set_same] at hget
      cases hget
      exact hentry
    · rw [ddGet_set_ne _ _ hk] at hget
      exact h.entries_nonempty k e hget

/-! ## The dictionary unit's registers -/

/-- The registers that `DictInv` speaks of. -/
def dictRegs (s : State) : Width × Width × Params × Bool × Word32 :=
  (s.codeWidth, s.maxBits, s.params, s.blockMode, s.nextCode)

theorem DictInv.congr (h : DictInv s) (e : dictRegs t = dictRegs s) : DictInv t := by
  simp only [dictRegs, Prod.mk.injEq] at e
  obtain ⟨hwidth, hmax, hparams, hblock, hnext⟩ := e
  obtain ⟨h1, h2, h3, h4, h5⟩ := h
  constructor <;> simpa only [dictSizeMax, hwidth, hmax, hparams, hblock, hnext]

/-- The registers as DICT_RESET leaves them, for a legal `max_bits` (42_dictionary.md R130). -/
theorem dictInv_of_reset (hwidth : s.codeWidth = 9) (hnext : s.nextCode = firstAssignable s.blockMode)
    (hge : 9 ≤ s.maxBits.toNat) (hcap : s.maxBits.toNat ≤ s.params.maxBitsCap) : DictInv s := by
  have h9 : s.codeWidth.toNat = 9 := by rw [hwidth]; rfl
  refine ⟨h9.ge, h9.le.trans hge, hcap, by rw [hnext], ?_⟩
  rw [hnext, dictSizeMax, h9]
  exact firstAssignable_le _

theorem DictInv.maybeGrow (h : DictInv s) : DictInv (maybeGrow s) := by
  unfold Machine.maybeGrow
  split
  next hgrow =>
    have hmax := s.maxBits.isLt
    have hwidth : (s.codeWidth + 1).toNat = s.codeWidth.toNat + 1 := by bv_omega
    refine ⟨?_, ?_, h.max_le, h.next_ge, ?_⟩
    · simp only [hwidth]
      exact h.width_ge.trans (Nat.le_succ _)
    · simp only [hwidth]
      exact hgrow.2
    · simp only [dictSizeMax, hwidth]
      exact h.next_le.trans (Nat.pow_le_pow_right (by decide) (Nat.le_succ _))
  next => exact h

/-- The registers after an insertion at the next code. -/
theorem DictInv.succ (h : DictInv s) (hroom : hasRoom s = true) {dd : DecTable} {ed : EncTable} :
    DictInv { s with dd := dd, ed := ed, nextCode := s.nextCode + 1 } := by
  have hlt := (hasRoom_iff s).1 hroom
  have hsucc := nextCode_succ hlt
  refine ⟨h.width_ge, h.width_le, h.max_le, ?_, ?_⟩
  · simp only [hsucc]
    exact h.next_ge.trans (Nat.le_succ _)
  · simp only [hsucc]
    exact hlt

theorem DictInv.insertIfRoom (h : DictInv s) (d : Side) (key : Symbols) : DictInv (insertIfRoom d key s) := by
  unfold Machine.insertIfRoom
  split
  next hroom => cases d <;> exact h.succ hroom
  next => exact h

theorem DictInv.insertThenGrow (h : DictInv s) (key : Symbols) : DictInv (insertThenGrow key s) := by
  unfold Machine.insertThenGrow
  split
  · exact (h.insertIfRoom .decode key).maybeGrow
  · exact h

/-- An insertion keeps the rules on the encode table. -/
theorem encTableWf_insertIfRoom (h : DictInv s) (htable : EncTableWf s.blockMode s.nextCode.toNat s.ed) {w : Symbols}
    {x : Byte} (hnew : edGet s.ed (w ++ [x]) = none) (hw : w ≠ [] → (edGet s.ed w).isSome = true) :
    EncTableWf (insertIfRoom .encode (w ++ [x]) s).blockMode (insertIfRoom .encode (w ++ [x]) s).nextCode.toNat
      (insertIfRoom .encode (w ++ [x]) s).ed := by
  unfold Machine.insertIfRoom
  split
  next hroom =>
    simp only [nextCode_succ ((hasRoom_iff s).1 hroom)]
    exact htable.insert h.next_ge rfl hnew hw
  next => exact htable

/-- An insertion, and the growth after it, keep the rules on the decode table. -/
theorem decTableWf_insertThenGrow (h : DictInv s) (htable : DecTableWf s.blockMode s.nextCode.toNat s.dd)
    {key : Symbols} (hkey : key ≠ []) :
    DecTableWf (insertThenGrow key s).blockMode (insertThenGrow key s).nextCode.toNat (insertThenGrow key s).dd := by
  unfold Machine.insertThenGrow
  split
  next hroom =>
    simp only [maybeGrow_keeps, Machine.insertIfRoom, hroom, if_true, nextCode_succ ((hasRoom_iff s).1 hroom)]
    exact htable.insert h.next_ge hkey
  next => exact htable

end Sys2Proof.Machine
end

section
/-! The invariant of a machine driven by its host (10_state.md R29 to R37, 42_dictionary.md R135) under its controller's
steps and its host's moves. Settles O57. -/

namespace Sys2Proof.Machine

variable {s t u : State}

/-! ## The packer -/

theorem packerWf_packed {v n : Nat} (hv : v < 2 ^ n) (hn : n ≤ 8) :
    PackerWf { s with acc := BitVec.ofNat 39 v, nbits := BitVec.ofNat 6 n } := by
  have hpow : 2 ^ n ≤ 2 ^ 8 := Nat.pow_le_pow_right (by decide) hn
  simp only [PackerWf, BitVec.toNat_ofNat]
  rw [Nat.mod_eq_of_lt (show v < 2 ^ 39 by omega), Nat.mod_eq_of_lt (show n < 2 ^ 6 by omega)]
  exact ⟨hv, hn⟩

theorem packerWf_of_peel {fuel v n : Nat} (hv : v < 2 ^ n) (hn : n ≤ fuel) (h : peel fuel v n s = .ok () t) :
    PackerWf t := by
  induction fuel generalizing v n s with
  | zero =>
    cases h
    exact packerWf_packed hv (hn.trans (by decide))
  | succ fuel ih =>
    unfold peel at h
    split at h
    next h8 =>
      obtain ⟨_, u, -, hrest⟩ := resBind_eq_ok h
      refine ih ?_ (by omega) hrest
      rwa [Nat.div_lt_iff_lt_mul (by decide), show 256 = 2 ^ 8 by rfl, ← Nat.pow_add, Nat.sub_add_cancel h8.le]
    next h8 =>
      cases h
      exact packerWf_packed hv (by omega)

theorem packerWf_of_bwPush {code width : Nat} (hp : PackerWf s) (h : bwPush code width s = .ok () t) : PackerWf t := by
  unfold bwPush at h
  split at h
  next => cases h
  next hvalid => exact packerWf_of_peel (pendingWith_lt (by omega) hp) le_rfl h

theorem packerWf_of_pushMatch (hp : PackerWf s) (h : pushMatch s = .ok () t) : PackerWf t := by
  unfold pushMatch at h
  split at h
  next => cases h
  next code _ =>
    obtain ⟨_, u, hpush, hnote⟩ := resBind_eq_ok h
    cases hnote
    exact packerWf_of_bwPush (t := u) hp hpush

theorem packerWf_of_empty (hacc : s.acc = 0) (hnbits : s.nbits = 0) : PackerWf s := by
  simp [PackerWf, hacc, hnbits]

/-! ## The header -/

theorem effectiveMaxBits_ge (b : Width) : 9 ≤ (effectiveMaxBits b).toNat := by
  unfold effectiveMaxBits
  split
  · decide
  · omega

/-- HDR_WRITE writes the output alone. -/
theorem hdrWrite_eq_ok {m : Bool} {b : Nat} (h : hdrWrite m b s = .ok () t) :
    t = { s with outBuf := t.outBuf, outLen := t.outLen, draws := t.draws } := by
  unfold hdrWrite at h
  split at h
  · cases h
  · rcases emitAll_frame [0x1F#8, 0x9D#8, headerByte m (effectiveMaxBits (BitVec.ofNat 5 b))] s with
      ⟨v, hv, hframe⟩ | ⟨v, hv, -⟩ <;> rw [hv] at h <;> cases h
    exact hframe

/-- A good header has three bytes and a legal `max_bits` (40_header_codec.md R102). -/
theorem hdrRead_eq_ok {f : Bool × Width} (h : hdrRead s = .ok f t) :
    t = s ∧ 3 ≤ s.sampledInLen.toNat ∧ 9 ≤ f.2.toNat ∧ f.2.toNat ≤ s.params.maxBitsCap := by
  unfold hdrRead at h
  simp only [] at h
  split_ifs at h with hlen hmagic hcap
  cases h
  exact ⟨rfl, Nat.le_of_not_lt hlen, effectiveMaxBits_ge _, Nat.le_of_not_lt hcap⟩

/-! ## A started transaction -/

/-- The clauses of `RunInv` about a started transaction. -/
structure TransactionInv (s : State) : Prop where
  dict : Started s → DictInv s
  enc : Started s → s.phase.side = some .encode → EncInv s
  dec : Started s → s.phase.side = some .decode → DecInv s

theorem RunInv.transaction (h : RunInv s) : TransactionInv s := ⟨h.dict, h.enc, h.dec⟩

theorem transactionInv_of_not_started (h : ¬ Started s) : TransactionInv s :=
  ⟨fun hs => absurd hs h, fun hs => absurd hs h, fun hs => absurd hs h⟩

theorem transactionInv_of_not_running (h : s.phase.running = false) : TransactionInv s :=
  transactionInv_of_not_started fun hs => by simp [Started, h] at hs

theorem transactionInv_of_encode (hside : s.phase.side = some .encode) (hdict : DictInv s) (henc : EncInv s) :
    TransactionInv s :=
  ⟨fun _ => hdict, fun _ _ => henc, fun _ hd => by simp [hside] at hd⟩

theorem transactionInv_of_decode (hside : s.phase.side = some .decode) (hdict : DictInv s) (hdec : DecInv s) :
    TransactionInv s :=
  ⟨fun _ => hdict, fun _ he => by simp [hside] at he, fun _ _ => hdec⟩

theorem TransactionInv.withInputs (h : TransactionInv s) (rest : List Input) :
    TransactionInv { s with inputs := rest } :=
  ⟨fun hs => (h.dict hs).congr rfl, fun hs he => { h.enc hs he with }, fun hs hd => { h.dec hs hd with }⟩

/-- A move of the host writes no register that the clauses speak of. -/
theorem TransactionInv.hostMove (h : TransactionInv s) (hmove : HostMove s t) : TransactionInv t := by
  rw [hmove.frame]
  exact ⟨fun hs => (h.dict hs).congr rfl, fun hs he => { h.enc hs he with }, fun hs hd => { h.dec hs hd with }⟩

/-- A controller step: an abort leaves no transaction running. -/
theorem transactionInv_of_finishUnit {r : Res Unit} (h : ∀ u, r = .ok () u → TransactionInv u)
    (hnext : finishUnit r = .next t) : TransactionInv t := by
  rcases finish_eq_next hnext with ⟨_, u, hr, rfl⟩ | ⟨e, u, -, rfl⟩
  · exact h _ hr
  · exact transactionInv_of_not_running rfl

/-! ## Encoder -/

theorem transactionInv_of_encStart (h : encStart s = .ok () t) : TransactionInv t := by
  unfold encStart at h
  simp only [] at h
  split at h
  next => cases h
  next hcap =>
    obtain ⟨_, u, hwrite, hlast⟩ := resBind_eq_ok h
    cases hlast
    rw [hdrWrite_eq_ok hwrite]
    refine transactionInv_of_encode rfl ?_ ?_
    · exact dictInv_of_reset rfl rfl (effectiveMaxBits_ge _) (Nat.le_of_not_lt hcap)
    · exact encInv_of_table (encTableWf_seed _) (packerWf_of_empty rfl rfl) ⟨fun _ => rfl, fun _ => rfl⟩ (absurd rfl)
        (Nat.zero_le _)

/-- The index of the next symbol, one on. -/
theorem inIdx_succ_le (h : s.inIdx.toNat < s.sampledInLen.toNat) : (s.inIdx + 1).toNat ≤ s.sampledInLen.toNat := by
  bv_omega

theorem transactionInv_of_encSymbol (hdict : DictInv s) (henc : EncInv s)
    (hlt : s.inIdx.toNat < s.sampledInLen.toNat) (h : encSymbol s = .ok () t) : TransactionInv t := by
  unfold encSymbol at h
  simp only [] at h
  split at h
  next c hfound =>
    cases h
    refine transactionInv_of_encode rfl (hdict.congr rfl) ?_
    refine encInv_of_table ?table ?packer ?empty ?known ?index
    case table => exact henc.table
    case packer => exact henc.packer
    case empty => simp
    case known => exact fun _ => Option.isSome_iff_exists.2 ⟨c, hfound⟩
    case index => exact inIdx_succ_le hlt
  next hnew =>
    obtain ⟨_, u, hpush, hlast⟩ := resBind_eq_ok h
    cases hlast
    have hemits : Emits { s with inIdx := s.inIdx + 1 } u := (pushMatch_emits _).of_ok hpush
    have hgrown : DictInv (maybeGrow u) := by
      refine DictInv.maybeGrow ?_
      rw [hemits.2]
      exact hdict.congr rfl
    have htable : EncTableWf (maybeGrow u).blockMode (maybeGrow u).nextCode.toNat (maybeGrow u).ed := by
      simp only [maybeGrow_keeps]
      rw [hemits.2]
      exact henc.table
    have hed : (maybeGrow u).ed = s.ed := by
      simp only [maybeGrow_keeps]
      rw [hemits.2]
    have hinserted := encTableWf_insertIfRoom (w := s.w) (x := nextSymbol s) hgrown htable (by rw [hed]; exact hnew)
      (by rw [hed]; exact henc.match_known)
    refine transactionInv_of_encode rfl ((hgrown.insertIfRoom .encode _).congr rfl) ?_
    refine encInv_of_table ?table ?packer ?empty ?known ?index
    case table => exact hinserted
    case packer =>
      simp only [PackerWf, insertIfRoom_keeps, maybeGrow_keeps]
      exact packerWf_of_pushMatch (s := { s with inIdx := s.inIdx + 1 }) henc.packer hpush
    case empty => simp
    case known => exact fun _ => Option.isSome_iff_exists.2 ⟨_, hinserted.literals _⟩
    case index =>
      simp only [insertIfRoom_keeps, maybeGrow_keeps]
      rw [hemits.2]
      exact inIdx_succ_le hlt

theorem transactionInv_of_encFinish (h : encFinish s = .ok () t) : TransactionInv t := by
  obtain ⟨_, u, -, h⟩ := resBind_eq_ok h
  obtain ⟨_, v, -, hlast⟩ := resBind_eq_ok h
  cases hlast
  exact transactionInv_of_not_running rfl

/-! ## Decoder -/

theorem transactionInv_of_decStart (h : decStart s = .ok () t) : TransactionInv t := by
  obtain ⟨f, u, hread, hlast⟩ := resBind_eq_ok h
  obtain ⟨rfl, hlen, hge, hcap⟩ := hdrRead_eq_ok hread
  cases hlast
  refine transactionInv_of_decode rfl (dictInv_of_reset rfl rfl hge hcap) ?_
  exact decInv_of_table (decTableWf_seed f.1) ⟨fun _ => rfl, fun _ => rfl⟩ nofun (Nat.le_refl 24)
    (Nat.mul_le_mul_left 8 hlen)

/-- The decoder takes a code: its cursor moves past it, within the input (41_bitstream.md R115). -/
theorem cursorPos_advanced {width : Nat} (h : BitsLeft width s) : cursorPos (advanced width s) = cursorPos s + width := by
  have hlen := s.sampledInLen.isLt
  unfold BitsLeft at h
  simp only [cursorPos, advanced, BitVec.toNat_ofNat] at h ⊢
  omega

theorem DecInv.advanced {width : Nat} (h : DecInv s) (hleft : BitsLeft width s) : DecInv (advanced width s) :=
  { h with
    cursor_ge := (cursorPos_advanced hleft).ge.trans' (h.cursor_ge.trans (Nat.le_add_right _ _))
    cursor_le := (cursorPos_advanced hleft).le.trans hleft }

theorem transactionInv_of_codeFirstLiteral {k : Byte} (hdict : DictInv s) (hdec : DecInv s)
    (h : codeFirstLiteral k s = .ok () t) : TransactionInv t := by
  obtain ⟨_, u, hemit, hlast⟩ := resBind_eq_ok h
  cases hlast
  rw [((emitAll_emits [k] s).of_ok hemit).2]
  refine transactionInv_of_decode rfl (hdict.congr rfl) ?_
  exact { hdec with
    init_iff := ⟨nofun, nofun⟩
    previous_nonempty := fun d hd => by cases hd; exact List.cons_ne_nil k [] }

@[simp] theorem insertThenGrow_keeps (key : Symbols) (s : State) :
    (insertThenGrow key s).phase = s.phase ∧ (insertThenGrow key s).byteIndex = s.byteIndex ∧
    (insertThenGrow key s).bitOffset = s.bitOffset ∧ (insertThenGrow key s).sampledInLen = s.sampledInLen := by
  unfold insertThenGrow
  split <;> simp

theorem transactionInv_of_takeEntry {entry : Symbols} (hdict : DictInv s) (hdec : DecInv s)
    (hside : s.phase.side = some .decode) (h : takeEntry entry s = .ok () t) : TransactionInv t := by
  obtain ⟨_, u, hemit, hlast⟩ := resBind_eq_ok h
  have hframe := ((emitAll_emits entry s).of_ok hemit).2
  split at hlast
  next d x rest hdw =>
    cases hlast
    have hdictU : DictInv u := by rw [hframe]; exact hdict.congr rfl
    have hdecU : DecInv u := by rw [hframe]; exact { hdec with }
    have hsideU : u.phase.side = some .decode := by rw [hframe]; exact hside
    have htable := decTableWf_insertThenGrow hdictU hdecU.table (key := d ++ [x]) (by simp)
    refine transactionInv_of_decode (by simpa using hsideU) ((hdictU.insertThenGrow _).congr rfl) ?_
    refine decInv_of_table ?table ?init ?previous ?ge ?le
    case table => exact htable
    case init =>
      have hphase : u.phase ≠ .decInit := mt hdecU.init_iff.2 (by simp [hdw])
      simpa using hphase
    case previous => exact fun e he => by cases he; exact List.cons_ne_nil x rest
    case ge => simpa [cursorPos] using hdecU.cursor_ge
    case le => simpa [cursorPos] using hdecU.cursor_le
  next => cases hlast

theorem transactionInv_of_takeCode {k : Code31} (hdict : DictInv s) (hdec : DecInv s)
    (hside : s.phase.side = some .decode) (h : takeCode k s = .ok () t) : TransactionInv t := by
  rcases takeCode_cases k s with ⟨e, hr⟩ | ⟨b, hr⟩ | hr | ⟨entry, hr⟩ <;> rw [hr] at h
  · cases h
  · exact transactionInv_of_codeFirstLiteral hdict hdec h
  · cases h
  · exact transactionInv_of_takeEntry hdict hdec hside h

theorem transactionInv_of_decCode (hdict : DictInv s) (hdec : DecInv s) (hside : s.phase.side = some .decode)
    (h : decCode s = .ok () t) : TransactionInv t := by
  have hwidth := s.codeWidth.isLt
  obtain ⟨hpull, hnone⟩ := brPull_spec (s := s) (show 1 ≤ s.codeWidth.toNat by have := hdict.width_ge; omega)
    (by omega : s.codeWidth.toNat ≤ 31)
  by_cases hleft : BitsLeft s.codeWidth.toNat s
  · rw [decCode, hpull hleft, resBind_ok] at h
    refine transactionInv_of_takeCode ?_ ?_ ?_ h
    · exact hdict.congr rfl
    · exact { hdec.advanced hleft with }
    · exact hside
  · rw [decCode, hnone hleft, resBind_ok] at h
    cases h
    exact transactionInv_of_not_running rfl

/-! ## Every step -/

/-- The controller selects its own steps alone (43_encoder.md R155, 44_decoder.md R176). -/
theorem nextLabel_eq_some {l : UnitLabel} (h : nextLabel s = some l) :
    l = .encStart ∨ l = .encSymbol ∨ l = .encFinish ∨ l = .decStart ∨ l = .decCode := by
  unfold nextLabel at h
  split at h
  · split_ifs at h <;> cases h <;> simp
  · split_ifs at h <;> cases h <;> simp
  all_goals cases h <;> simp

theorem started_of_encoding (h : encoding s = true) : Started s ∧ s.phase.side = some .encode := by
  obtain ⟨hphase | hphase, hstart⟩ := encoding_iff.1 h <;> exact ⟨⟨by rw [hphase]; rfl, hstart⟩, by rw [hphase]; rfl⟩

theorem transactionInv_of_controller {l : UnitLabel} (hflags : FlagsAgree s) (htx : TransactionInv s)
    (hlabel : nextLabel s = some l) (hnext : exec l.instr s = .next t) : TransactionInv t := by
  rcases nextLabel_eq_some hlabel with rfl | rfl | rfl | rfl | rfl <;>
    obtain ⟨hc, hnext⟩ := guarded_eq_next hnext <;>
    refine transactionInv_of_finishUnit (fun u hu => ?_) hnext
  · exact transactionInv_of_encStart hu
  · obtain ⟨hstarted, hside⟩ := started_of_encoding hc.1
    exact transactionInv_of_encSymbol (htx.dict hstarted) (htx.enc hstarted hside) hc.2 hu
  · exact transactionInv_of_encFinish hu
  · exact transactionInv_of_decStart hu
  · obtain ⟨hrun, hside, hstart⟩ := hflags.of_decoding hc
    exact transactionInv_of_decCode (htx.dict ⟨hrun, hstart⟩) (htx.dec ⟨hrun, hstart⟩ hside) hside hu

/-- A command starts a transaction whose start step is still to come, or none. -/
theorem transactionInv_of_command {op : Byte} (htx : TransactionInv s) (hnext : exec (decodeCmd op) s = .next t) :
    TransactionInv t := by
  have haccept : ∀ d, TransactionInv (accept d s) := fun d =>
    transactionInv_of_not_started fun hs => by simp [Started] at hs
  unfold decodeCmd at hnext
  split_ifs at hnext
  · rcases command_eq_next hnext with rfl | ⟨-, rfl⟩
    · exact htx
    · exact haccept .encode
  · rcases command_eq_next hnext with rfl | ⟨-, rfl⟩
    · exact htx
    · exact haccept .decode
  · rcases command_eq_next hnext with rfl | ⟨-, rfl⟩
    · exact htx
    · exact transactionInv_of_not_running rfl

/-- A step takes the parameters over, and leaves pending what was pending. -/
theorem step_keeps_params_inputs (h : step s = .next t) : t.params = s.params ∧ t.inputs ⊆ s.inputs := by
  have hexec : ∀ {rest ops i}, rest ⊆ s.inputs → exec i { s with inputs := rest, operands := ops } = .next t →
      t.params = s.params ∧ t.inputs ⊆ s.inputs := fun hrest hnext => by
    have hhost := exec_sameHostSide hnext
    simp only [SameHostSide, hostSide, Prod.mk.injEq] at hhost
    obtain ⟨hparams, hinputs, -⟩ := hhost
    exact ⟨hparams, hinputs ▸ hrest⟩
  cases step_cases h with
  | hostMove rest hrest hmove =>
    rw [hmove.frame]
    exact ⟨rfl, hrest⟩
  | reset rest hin ht =>
    rw [ht]
    exact ⟨rfl, hin ▸ List.subset_cons_self _ rest⟩
  | command v rest hin hnext => exact hexec (hin ▸ List.subset_cons_self _ rest) hnext
  | controller l rest hrest _ _ hnext => exact hexec hrest hnext
  | issued w rest hin ops hnext =>
    have hrest : rest ⊆ s.inputs := hin ▸ List.subset_cons_self _ rest
    rcases hnext with ⟨i, hnext⟩ | hnext
    · exact hexec hrest hnext
    · unfold execIllegalWord at hnext
      split at hnext <;> cases hnext
      exact ⟨rfl, hrest⟩

theorem step_keeps_transactionInv (h : RunInv s) (hstep : step s = .next t) : TransactionInv t := by
  cases step_cases hstep with
  | hostMove rest _ hmove => exact (h.transaction.withInputs rest).hostMove hmove
  | reset rest _ ht => exact ht ▸ transactionInv_of_not_running rfl
  | command v rest _ hnext => exact transactionInv_of_command (h.transaction.withInputs rest) hnext
  | controller l rest _ _ hlabel hnext =>
    exact transactionInv_of_controller (s := { s with inputs := rest }) (h.flags.congr rfl) (h.transaction.withInputs rest)
      hlabel hnext
  | issued w rest hin ops _ => exact absurd rfl (h.host (.issue w) (by simp [hin]) w)

end Sys2Proof.Machine

open Sys2Proof Sys2Proof.Machine

/-- Settles O57: the registers stay consistent (O55), what is pending stays the host's, and each way of taking a step
keeps the clauses about a started transaction. -/
theorem stepKeepsRunInv : Obligations.StepKeepsRunInv := by
  unfold Obligations.StepKeepsRunInv
  intro s t h hstep
  obtain ⟨hcanon, hres, hflags⟩ := step_keeps_consistent ⟨h.canonical, h.reserved, h.flags⟩ hstep
  obtain ⟨hparams, hinputs⟩ := step_keeps_params_inputs hstep
  have htx := step_keeps_transactionInv h hstep
  exact {
    host := fun move hmove => h.host move (hinputs hmove)
    params := hparams ▸ h.params
    canonical := hcanon, reserved := hres, flags := hflags
    dict := htx.dict, enc := htx.enc, dec := htx.dec }
end

section
/-! An operation under a change of what IN_BUF holds (20_memory.md R58, R60): one that reads no input does the same, and
one that reads input reads it below the sampled IN_LEN only. Settles O53. -/

namespace Sys2Proof.Machine

variable {α β : Type} {m : Memory} {r : List (Nat × Nat)} {d : Nat} {s : State}

/-- `s` with another IN_BUF: the bytes listed, the record of raced bytes, and the draw of the unwritten ones, which
together decide what CORE reads (`coreRead`). -/
def withInBuf (m : Memory) (r : List (Nat × Nat)) (d : Nat) (s : State) : State :=
  { s with inBuf := m, raced := r, inDraw := d }

/-- The result with `f` applied to the state in which the operation ended. -/
def Res.mapState (f : State → State) : Res α → Res α
  | .ok a s => .ok a (f s)
  | .raise e s => .raise e (f s)
  | .undef => .undef

/-- The operation does the same whatever IN_BUF holds. -/
def InputBlind (op : State → Res α) : Prop :=
  ∀ m r d s, op (withInBuf m r d s) = (op s).mapState (withInBuf m r d)

/-- What follows a result that does not depend on IN_BUF, and does not depend on it either. -/
theorem resBind_mapState {f : α → State → Res β} (hf : ∀ a, InputBlind (f a)) (x : Res α) :
    resBind (x.mapState (withInBuf m r d)) f = (resBind x f).mapState (withInBuf m r d) := by
  cases x with
  | ok a t => exact hf a m r d t
  | raise e t => rfl
  | undef => rfl

theorem InputBlind.bind {op : State → Res α} {f : α → State → Res β} (h : InputBlind op) (hf : ∀ a, InputBlind (f a)) :
    InputBlind fun s => resBind (op s) f := fun m r d s => by
  simp only [h m r d s, resBind_mapState hf]

/-- A state update that leaves IN_BUF alone, as an operation. -/
theorem inputBlind_ok {g : State → State} (hg : ∀ m r d s, g (withInBuf m r d s) = withInBuf m r d (g s)) (a : α) :
    InputBlind fun s => .ok a (g s) :=
  fun m r d s => congrArg (Res.ok a) (hg m r d s)

theorem inputBlind_raise (e : ErrKind) : InputBlind fun s => (.raise e s : Res α) := fun _ _ _ _ => rfl

/-- A choice made without a look at IN_BUF. -/
theorem InputBlind.ite {c : State → Prop} [DecidablePred c] {f g : State → Res α}
    (hf : InputBlind f) (hg : InputBlind g) (hc : ∀ m r d s, c (withInBuf m r d s) = c s := by intros; rfl) :
    InputBlind fun s => if c s then f s else g s := fun m r d s => by
  have hcs := hc m r d s
  by_cases h : c s
  · simp only [h, hcs, if_true, hf m r d s]
  · simp only [h, hcs, if_false, hg m r d s]

/-! ## Emission and packing -/

theorem appendOut_withInBuf (b : Byte) (s : State) :
    appendOut b (withInBuf m r d s) = withInBuf m r d (appendOut b s) := by
  unfold appendOut
  rw [apply_ite (withInBuf m r d)]
  rfl

theorem emit_inputBlind (b : Byte) : InputBlind (emit b) :=
  .ite (inputBlind_raise _) (inputBlind_ok (fun _ _ _ => appendOut_withInBuf b) ())

theorem emitAll_inputBlind (bs : Symbols) : InputBlind (emitAll bs) := by
  induction bs with
  | nil => exact fun _ _ _ _ => rfl
  | cons b rest ih => exact (emit_inputBlind b).bind fun _ => ih

theorem peel_inputBlind (fuel v n : Nat) : InputBlind (peel fuel v n) := by
  induction fuel generalizing v n with
  | zero => exact fun _ _ _ _ => rfl
  | succ fuel ih =>
    exact .ite ((emit_inputBlind _).bind fun _ => ih _ _) fun _ _ _ _ => rfl

theorem bwPush_inputBlind (code width : Nat) : InputBlind (bwPush code width) :=
  .ite (inputBlind_raise _) fun m r d s => peel_inputBlind _ _ _ m r d s

theorem bwFlush_inputBlind : InputBlind bwFlush :=
  .ite (fun _ _ _ _ => rfl) fun m r d s =>
    (emit_inputBlind _).bind (fun _ _ _ _ _ => rfl) m r d s

theorem hdrWrite_inputBlind (bm : Bool) (b : Nat) : InputBlind (hdrWrite bm b) :=
  .ite (inputBlind_raise _) (emitAll_inputBlind _)

theorem pushMatch_inputBlind : InputBlind pushMatch := fun m r d s => by
  have hfound : encLookup (withInBuf m r d s) (withInBuf m r d s).w = encLookup s s.w := rfl
  unfold pushMatch
  rw [hfound]
  cases encLookup s s.w with
  | none => rfl
  | some code => exact (bwPush_inputBlind code.toNat _).bind (fun _ _ _ _ _ => rfl) m r d s

/-! ## The dictionary -/

theorem maybeGrow_withInBuf (s : State) : maybeGrow (withInBuf m r d s) = withInBuf m r d (maybeGrow s) := by
  unfold maybeGrow
  rw [apply_ite (withInBuf m r d)]
  rfl

theorem insertIfRoom_withInBuf (side : Side) (key : Symbols) (s : State) :
    insertIfRoom side key (withInBuf m r d s) = withInBuf m r d (insertIfRoom side key s) := by
  unfold insertIfRoom
  rw [apply_ite (withInBuf m r d)]
  cases side <;> rfl

theorem dictReset_withInBuf (bm : Bool) (side : Side) (s : State) :
    dictReset bm side (withInBuf m r d s) = withInBuf m r d (dictReset bm side s) := by
  cases side <;> rfl

theorem insertThenGrow_withInBuf (key : Symbols) (s : State) :
    insertThenGrow key (withInBuf m r d s) = withInBuf m r d (insertThenGrow key s) := by
  unfold insertThenGrow
  rw [insertIfRoom_withInBuf, maybeGrow_withInBuf]
  exact (apply_ite (withInBuf m r d) _ _ _).symm

/-! ## The effect of a code -/

theorem codeFirstLiteral_inputBlind (k : Byte) : InputBlind (codeFirstLiteral k) :=
  (emitAll_inputBlind [k]).bind fun _ _ _ _ _ => rfl

theorem takeEntry_inputBlind (entry : Symbols) : InputBlind (takeEntry entry) := by
  refine (emitAll_inputBlind entry).bind fun _ m r d t => ?_
  have hdw : (withInBuf m r d t).dw = t.dw := rfl
  rw [hdw]
  cases t.dw with
  | none => rfl
  | some previous =>
    cases entry with
    | nil => rfl
    | cons x rest => simp only [insertThenGrow_withInBuf]; rfl

theorem codeKnown_inputBlind (k : Code31) : InputBlind (codeKnown k) := fun m r d s => by
  have hfound : decLookup (withInBuf m r d s) k.toNat = decLookup s k.toNat := rfl
  unfold codeKnown
  rw [hfound]
  cases decLookup s k.toNat with
  | none => rfl
  | some entry => exact takeEntry_inputBlind entry m r d s

theorem codeKwkwk_inputBlind : InputBlind codeKwkwk := fun m r d s => by
  have hdw : (withInBuf m r d s).dw = s.dw := rfl
  unfold codeKwkwk
  rw [hdw]
  split
  · exact takeEntry_inputBlind _ m r d s
  · rfl

theorem takeCode_inputBlind (k : Code31) : InputBlind (takeCode k) := fun m r d s => by
  have hclass : classify (codeCtx (withInBuf m r d s) k) k = classify (codeCtx s k) k := rfl
  unfold takeCode
  rw [hclass]
  cases classify (codeCtx s k) k with
  | zeroReject | clear | firstBad | unknown => rfl
  | firstLiteral => exact codeFirstLiteral_inputBlind _ m r d s
  | known => exact codeKnown_inputBlind k m r d s
  | kwkwk => exact codeKwkwk_inputBlind m r d s

/-! ## Reads of the input -/

theorem setCursor_withInBuf (k left : Nat) (s : State) :
    setCursor k left (withInBuf m r d s) = withInBuf m r d (setCursor k left s) := by
  unfold setCursor
  rw [apply_ite (withInBuf m r d)]
  rfl

/-- CORE reads the same bytes below the sampled IN_LEN. -/
def SameInput (m : Memory) (r : List (Nat × Nat)) (d : Nat) (s : State) : Prop :=
  ∀ k, k < s.sampledInLen.toNat → coreRead (withInBuf m r d s) k = coreRead s k

theorem hdrRead_withInBuf (h : SameInput m r d s) :
    hdrRead (withInBuf m r d s) = (hdrRead s).mapState (withInBuf m r d) := by
  unfold hdrRead
  have hlen : (withInBuf m r d s).sampledInLen = s.sampledInLen := rfl
  have hcap : (withInBuf m r d s).params = s.params := rfl
  rw [hlen, hcap]
  by_cases h3 : s.sampledInLen.toNat < 3
  · rw [if_pos h3, if_pos h3]
    rfl
  · rw [if_neg h3, if_neg h3, h 0 (by omega), h 1 (by omega), h 2 (by omega)]
    simp only []
    split_ifs <;> rfl

theorem gatherFirst_withInBuf (h : SameInput m r d s) : gatherFirst (withInBuf m r d s) = gatherFirst s := by
  unfold gatherFirst
  by_cases hk : s.byteIndex.toNat < s.sampledInLen.toNat
  · simp only []
    rw [if_pos hk, ← h _ hk]
    exact if_pos hk
  · exact (if_neg hk).trans (if_neg hk).symm

theorem gatherMore_withInBuf (h : SameInput m r d s) (width fuel : Nat) (g : Gathered) :
    gatherMore (withInBuf m r d s) width fuel g = gatherMore s width fuel g := by
  induction fuel generalizing g with
  | zero => rfl
  | succ fuel ih =>
    unfold gatherMore
    have hlen : (withInBuf m r d s).sampledInLen = s.sampledInLen := rfl
    rw [hlen]
    by_cases hc : g.n < width ∧ g.k < s.sampledInLen.toNat
    · rw [if_pos hc, if_pos hc, h _ hc.2, ih]
    · rw [if_neg hc, if_neg hc]

theorem brPull_withInBuf (h : SameInput m r d s) (width : Nat) :
    brPull width (withInBuf m r d s) = (brPull width s).mapState (withInBuf m r d) := by
  unfold brPull
  simp only [gatherFirst_withInBuf h, gatherMore_withInBuf h]
  split_ifs
  · rfl
  · rfl
  · exact congrArg _ (setCursor_withInBuf _ _ s)

/-! ## The controllers' steps -/

theorem encStart_inputBlind : InputBlind encStart :=
  .ite (inputBlind_raise _) fun m r d s =>
    (hdrWrite_inputBlind _ _).bind (fun _ _ _ _ _ => rfl) m r d
      (encInit (configOperands s).1 (effectiveMaxBits (configOperands s).2) s)

theorem encFinish_inputBlind : InputBlind encFinish :=
  InputBlind.bind (.ite (fun _ _ _ _ => rfl) pushMatch_inputBlind) fun _ =>
    bwFlush_inputBlind.bind fun _ _ _ _ _ => rfl

theorem encSymbol_withInBuf (h : SameInput m r d s) (hk : s.inIdx.toNat < s.sampledInLen.toNat) :
    encSymbol (withInBuf m r d s) = (encSymbol s).mapState (withInBuf m r d) := by
  have hsym : nextSymbol (withInBuf m r d s) = nextSymbol s := h _ hk
  have hw : (withInBuf m r d s).w = s.w := rfl
  have hed : (withInBuf m r d s).ed = s.ed := rfl
  simp only [encSymbol, encLookup, hsym, hw, hed]
  cases edGet s.ed (s.w ++ [nextSymbol s]) with
  | some _ => rfl
  | none =>
    refine pushMatch_inputBlind.bind (fun _ m r d t => ?_) m r d { s with inIdx := s.inIdx + 1 }
    simp only [maybeGrow_withInBuf, insertIfRoom_withInBuf]
    rfl

theorem decStart_withInBuf (h : SameInput m r d s) :
    decStart (withInBuf m r d s) = (decStart s).mapState (withInBuf m r d) := by
  have hread : hdrRead (clearOut (withInBuf m r d s)) = (hdrRead (clearOut s)).mapState (withInBuf m r d) :=
    hdrRead_withInBuf (s := clearOut s) h
  unfold decStart
  rw [hread]
  exact resBind_mapState (fun _ _ _ _ _ => rfl) _

theorem takeHeader_inputBlind (bm : Bool) (b : Width) : InputBlind (takeHeader bm b) :=
  .ite (fun _ _ _ _ => rfl) fun _ _ _ _ => rfl

theorem decCode_withInBuf (h : SameInput m r d s) :
    decCode (withInBuf m r d s) = (decCode s).mapState (withInBuf m r d) := by
  have hread : brPull s.codeWidth.toNat (withInBuf m r d s) = _ := brPull_withInBuf h _
  unfold decCode
  refine (congrArg (resBind · _) hread).trans (resBind_mapState (fun pulled => ?_) _)
  cases pulled with
  | none => exact fun _ _ _ _ => rfl
  | some k => exact fun m r d t => takeCode_inputBlind k m r d (noteWidth t)

/-! ## Every instruction -/

/-- The step of an operation, the record of what it returned included. -/
theorem finish_mapState {x y : Res α} {k : α → State → State} (h : y = x.mapState (withInBuf m r d))
    (hk : ∀ a t, k a (withInBuf m r d t) = withInBuf m r d (k a t)) :
    finish y k = mapNext (withInBuf m r d) (finish x k) := by
  rw [h]
  cases x with
  | ok a t => exact congrArg Host.Outcome.next (hk a t)
  | raise e t => rfl
  | undef => rfl

theorem finishUnit_mapState {x y : Res Unit} (h : y = x.mapState (withInBuf m r d)) :
    finishUnit y = mapNext (withInBuf m r d) (finishUnit x) :=
  finish_mapState h fun _ _ => rfl

/-- An operation that runs where `c` holds and is refused elsewhere. -/
theorem guarded_mapState {c : Prop} [Decidable c] {x y : Res Unit} {q : Refusal}
    (h : c → y = x.mapState (withInBuf m r d)) :
    (if c then finishUnit y else .refused q) = mapNext (withInBuf m r d) (if c then finishUnit x else .refused q) := by
  split_ifs with hc
  · exact finishUnit_mapState (h hc)
  · rfl

theorem runClass_mapState {c : CodeClass} {k : Code31} {x y : Res Unit} (h : y = x.mapState (withInBuf m r d)) :
    runClass c k y (withInBuf m r d s) = mapNext (withInBuf m r d) (runClass c k x s) := by
  have hdecoding : decoding (withInBuf m r d s) = decoding s := rfl
  have hctx : codeCtx (withInBuf m r d s) k = codeCtx s k := rfl
  unfold runClass
  rw [hdecoding, hctx, finishUnit_mapState h]
  split_ifs <;> rfl

/-- Every instruction but the two commands that accept, which clear the record of raced bytes. -/
theorem exec_withInBuf {i : Instr} (henc : i ≠ .encode) (hdec : i ≠ .decode) (h : SameInput m r d s) :
    exec i (withInBuf m r d s) = mapNext (withInBuf m r d) (exec i s) := by
  cases i with
  | encode => exact absurd rfl henc
  | decode => exact absurd rfl hdec
  | illegalCmd op => exact (apply_ite (mapNext (withInBuf m r d)) (s.status.busy = true) (.next s) (.next (reject s))).symm
  | hdrWrite => exact finishUnit_mapState (hdrWrite_inputBlind _ _ m r d s)
  | hdrRead =>
    refine finish_mapState (hdrRead_withInBuf h) ?_
    exact fun _ _ => rfl
  | bwPush => exact finishUnit_mapState (bwPush_inputBlind _ _ m r d s)
  | bwFlush => exact finishUnit_mapState (bwFlush_inputBlind m r d s)
  | brPull =>
    refine finish_mapState (brPull_withInBuf h _) ?_
    exact fun _ _ => rfl
  | dictReset => exact congrArg Host.Outcome.next (dictReset_withInBuf _ _ s)
  | encDictLookup | decDictLookup => rfl
  | dictInsertIfRoom =>
    exact congrArg (fun t => Host.Outcome.next { t with result := .inserted (hasRoom s) }) (insertIfRoom_withInBuf _ _ s)
  | dictMaybeGrow => exact congrArg Host.Outcome.next (maybeGrow_withInBuf s)
  | encStart => exact guarded_mapState fun _ => encStart_inputBlind m r d s
  | encSymbol => exact guarded_mapState fun hc => encSymbol_withInBuf h hc.2
  | encFinish => exact guarded_mapState fun _ => encFinish_inputBlind m r d s
  | decStart => exact guarded_mapState fun _ => decStart_withInBuf h
  | decCode => exact guarded_mapState fun _ => decCode_withInBuf h
  | codeZeroReject | codeClear | codeFirstBad k | codeUnknown k => exact runClass_mapState (inputBlind_raise _ m r d s)
  | codeFirstLiteral k => exact runClass_mapState (codeFirstLiteral_inputBlind k m r d s)
  | codeKnown k => exact runClass_mapState (codeKnown_inputBlind k m r d s)
  | codeKwkwk k => exact runClass_mapState (codeKwkwk_inputBlind m r d s)
  | header bm b => exact guarded_mapState fun _ => takeHeader_inputBlind bm b m r d s

end Sys2Proof.Machine

open Sys2Proof Sys2Proof.Machine

/-- Settles O53: an operation that reads IN_BUF reads it below the sampled IN_LEN, and every other one is `InputBlind`. -/
theorem onlyInputBelowLengthIsRead : Obligations.OnlyInputBelowLengthIsRead := by
  unfold Obligations.OnlyInputBelowLengthIsRead
  intro s i m r d henc hdec hsame
  exact exec_withInBuf henc hdec hsame
end

section
/-! The host's accesses to the buffers (20_memory.md R50, R63), and what no operation writes (R65). Settles O10, O60 and
O52. -/

namespace Sys2Proof.Machine

variable {s : State} {i : Word32} {b : Byte} {rest : List Input}

/-! ## A host write of IN_BUF -/

theorem step_writeIn (hin : s.inputs = .writeIn i b :: rest) : step s = .next (writeIn i b { s with inputs := rest }) := by
  rw [step_eq_runFetched]
  simp only [fetch, hin, runFetched_done]

@[simp] theorem writeIn_inBuf (i : Word32) (b : Byte) (s : State) :
    (writeIn i b s).inBuf = memWrite s.inBuf i.toNat b := by
  simp only [writeIn]
  split <;> rfl

theorem writeIn_raced (i : Word32) (b : Byte) (s : State) :
    (writeIn i b s).raced = if s.status.busy = true then assocSet s.raced i.toNat s.draws else s.raced := by
  simp only [writeIn]
  split <;> rfl

/-- The record of raced bytes changes at the written index alone (20_memory.md R63). -/
theorem assocGet_writeIn_raced_ne {j : Nat} (h : j ≠ i.toNat) :
    assocGet (writeIn i b s).raced j = assocGet s.raced j := by
  rw [writeIn_raced]
  split
  · exact assocGet_set_ne _ _ h
  · rfl

theorem coreRead_writeIn_ne {j : Nat} (h : j ≠ i.toNat) : coreRead (writeIn i b s) j = coreRead s j := by
  simp only [coreRead, assocGet_writeIn_raced_ne h, writeIn_inBuf, memRead_write_ne _ b h, writeIn_keeps]

/-- Between transactions CORE reads the byte the host wrote, unless an earlier race is still recorded there. -/
theorem coreRead_writeIn_same (hidle : s.status.busy = false) (hraced : assocGet s.raced i.toNat = none) :
    coreRead (writeIn i b s) i.toNat = b := by
  simp [coreRead, writeIn_raced, hidle, hraced]

theorem writeIn_frame (i : Word32) (b : Byte) (s : State) :
    writeIn i b s = { s with
      inBuf := (writeIn i b s).inBuf, raced := (writeIn i b s).raced, draws := (writeIn i b s).draws } := by
  simp only [writeIn]
  split <;> rfl

/-! ## A host read of OUT_BUF -/

theorem outIndexExists_iff : outIndexExists s i = true ↔ ∀ c ∈ s.params.outCap, i.toNat < c := by
  unfold outIndexExists
  cases s.params.outCap <;> simp

theorem step_readOut (hin : s.inputs = .readOut i :: rest) (hi : outIndexExists s i = true) :
    step s = .next (readOut i { s with inputs := rest }) := by
  rw [step_eq_runFetched]
  simp only [fetch, hin, if_pos hi, runFetched_done]

theorem step_readOut_beyondCap (hin : s.inputs = .readOut i :: rest) (hi : ¬ outIndexExists s i = true) :
    step s = .fault .outIndexBeyondCap := by
  rw [step_eq_runFetched]
  simp only [fetch, hin, if_neg hi]
  rfl

/-- Between transactions a byte that the transaction wrote is read, with zeros above it (20_memory.md R63). -/
theorem readOut_written (hidle : s.status.busy = false) (hb : memRead s.outBuf i.toNat = some b) :
    readOut i s = { s with readData := b.setWidth 32 } := by
  simp [readOut, hidle, hb]

theorem readOut_frame (i : Word32) (s : State) :
    readOut i s = { s with readData := (readOut i s).readData, draws := (readOut i s).draws } := by
  unfold readOut
  split
  · rfl
  · split <;> rfl

end Sys2Proof.Machine

open Sys2Proof Sys2Proof.Machine

/-- Settles O10: what IN_BUF holds and CORE reads after `writeIn`, and its frame. -/
theorem hostWritesOneInputByte : Obligations.HostWritesOneInputByte := by
  unfold Obligations.HostWritesOneInputByte
  intro s i b rest hin
  refine ⟨_, step_writeIn hin, by simp, fun j hj => ⟨?_, ?_⟩, fun hidle hraced => ?_, ?_⟩
  · rw [writeIn_inBuf]
    exact memRead_write_ne _ b hj
  · exact coreRead_writeIn_ne hj
  · exact coreRead_writeIn_same hidle hraced
  · exact writeIn_frame i b _

/-- Settles O60: the two cases of `outIndexExists`, and what `readOut` returns. -/
theorem hostReadsOutputByte : Obligations.HostReadsOutputByte := by
  unfold Obligations.HostReadsOutputByte
  intro s i rest hin
  refine ⟨fun hbelow => ?_, fun ⟨c, hc, hle⟩ => ?_⟩
  · have hstep := step_readOut hin (outIndexExists_iff.2 hbelow)
    refine ⟨fun b hidle hb => ⟨b.setWidth 32, toNat_widenByte b, ?_⟩, _, hstep, readOut_frame i _⟩
    exact hstep.trans (congrArg _ (readOut_written hidle hb))
  · exact step_readOut_beyondCap hin fun hexists => absurd (outIndexExists_iff.1 hexists c hc) (by omega)

/-- Settles O52: every operation keeps the host's side of the state. -/
theorem coreLeavesHostStateAlone : Obligations.CoreLeavesHostStateAlone := by
  unfold Obligations.CoreLeavesHostStateAlone
  intro s t i hnext
  have hhost := exec_sameHostSide hnext
  simp only [SameHostSide, hostSide, Prod.mk.injEq] at hhost
  obtain ⟨hparams, hinputs, hconfig, hinLen, hinBuf, hinDraw, hread, hops⟩ := hhost
  exact ⟨hinBuf, hconfig, hinLen, hparams, hinputs, hread, hops, hinDraw⟩
end

section
/-! Words and instructions, both ways (30_encoding.md R70, R72, R76, R80, R81), and the class of a pulled code. Settles O1,
O2, O3 and O4. -/

namespace Sys2Proof

/-! ## Commands and labels -/

theorem illegalCmd_wf_iff (op : Byte) : (Instr.illegalCmd op).wf = true ↔ op ≠ 0x01#8 ∧ op ≠ 0x02#8 := by
  simp [Instr.wf]

theorem decodeCmd_illegal {op : Byte} (h : (Instr.illegalCmd op).wf = true) : decodeCmd op = .illegalCmd op := by
  obtain ⟨hencode, hdecode⟩ := (illegalCmd_wf_iff op).1 h
  simp [decodeCmd, hencode, hdecode]

theorem wf_encode_decodeCmd (v : Byte) : (decodeCmd v).wf = true ∧ encode (decodeCmd v) = [v] := by
  unfold decodeCmd
  split
  next h => subst h; exact ⟨rfl, rfl⟩
  next hencode =>
    split
    next h => subst h; exact ⟨rfl, rfl⟩
    next hdecode => exact ⟨(illegalCmd_wf_iff v).2 ⟨hencode, hdecode⟩, rfl⟩

/-- A step label stands for its operation whatever the operands: they are no bits of the word (30_encoding.md R81). -/
theorem wf_encode_label (u : UnitLabel) : u.instr.wf = true ∧ encode u.instr = [u.toByte] := by
  cases u <;> exact ⟨rfl, rfl⟩

theorem findLabel_toByte {us : List UnitLabel} {l : Byte} {u : UnitLabel} (h : findLabel us l = some u) :
    u.toByte = l := by
  induction us with
  | nil => cases h
  | cons x xs ih =>
    unfold findLabel at h
    split at h
    next hx => cases h; exact hx
    next => exact ih h

theorem decodeLabel_eq_ok {l : Byte} {i : Instr} (h : decodeLabel l = .ok i) :
    ∃ u : UnitLabel, l = u.toByte ∧ i = u.instr := by
  unfold decodeLabel at h
  split at h
  next u hu => cases h; exact ⟨u, (findLabel_toByte hu).symm, rfl⟩
  next => cases h

/-! ## The class of a code -/

/-- The condition of each row of the table of 30_encoding.md R76, without the order in which the rows are checked. Tied to the
model's `classify` by `classify_condition` and `classify_eq_of_condition`. -/
def CodeClass.Condition (c : CodeCtx) (k : Code31) : CodeClass → Prop
  | .zeroReject => c.zeroReject = true ∧ k.toNat = 0
  | .clear => c.blockMode = true ∧ k.toNat = 256
  | .firstLiteral => c.running = false ∧ k.toNat ≤ 255
  | .firstBad => c.running = false ∧ 255 < k.toNat
  | .known => c.running = true ∧ c.known = true
  | .kwkwk => c.running = true ∧ c.known = false ∧ c.isNext = true
  | .unknown => c.running = true ∧ c.known = false ∧ c.isNext = false

variable {c : CodeCtx} {k : Code31}

theorem classify_eq_zeroReject_iff : classify c k = .zeroReject ↔ CodeClass.zeroReject.Condition c k := by
  have hk : k.toNat = 0 ↔ k = 0#31 := by bv_omega
  unfold classify CodeClass.Condition
  split_ifs <;> simp_all

theorem classify_eq_clear_iff : classify c k = .clear ↔ CodeClass.clear.Condition c k := by
  have hk : k.toNat = 256 ↔ k = 256#31 := by bv_omega
  unfold classify CodeClass.Condition
  split_ifs <;> simp_all

/-- The class of a code is one whose condition holds. -/
theorem classify_condition (c : CodeCtx) (k : Code31) : (classify c k).Condition c k := by
  cases hclass : classify c k with
  | zeroReject => exact classify_eq_zeroReject_iff.1 hclass
  | clear => exact classify_eq_clear_iff.1 hclass
  | _ =>
    unfold classify at hclass
    split_ifs at hclass
    simp_all [CodeClass.Condition]

/-- The rows of the table of 30_encoding.md R76 below its first two. -/
abbrev CodeClass.AfterClear (d : CodeClass) : Prop := d ≠ .zeroReject ∧ d ≠ .clear

theorem classify_afterClear (hzero : ¬ CodeClass.zeroReject.Condition c k) (hclear : ¬ CodeClass.clear.Condition c k) :
    classify c k =
      if c.running = false then (if k.toNat ≤ 255 then .firstLiteral else .firstBad)
      else if c.known = true then .known
      else if c.isNext = true then .kwkwk
      else .unknown := by
  have hz : (c.zeroReject && k == 0#31) = false := by
    simpa [CodeClass.Condition, ← BitVec.toNat_inj] using hzero
  have hc : (c.blockMode && k == 256#31) = false := by
    simpa [CodeClass.Condition, ← BitVec.toNat_inj] using hclear
  simp [classify, hz, hc]

/-- Where neither of the first two rows applies, the condition of a row below them puts the code in its class. -/
theorem classify_eq_of_condition {d : CodeClass} (hzero : ¬ CodeClass.zeroReject.Condition c k)
    (hclear : ¬ CodeClass.clear.Condition c k) (hdrow : d.AfterClear) (hd : d.Condition c k) : classify c k = d := by
  rw [classify_afterClear hzero hclear]
  cases d with
  | zeroReject => exact absurd rfl hdrow.1
  | clear => exact absurd rfl hdrow.2
  | firstLiteral => rw [if_pos hd.1, if_pos hd.2]
  | firstBad => rw [if_pos hd.1, if_neg (Nat.not_le.2 hd.2)]
  | known | kwkwk | unknown => simp [hd.1, hd.2]

/-- A code that neither of the first two rows takes falls into a class exactly if the class's condition holds. -/
theorem classify_eq_iff_condition {d : CodeClass} (hrow : (classify c k).AfterClear) (hdrow : d.AfterClear) :
    classify c k = d ↔ d.Condition c k := by
  constructor
  · rintro rfl
    exact classify_condition c k
  · exact classify_eq_of_condition (mt classify_eq_zeroReject_iff.2 hrow.1) (mt classify_eq_clear_iff.2 hrow.2) hdrow

/-! ## Code words -/

theorem toNat_byte_append {n : Nat} (b : Byte) (w : BitVec n) : (b ++ w).toNat = w.toNat + 2 ^ n * b.toNat := by
  rw [BitVec.toNat_append, ← Nat.shiftLeft_add_eq_or_of_lt w.isLt, Nat.shiftLeft_eq, Nat.mul_comm, Nat.add_comm]

theorem word32_toNat (b0 b1 b2 b3 : Byte) :
    (word32 b0 b1 b2 b3).toNat = b0.toNat + 2 ^ 8 * b1.toNat + 2 ^ 16 * b2.toNat + 2 ^ 24 * b3.toNat := by
  simp only [word32, toNat_byte_append]

/-- A code word with bit 31 clear is the word of the code in its low 31 bits (30_encoding.md R73). -/
theorem codeBytes_word32 {b0 b1 b2 b3 : Byte} (h : b3.getLsbD 7 = false) :
    codeBytes ((word32 b0 b1 b2 b3).setWidth 31) = [b0, b1, b2, b3] := by
  have hb3 : 2 * b3.toNat < 2 ^ 8 :=
    BitVec.msb_eq_false_iff_two_mul_lt.1 (by simpa [BitVec.msb_eq_getLsbD_last] using h)
  have hw : ((word32 b0 b1 b2 b3).setWidth 31).setWidth 32 = word32 b0 b1 b2 b3 := by
    apply BitVec.eq_of_toNat_eq
    simp only [BitVec.toNat_setWidth, word32_toNat]
    omega
  have hbyte (start : Nat) (b : Byte) (hb : (word32 b0 b1 b2 b3).toNat / 2 ^ start % 2 ^ 8 = b.toNat) :
      (word32 b0 b1 b2 b3).extractLsb' start 8 = b := by
    apply BitVec.eq_of_toNat_eq
    rw [BitVec.extractLsb'_toNat, Nat.shiftRight_eq_div_pow, hb]
  rw [word32_toNat] at hbyte
  simp only [codeBytes, hw, List.cons.injEq, and_true]
  exact ⟨hbyte 0 b0 (by omega), hbyte 8 b1 (by omega), hbyte 16 b2 (by omega), hbyte 24 b3 (by omega)⟩

/-- The word of a class and a code that meets its condition, where the first two rows do not apply. -/
theorem decode_codeBytes_of_condition {d : CodeClass} (hz : c.zeroReject = false) (hb : c.blockMode = false)
    (hdrow : d.AfterClear) (hd : d.Condition c k) : decode (.code c) (codeBytes k) = .ok (d.toInstr k) := by
  have hzero : ¬ CodeClass.zeroReject.Condition c k := fun h => by simp [h.1] at hz
  have hclear : ¬ CodeClass.clear.Condition c k := fun h => by simp [h.1] at hb
  rw [decode_codeBytes, decodeCode, classify_eq_of_condition hzero hclear hdrow hd]

/-- An instruction of a class whose condition its code meets is well formed, and its word is the code's. -/
theorem wf_encode_toInstr {d : CodeClass} (hd : d.Condition c k) :
    (d.toInstr k).wf = true ∧ encode (d.toInstr k) = codeBytes k := by
  cases d with
  | zeroReject | clear => exact ⟨rfl, congrArg codeBytes (BitVec.eq_of_toNat_eq hd.2.symm)⟩
  | firstLiteral =>
    have hk : (k.setWidth 8).setWidth 31 = k := by
      have hbyte := hd.2
      bv_omega
    exact ⟨rfl, congrArg codeBytes hk⟩
  | firstBad => exact ⟨decide_eq_true hd.2, rfl⟩
  | known | kwkwk | unknown => exact ⟨rfl, rfl⟩

/-! ## The header -/

@[simp] theorem headerFields_headerByte (m : Bool) (b : Width) : headerFields (headerByte m b) = (m, b) := by
  revert b
  cases m <;> decide

/-- Bits 6:5 of a header byte are no field of it (30_encoding.md R72). -/
theorem headerByte_headerFields (h : Byte) : headerByte (headerFields h).1 (headerFields h).2 = h &&& 0x9F#8 := by
  revert h
  decide

@[simp] theorem decodeHeader_magic (b2 : Byte) :
    decodeHeader 0x1F#8 0x9D#8 b2 = .ok (.header (headerFields b2).1 (headerFields b2).2) := rfl

theorem decodeHeader_eq_ok {b0 b1 b2 : Byte} {i : Instr} (h : decodeHeader b0 b1 b2 = .ok i) :
    b0 = 0x1F#8 ∧ b1 = 0x9D#8 ∧ i = .header (headerFields b2).1 (headerFields b2).2 := by
  unfold decodeHeader at h
  split at h
  next hmagic => cases h; exact ⟨hmagic.1, hmagic.2, rfl⟩
  next => cases h

/-! ## What decodes -/

/-- The words that are instructions, each with its instruction: one case per format of the opcode table. -/
inductive DecodesTo : Form → List Byte → Instr → Prop where
  | cmd (v : Byte) : DecodesTo .cmd [v] (decodeCmd v)
  | label (u : UnitLabel) : DecodesTo .label [u.toByte] u.instr
  | code (c : CodeCtx) (k : Code31) : DecodesTo (.code c) (codeBytes k) (decodeCode c k)
  | header (b2 : Byte) : DecodesTo .header [0x1F#8, 0x9D#8, b2] (.header (headerFields b2).1 (headerFields b2).2)

theorem decodesTo_of_decode {f : Form} {bytes : List Byte} {i : Instr} (h : decode f bytes = .ok i) :
    DecodesTo f bytes i := by
  unfold decode at h
  split at h
  next v => cases h; exact .cmd v
  next l =>
    obtain ⟨u, rfl, rfl⟩ := decodeLabel_eq_ok h
    exact .label u
  next c b0 b1 b2 b3 =>
    split at h
    next => cases h
    next hbit =>
      cases h
      rw [← codeBytes_word32 (b0 := b0) (b1 := b1) (b2 := b2) (eq_false_of_ne_true hbit)]
      exact .code c _
  next b0 b1 b2 =>
    obtain ⟨rfl, rfl, rfl⟩ := decodeHeader_eq_ok h
    exact .header b2
  next => cases h

end Sys2Proof

open Sys2Proof Sys2Proof.Machine

/-- Settles O1: a format at a time; a code's class is found again in the context that `formOf` names. -/
theorem decodeOfEncode : Obligations.DecodeOfEncode := by
  unfold Obligations.DecodeOfEncode
  intro i hwf
  cases i with
  | illegalCmd op => exact congrArg Except.ok (decodeCmd_illegal hwf)
  | codeZeroReject | codeClear => exact decode_codeBytes _ _
  | codeFirstLiteral k =>
    have hwide : (k.setWidth 31).toNat = k.toNat := BitVec.toNat_setWidth_of_le (by decide)
    have hlit : (k.setWidth 31).setWidth 8 = k := BitVec.eq_of_toNat_eq (by simp)
    refine (decode_codeBytes_of_condition (d := .firstLiteral) rfl rfl (by decide) ⟨rfl, ?_⟩).trans ?_
    · omega
    · rw [CodeClass.toInstr, hlit]
  | codeFirstBad k =>
    exact decode_codeBytes_of_condition (d := .firstBad) rfl rfl (by decide) ⟨rfl, of_decide_eq_true hwf⟩
  | codeKnown k => exact decode_codeBytes_of_condition (d := .known) rfl rfl (by decide) ⟨rfl, rfl⟩
  | codeKwkwk k => exact decode_codeBytes_of_condition (d := .kwkwk) rfl rfl (by decide) ⟨rfl, rfl, rfl⟩
  | codeUnknown k => exact decode_codeBytes_of_condition (d := .unknown) rfl rfl (by decide) ⟨rfl, rfl, rfl⟩
  | header m b => exact (decodeHeader_magic _).trans (by rw [headerFields_headerByte])
  | _ => rfl -- the two commands and the fifteen labels: fixed words, read by evaluation

/-- Settles O2: per format, by the word that `DecodesTo` names. -/
theorem encodeOfDecode : Obligations.EncodeOfDecode := by
  unfold Obligations.EncodeOfDecode
  intro f bytes i h
  cases decodesTo_of_decode h with
  | cmd v => exact wf_encode_decodeCmd v
  | label u => exact wf_encode_label u
  | code c k => exact wf_encode_toInstr (classify_condition c k)
  | header b2 => exact ⟨rfl, congrArg (fun h => [0x1F#8, 0x9D#8, h]) (headerByte_headerFields b2)⟩

/-- Settles O4: `classify_eq_iff_condition` in the context of a decoder phase. -/
theorem codeClassInTableOrder : Obligations.CodeClassInTableOrder := by
  unfold Obligations.CodeClassInTableOrder
  intro s k hdec
  have hphase : ¬ s.phase = .decRunning ↔ s.phase = .decInit := by
    rcases decoding_iff.1 hdec with hp | hp <;> simp [hp]
  refine ⟨?_, classify_eq_clear_iff, fun hrow => ⟨?_, ?_, ?_, ?_, ?_⟩⟩
  · simp [classify_eq_zeroReject_iff, CodeClass.Condition, codeCtx]
  · rw [classify_eq_iff_condition hrow (by decide)]; simp [CodeClass.Condition, codeCtx, hphase]
  · rw [classify_eq_iff_condition hrow (by decide)]; simp [CodeClass.Condition, codeCtx, hphase]
  · rw [classify_eq_iff_condition hrow (by decide)]; simp [CodeClass.Condition, codeCtx, decLookup]
  · rw [classify_eq_iff_condition hrow (by decide)]; simp [CodeClass.Condition, codeCtx, decLookup]
  · rw [classify_eq_iff_condition hrow (by decide)]; simp [CodeClass.Condition, codeCtx, decLookup]

/-- Settles O3: each word is fixed, and the decoder computes its answer. -/
theorem writtenWordsDecode : Obligations.WrittenWordsDecode := by
  unfold Obligations.WrittenWordsDecode
  and_intros <;> decide
end

section
/-! The HEADER word and DEC_START (30_encoding.md R70, R72, 44_decoder.md R170). Settles O40. -/

namespace Sys2Proof.Machine

variable {s : State} {m : Bool} {b : Width}

theorem effectiveMaxBits_toNat (b : Width) : (effectiveMaxBits b).toNat = max b.toNat 9 := by
  unfold effectiveMaxBits
  split
  next hlow => exact (Nat.max_eq_right (Nat.le_of_lt hlow)).symm
  next hlow => exact (Nat.max_eq_left (Nat.le_of_not_lt hlow)).symm

/-- The two fields of a header byte do not overlap (30_encoding.md R72). -/
theorem headerByte_toNat (m : Bool) (b : Width) : (headerByte m b).toNat = 128 * m.toNat + b.toNat := by
  revert b
  cases m <;> decide

/-- HEADER runs where the decoder awaits the header (44_decoder.md R170). -/
theorem exec_header_await (hawait : s.phase = .decAwaitHeader) : exec (.header m b) s = finishUnit (takeHeader m b s) :=
  if_pos hawait

theorem exec_decStart_await (hawait : s.phase = .decAwaitHeader) : exec .decStart s = finishUnit (decStart s) :=
  if_pos hawait

theorem takeHeader_within_cap (hcap : (effectiveMaxBits b).toNat ≤ s.params.maxBitsCap) :
    takeHeader m b s = .ok () (decInit m (effectiveMaxBits b) (clearOut s)) :=
  if_neg (Nat.not_lt.2 hcap)

theorem takeHeader_above_cap (hcap : s.params.maxBitsCap < (effectiveMaxBits b).toNat) :
    takeHeader m b s = .raise .invalidHeader (clearOut s) :=
  if_pos hcap

/-- DEC_START on three bytes that are the word HEADER(m, b) takes that header. -/
theorem decStart_eq_takeHeader (hlen : 3 ≤ s.sampledInLen.toNat)
    (hword : decodeHeader (coreRead s 0) (coreRead s 1) (coreRead s 2) = .ok (.header m b)) :
    decStart s = takeHeader m b s := by
  obtain ⟨h0, h1, hfields⟩ := decodeHeader_eq_ok hword
  cases hfields
  have hread (i : Nat) : coreRead (clearOut s) i = coreRead s i := rfl
  have hmagic : ¬ (coreRead (clearOut s) 0 ≠ 0x1F#8 ∨ coreRead (clearOut s) 1 ≠ 0x9D#8) := by simp [hread, h0, h1]
  simp only [decStart, hdrRead, takeHeader, hread 2, clearOut_keeps, if_neg (Nat.not_lt.2 hlen), if_neg hmagic]
  split
  · rfl
  · rfl

end Sys2Proof.Machine

open Sys2Proof Sys2Proof.Machine

/-- Settles O40: `takeHeader` on both sides of the cap, and `decStart_eq_takeHeader`. -/
theorem headerWordTaken : Obligations.HeaderWordTaken := by
  unfold Obligations.HeaderWordTaken
  intro s m b hawait
  rw [exec_header_await hawait, exec_decStart_await hawait, ← effectiveMaxBits_toNat]
  refine ⟨fun hcap => ?_, fun hcap => ?_, fun hlen hword => ?_⟩
  · rw [takeHeader_within_cap hcap]
    exact ⟨_, headerByte m (effectiveMaxBits b), rfl, headerByte_toNat m _, rfl, ddGet_seed, rfl⟩
  · rw [takeHeader_above_cap hcap]
    exact ⟨_, rfl, abort_clearOut_abortedWith _ s⟩
  · rw [decStart_eq_takeHeader hlen hword]
end

section
/-! HDR_WRITE and HDR_READ issued on their own (40_header_codec.md R101, R102, R103). Settles O16, O17 and O19. -/

namespace Sys2Proof.Machine

variable {s : State} {m : Bool} {b : Width}

/-! ## The fields of a header byte -/

theorem headerFields_fst_toNat (h : Byte) : (headerFields h).1.toNat = h.toNat / 128 := by
  revert h
  decide

theorem headerFields_snd_toNat (h : Byte) : (headerFields h).2.toNat = h.toNat % 32 :=
  BitVec.extractLsb'_toNat ..

theorem effectiveMaxBits_eq_self (h : 9 ≤ b.toNat) : effectiveMaxBits b = b :=
  if_neg (Nat.not_lt.2 h)

/-! ## HDR_WRITE -/

/-- The `max_bits` field HDR_WRITE puts in the header (40_header_codec.md R101). -/
def writtenMaxBits (s : State) : Width := effectiveMaxBits (BitVec.ofNat 5 s.operands.maxBits.toNat)

/-- Byte 2 of the header HDR_WRITE emits. -/
def writtenHeaderByte (s : State) : Byte := headerByte s.operands.blockMode (writtenMaxBits s)

theorem writtenMaxBits_toNat (hb : s.operands.maxBits.toNat ≤ 31) :
    (writtenMaxBits s).toNat = max s.operands.maxBits.toNat 9 := by
  have hfield : (BitVec.ofNat 5 s.operands.maxBits.toNat).toNat = s.operands.maxBits.toNat :=
    Nat.mod_eq_of_lt (Nat.lt_succ_of_le hb)
  rw [writtenMaxBits, effectiveMaxBits_toNat, hfield]

/-- With `b` in range HDR_WRITE emits the magic and byte 2. -/
theorem hdrWrite_operands (hb : s.operands.maxBits.toNat ≤ 31) :
    hdrWrite s.operands.blockMode s.operands.maxBits.toNat s = emitAll [0x1F#8, 0x9D#8, writtenHeaderByte s] s :=
  if_neg (Nat.not_lt.2 hb)

theorem exec_hdrWrite_room (hb : s.operands.maxBits.toNat ≤ 31) (hroom : RoomFor 3 s) :
    ∃ t, exec .hdrWrite s = .next t ∧ Appended [0x1F, 0x9D, writtenHeaderByte s] s t ∧
      t = { s with outBuf := t.outBuf, outLen := t.outLen } := by
  obtain ⟨t, hemit, happended, hframe⟩ := emitAll_room [0x1F#8, 0x9D#8, writtenHeaderByte s] s hroom
  have hexec : exec .hdrWrite s = finishUnit (hdrWrite s.operands.blockMode s.operands.maxBits.toNat s) := rfl
  rw [hdrWrite_operands hb, hemit] at hexec
  exact ⟨t, hexec, happended, hframe⟩

/-! ## HDR_READ -/

/-- With three bytes, the magic and a legal `max_bits`, HDR_READ returns the fields of byte 2, `max_bits` clamped. -/
theorem exec_hdrRead_good (hlen : 3 ≤ s.sampledInLen.toNat) (h0 : coreRead s 0 = 0x1F) (h1 : coreRead s 1 = 0x9D)
    (hfields : headerFields (coreRead s 2) = (m, b)) (hcap : (effectiveMaxBits b).toNat ≤ s.params.maxBitsCap) :
    exec .hdrRead s = .next { s with result := .headerRead m (effectiveMaxBits b) } := by
  have hmagic : ¬ (coreRead s 0 ≠ 0x1F#8 ∨ coreRead s 1 ≠ 0x9D#8) := by simp [h0, h1]
  have hread : hdrRead s = .ok (m, effectiveMaxBits b) s := by
    simp only [hdrRead, if_neg (Nat.not_lt.2 hlen), if_neg hmagic, hfields, if_neg (Nat.not_lt.2 hcap)]
  exact congrArg (finish · fun r t => { t with result := .headerRead r.1 r.2 }) hread

end Sys2Proof.Machine

open Sys2Proof Sys2Proof.Machine

/-- Settles O16: HDR_WRITE is `emitAll` of the three bytes, and byte 2 is the sum of its fields. -/
theorem hdrWriteEmitsHeader : Obligations.HdrWriteEmitsHeader := by
  unfold Obligations.HdrWriteEmitsHeader
  intro s hb hroom
  obtain ⟨t, hexec, happended, hframe⟩ := exec_hdrWrite_room hb hroom
  refine ⟨t, writtenHeaderByte s, hexec, ?_, happended, hframe⟩
  rw [writtenHeaderByte, headerByte_toNat, writtenMaxBits_toNat hb]

/-- Settles O17: `exec_hdrRead_good`, with the fields of byte 2 as quotient and remainder. -/
theorem hdrReadReturnsFields : Obligations.HdrReadReturnsFields := by
  unfold Obligations.HdrReadReturnsFields
  intro s hlen h0 h1 hcap
  rw [← headerFields_snd_toNat, ← effectiveMaxBits_toNat] at hcap ⊢
  exact ⟨_, _, exec_hdrRead_good hlen h0 h1 rfl hcap, headerFields_fst_toNat _, rfl⟩

/-- Settles O19: byte 2 holds the fields HDR_WRITE put there (`headerFields_headerByte`), and reading does not clamp a
field of at least 9 again. -/
theorem headerFidelity : Obligations.HeaderFidelity := by
  unfold Obligations.HeaderFidelity
  intro s u hb hroom hcap9 hcap
  obtain ⟨t, hexec, ⟨-, hbytes, -⟩, -⟩ := exec_hdrWrite_room hb hroom
  refine ⟨t, hexec, fun hlen hsame => ?_⟩
  have hread (j : Nat) (hj : j < 3) : some (coreRead u j) = [0x1F, 0x9D, writtenHeaderByte s][j]? :=
    (hsame j hj).symm.trans (hbytes j hj)
  have h0 : coreRead u 0 = 0x1F := Option.some.inj (hread 0 (by decide))
  have h1 : coreRead u 1 = 0x9D := Option.some.inj (hread 1 (by decide))
  have h2 : coreRead u 2 = writtenHeaderByte s := Option.some.inj (hread 2 (by decide))
  have hfields : headerFields (coreRead u 2) = (s.operands.blockMode, writtenMaxBits s) := by
    rw [h2, writtenHeaderByte, headerFields_headerByte]
  have hvalue := writtenMaxBits_toNat hb
  have hclamp : effectiveMaxBits (writtenMaxBits s) = writtenMaxBits s := effectiveMaxBits_eq_self (by omega)
  have hgood := exec_hdrRead_good hlen h0 h1 hfields (by rw [hclamp]; omega)
  exact ⟨_, hgood, by rw [hclamp]; omega⟩
end

section
/-! BW_PUSH and BW_FLUSH, and the packing law (41_bitstream.md R110, R112, R113). Settles O20, O21 and O22. -/

namespace Sys2Proof.Machine

variable {s t u : State} {c w : Nat}

/-! ## Digits -/

theorem getElem?_digits (v : Nat) {n j : Nat} (h : j < n) : (digits v n)[j]? = some (BitVec.ofNat 8 (v / 256 ^ j)) := by
  simp [digits, h]

theorem digits_append (v m n : Nat) : digits v m ++ digits (v / 256 ^ m) n = digits v (m + n) := by
  induction m generalizing v with
  | zero => simp
  | succ m ih =>
    rw [Nat.add_right_comm, digits_succ, digits_succ, ← ih, Nat.div_div_eq_div_mul, Nat.pow_succ', List.cons_append]

/-- The low digits do not see what stands above them. -/
theorem digits_add_mul (v x n : Nat) : digits (v + x * 256 ^ n) n = digits v n := by
  induction n generalizing v with
  | zero => rfl
  | succ n ih =>
    have hsplit : v + x * 256 ^ (n + 1) = v + x * 256 ^ n * 256 := by ring
    have hbyte : BitVec.ofNat 8 (v + x * 256 ^ n * 256) = BitVec.ofNat 8 v :=
      BitVec.eq_of_toNat_eq (Nat.add_mul_mod_self_right v _ 256)
    rw [digits_succ, digits_succ, hsplit, hbyte, Nat.add_mul_div_right _ _ (by decide), ih]

/-! ## BW_FLUSH -/

theorem acc_lt_256 (hp : PackerWf s) : s.acc.toNat < 256 :=
  hp.1.trans_le (Nat.pow_le_pow_right (by decide) hp.2)

theorem bwFlush_empty (h : s.nbits.toNat = 0) : bwFlush s = .ok () s :=
  if_pos h

/-- With bits pending and room for a byte, BW_FLUSH emits them (41_bitstream.md R112). -/
theorem bwFlush_pending (h : 0 < s.nbits.toNat) (hr : RoomFor 1 s) :
    ∃ t, bwFlush s = .ok () t ∧ Appended [s.acc.setWidth 8] s t ∧
      t = { s with outBuf := t.outBuf, outLen := t.outLen, acc := 0, nbits := 0 } := by
  obtain ⟨u, hemit, happended, hframe⟩ := emit_room (s.acc.setWidth 8) s hr
  refine ⟨{ u with acc := 0, nbits := 0 }, ?_, happended, by rw [hframe]⟩
  rw [bwFlush, if_neg (Nat.pos_iff_ne_zero.1 h), hemit, resBind_ok]

/-- Whatever is pending, BW_FLUSH emits its digits and leaves the packer empty. -/
theorem bwFlush_room (hp : PackerWf s) (hr : RoomFor ((s.nbits.toNat + 7) / 8) s) :
    ∃ t, bwFlush s = .ok () t ∧ Appended (digits s.acc.toNat ((s.nbits.toNat + 7) / 8)) s t ∧
      t = { s with outBuf := t.outBuf, outLen := t.outLen, acc := 0, nbits := 0 } := by
  have hle := hp.2
  rcases Nat.eq_zero_or_pos s.nbits.toNat with hzero | hpos
  · have hacc : s.acc = 0 := BitVec.eq_of_toNat_eq (by have := hp.1; rw [hzero] at this; simpa using this)
    have hnbits : s.nbits = 0 := BitVec.eq_of_toNat_eq hzero
    refine ⟨s, bwFlush_empty hzero, ?_, by rw [← hacc, ← hnbits]⟩
    rw [hzero]
    exact ⟨rfl, by simp, by simp⟩
  · have hone : (s.nbits.toNat + 7) / 8 = 1 := by omega
    have hbyte : digits s.acc.toNat 1 = [s.acc.setWidth 8] := by simp [digits_succ]
    rw [hone] at hr ⊢
    rw [hbyte]
    exact bwFlush_pending hpos hr

/-! ## Pushes and a flush -/

/-- A push and the codes after it: of all the bits to come, the push emits the low digits, and the rest is to come. -/
theorem Packs.pending_rest (hpush : Packs c w s u) (rest : List (Nat × Nat)) (hw : 1 ≤ w) :
    pendingWith (packedValue ((c, w) :: rest)) s =
      pendingWith c s + packedValue rest * 2 ^ u.nbits.toNat * 256 ^ peelCount w s := by
  obtain ⟨-, -, hnbits⟩ := hpush
  have hpow : 2 ^ w * 2 ^ s.nbits.toNat = 2 ^ u.nbits.toNat * 256 ^ peelCount w s := by
    rw [pow256, ← Nat.pow_add, ← Nat.pow_add, hnbits]
    congr 1
    unfold peelCount
    omega
  simp only [pendingWith, packedValue]
  rw [Nat.mul_assoc _ (2 ^ u.nbits.toNat), ← hpow]
  ring

/-- What a push emits and what is to come after it are together what was to come before it. -/
theorem Packs.digits_rest (hpush : Packs c w s u) (rest : List (Nat × Nat)) (hw : 1 ≤ w) (n : Nat) :
    digits (pendingWith c s) (peelCount w s) ++ digits (pendingWith (packedValue rest) u) n =
      digits (pendingWith (packedValue ((c, w) :: rest)) s) (peelCount w s + n) := by
  have hsplit := hpush.pending_rest rest hw
  obtain ⟨-, hacc, -⟩ := hpush
  rw [← digits_append, hsplit, digits_add_mul, Nat.add_mul_div_right _ _ (Nat.pow_pos (by decide)), ← hacc]
  rfl

theorem pendingWith_empty (hacc : s.acc = 0) (hnbits : s.nbits = 0) : pendingWith c s = c := by
  simp [pendingWith, hacc, hnbits]

/-- The packing law from any packer (41_bitstream.md R113): the digits of the pending bits with the codes above them. -/
theorem pushAll_bwFlush_room (codes : List (Nat × Nat)) (s : State) (hvalid : ∀ e ∈ codes, ValidCode e.1 e.2)
    (hp : PackerWf s) (hr : RoomFor ((s.nbits.toNat + totalBits codes + 7) / 8) s) :
    ∃ t, resBind (pushAll codes s) (fun _ u => bwFlush u) = .ok () t ∧
      Appended (digits (pendingWith (packedValue codes) s) ((s.nbits.toNat + totalBits codes + 7) / 8)) s t ∧
      t = { s with outBuf := t.outBuf, outLen := t.outLen, acc := 0, nbits := 0 } := by
  induction codes generalizing s with
  | nil =>
    simpa [pushAll, pendingWith, packedValue, totalBits] using bwFlush_room hp hr
  | cons e rest ih =>
    obtain ⟨c, w⟩ := e
    obtain ⟨hcode : ValidCode c w, hrest⟩ := List.forall_mem_cons.1 hvalid
    have hw : 1 ≤ w := hcode.1
    have hbits : totalBits ((c, w) :: rest) = w + totalBits rest := rfl
    have hcount : peelCount w s = (s.nbits.toNat + w - 1) / 8 := rfl
    rw [hbits] at hr ⊢
    obtain ⟨u, hpush, hpacks, hpu, -, hframe⟩ := bwPush_room hcode hp (hr.mono (by omega))
    have ⟨hemitted, _, hnbits⟩ := hpacks
    have hbytes : (s.nbits.toNat + (w + totalBits rest) + 7) / 8 =
        peelCount w s + (u.nbits.toNat + totalBits rest + 7) / 8 := by omega
    rw [hbytes] at hr ⊢
    obtain ⟨t, hrun, happended, hframe'⟩ :=
      ih u hrest hpu (RoomFor.after (by rwa [digits_length]) hemitted (by rw [hframe]))
    refine ⟨t, by rw [pushAll, hpush]; exact hrun, ?_, by rw [hframe', hframe]⟩
    rw [← hpacks.digits_rest rest hw]
    exact hemitted.trans happended

end Sys2Proof.Machine

open Sys2Proof Sys2Proof.Machine

/-- Settles O22: `pushAll_bwFlush_room` from the empty packer, which adds no bits. -/
theorem packingLaw : Obligations.PackingLaw := by
  unfold Obligations.PackingLaw
  intro codes s hvalid hacc hnbits hroom
  have hpending : s.nbits.toNat = 0 := congrArg BitVec.toNat hnbits
  have hlaw := pushAll_bwFlush_room codes s hvalid (packerWf_of_empty hacc hnbits)
  rw [pendingWith_empty hacc hnbits, hpending, Nat.zero_add] at hlaw
  obtain ⟨t, hrun, happended, hframe⟩ := hlaw hroom
  exact ⟨t, hrun, happended, by rw [hframe, ← hacc, ← hnbits]⟩

/-- Settles O20: `bwPush_room` at the latched operands. -/
theorem bwPushPacksCode : Obligations.BwPushPacksCode := by
  unfold Obligations.BwPushPacksCode
  intro s hvalid hp hroom
  obtain ⟨t, hpush, hpacks, hpt, hpending, hframe⟩ := bwPush_room hvalid hp hroom
  exact ⟨t, congrArg finishUnit hpush, hpacks, hpt, hpending, hframe⟩

/-- Settles O21: BW_FLUSH with nothing pending and with a byte's bits pending. -/
theorem bwFlushEmitsPendingBits : Obligations.BwFlushEmitsPendingBits := by
  unfold Obligations.BwFlushEmitsPendingBits
  intro s hp
  refine ⟨fun hzero => congrArg finishUnit (bwFlush_empty hzero), fun hpos hroom => ?_⟩
  obtain ⟨t, hflush, happended, hframe⟩ := bwFlush_pending hpos hroom
  have hbyte : (s.acc.setWidth 8).toNat = s.acc.toNat :=
    (BitVec.toNat_setWidth 8 s.acc).trans (Nat.mod_eq_of_lt (acc_lt_256 hp))
  exact ⟨t, s.acc.setWidth 8, congrArg finishUnit hflush, hbyte, happended, hframe⟩
end

section
/-! BR_PULL and the unpacking law (41_bitstream.md R114 to R117). Settles O23 and O25. -/

namespace Sys2Proof.Machine

variable {s : State} {c w : Nat} {rest : List (Nat × Nat)}

/-! ## The stream's value -/

/-- The codes of a list take `totalBits` bits. -/
theorem packedValue_lt (codes : List (Nat × Nat)) (hvalid : ∀ e ∈ codes, ValidCode e.1 e.2) :
    packedValue codes < 2 ^ totalBits codes := by
  induction codes with
  | nil => decide
  | cons e rest ih =>
    obtain ⟨c, w⟩ := e
    obtain ⟨⟨-, -, hfits⟩, hrest⟩ := List.forall_mem_cons.1 hvalid
    have habove : (packedValue rest + 1) * 2 ^ w ≤ 2 ^ totalBits rest * 2 ^ w := Nat.mul_le_mul_right _ (ih hrest)
    rw [packedValue, totalBits, Nat.pow_add, Nat.mul_comm (2 ^ w)]
    rw [Nat.add_mul, Nat.one_mul] at habove
    exact (Nat.add_lt_add_right hfits _).trans_le (by rwa [Nat.add_comm] at habove)

theorem packedValue_cons_mod (hfits : c < 2 ^ w) : packedValue ((c, w) :: rest) % 2 ^ w = c := by
  rw [packedValue, Nat.add_mul_mod_self_right, Nat.mod_eq_of_lt hfits]

theorem packedValue_cons_div (hfits : c < 2 ^ w) : packedValue ((c, w) :: rest) / 2 ^ w = packedValue rest := by
  rw [packedValue, Nat.add_mul_div_right _ _ (Nat.pow_pos (by decide)), Nat.div_eq_of_lt hfits, Nat.zero_add]

/-- Input bytes that are digits of `v` add its low part to the input's value (20_memory.md R54). -/
theorem inputValue_add_digits {i n v : Nat} (h : ∀ j, j < n → coreRead s (i + j) = BitVec.ofNat 8 (v / 256 ^ j)) :
    inputValue s (i + n) = inputValue s i + v % 256 ^ n * 256 ^ i := by
  induction n with
  | zero => simp [Nat.mod_one]
  | succ n ih =>
    have hbyte : (coreRead s (i + n)).toNat = v / 256 ^ n % 256 := by
      rw [h n n.lt_succ_self]
      exact BitVec.toNat_ofNat _ 8
    rw [← Nat.add_assoc, inputValue, ih fun j hj => h j (hj.trans n.lt_succ_self), hbyte, Nat.mod_pow_succ]
    ring

/-- The bits of the input from its cursor on, as one number. -/
def bitsAhead (s : State) : Nat := inputValue s s.sampledInLen.toNat / 2 ^ cursorPos s

theorem codeAt_eq_bitsAhead_mod (w : Nat) (s : State) : codeAt w s = bitsAhead s % 2 ^ w := rfl

/-- The cursor is no part of what the input holds. -/
theorem inputValue_advanced (w n : Nat) (s : State) : inputValue (advanced w s) n = inputValue s n := by
  induction n with
  | zero => rfl
  | succ n ih => exact congrArg (· + (coreRead s n).toNat * 256 ^ n) ih

theorem bitsAhead_advanced (hleft : BitsLeft w s) : bitsAhead (advanced w s) = bitsAhead s / 2 ^ w := by
  unfold bitsAhead
  rw [inputValue_advanced, cursorPos_advanced hleft, Nat.pow_add, Nat.div_div_eq_div_mul]
  rfl

/-! ## Pulls -/

/-- Where the bits ahead are those of a list of codes, pulls of their widths return the codes and move the cursor past
them. -/
theorem pullAll_packed (codes : List (Nat × Nat)) (s : State) (hvalid : ∀ e ∈ codes, ValidCode e.1 e.2)
    (hleft : BitsLeft (totalBits codes) s) (hahead : bitsAhead s = packedValue codes) :
    ∃ t, pullAll (codes.map Prod.snd) s = .ok (codes.map fun e => some (BitVec.ofNat 31 e.1)) t ∧
      cursorPos t = cursorPos s + totalBits codes ∧ t.sampledInLen = s.sampledInLen := by
  induction codes generalizing s with
  | nil => exact ⟨s, rfl, rfl, rfl⟩
  | cons e rest ih =>
    obtain ⟨c, w⟩ := e
    obtain ⟨⟨hw1, hw31, hfits⟩, hrest⟩ := List.forall_mem_cons.1 hvalid
    have hbits : totalBits ((c, w) :: rest) = w + totalBits rest := rfl
    rw [BitsLeft, hbits] at hleft
    have hleftw : BitsLeft w s := by unfold BitsLeft; omega
    have hcursor := cursorPos_advanced hleftw
    have hpull : brPull w s = .ok (some (BitVec.ofNat 31 c)) (advanced w s) := by
      rw [(brPull_spec hw1 hw31).1 hleftw, codeAt_eq_bitsAhead_mod, hahead, packedValue_cons_mod hfits]
    have hleftRest : BitsLeft (totalBits rest) (advanced w s) := by
      rw [BitsLeft, hcursor, Nat.add_assoc]
      exact hleft
    obtain ⟨t, hrun, hpos, hlen⟩ := ih (advanced w s) hrest hleftRest
      (by rw [bitsAhead_advanced hleftw, hahead, packedValue_cons_div hfits])
    refine ⟨t, ?_, by rw [hpos, hcursor, hbits, Nat.add_assoc], hlen⟩
    simp only [List.map_cons, pullAll, hpull, hrun, resBind_ok]

end Sys2Proof.Machine

open Sys2Proof Sys2Proof.Machine

/-- Settles O25: the bits ahead at index 3 are the packed value, whose padding bits are fewer than 8. -/
theorem unpackingLaw : Obligations.UnpackingLaw := by
  unfold Obligations.UnpackingLaw
  intro codes s hvalid hlen hbytes hbyte hbit
  have hcursor : cursorPos s = 24 := by rw [cursorPos, hbyte, hbit]; rfl
  have hfits : packedValue codes < 256 ^ ((totalBits codes + 7) / 8) := by
    rw [pow256]
    exact (packedValue_lt codes hvalid).trans_le (Nat.pow_le_pow_right (by decide) (by omega))
  have hahead : bitsAhead s = packedValue codes := by
    have hdigit (j : Nat) (hj : j < (totalBits codes + 7) / 8) :
        coreRead s (3 + j) = BitVec.ofNat 8 (packedValue codes / 256 ^ j) :=
      Option.some.inj ((hbytes j hj).trans (getElem?_digits _ hj))
    have hheader : inputValue s 3 / 2 ^ 24 = 0 := Nat.div_eq_of_lt (inputValue_lt s 3)
    rw [bitsAhead, hlen, hcursor, inputValue_add_digits hdigit, Nat.mod_eq_of_lt hfits, pow256 3,
      Nat.add_mul_div_right _ _ (by decide), hheader, Nat.zero_add]
  obtain ⟨t, hrun, hpos, hlenT⟩ := pullAll_packed codes s hvalid (by unfold BitsLeft; omega) hahead
  refine ⟨t, hrun, fun w hw8 hw31 => (brPull_spec (by omega) hw31).2 ?_⟩
  rw [BitsLeft, hpos, hlenT]
  omega

/-- Settles O23: `brPull_spec` at the latched width, in both cases. -/
theorem brPullTakesBitsAtCursor : Obligations.BrPullTakesBitsAtCursor := by
  unfold Obligations.BrPullTakesBitsAtCursor
  intro s h1 h31
  obtain ⟨hpull, hnone⟩ := brPull_spec (s := s) h1 h31
  have hexec : exec .brPull s =
      finish (brPull s.operands.width.toNat s) fun k t => { t with result := .pulled k } := rfl
  refine ⟨fun hleft => ⟨?_, cursorPos_advanced hleft⟩, fun hshort => ?_⟩
  · rw [hexec, hpull hleft, finish_ok]
  · rw [hexec, hnone hshort, finish_ok]
end

section
/-! The dictionary unit's operations issued on their own (42_dictionary.md R130 to R134), and the dictionary after it is
full (R136). Settles O26 to O30. -/

namespace Sys2Proof.Machine

variable {s t u : State}

/-! ## What each operation writes -/

/-- The frame of DICT_RESET (42_dictionary.md R130). -/
theorem dictReset_frame (m : Bool) (side : Side) (s : State) :
    dictReset m side s = { s with
      blockMode := (dictReset m side s).blockMode, codeWidth := (dictReset m side s).codeWidth
      nextCode := (dictReset m side s).nextCode, dd := (dictReset m side s).dd, ed := (dictReset m side s).ed } := by
  cases side <;> rfl

/-- The frame of DICT_INSERT_IF_ROOM (42_dictionary.md R133). -/
theorem insertIfRoom_frame (side : Side) (key : Symbols) (s : State) :
    insertIfRoom side key s = { s with
      dd := (insertIfRoom side key s).dd, ed := (insertIfRoom side key s).ed
      nextCode := (insertIfRoom side key s).nextCode } := by
  unfold insertIfRoom
  split
  · cases side <;> rfl
  · rfl

/-- The frame of DICT_MAYBE_GROW (42_dictionary.md R134). -/
theorem maybeGrow_frame (s : State) : maybeGrow s = { s with codeWidth := (maybeGrow s).codeWidth } := by
  unfold maybeGrow
  split <;> rfl

theorem firstAssignable_toNat (m : Bool) : (firstAssignable m).toNat = if m then 257 else 256 := by
  cases m <;> rfl

/-- A width below `S.max_bits` grows without leaving its 5 bits. -/
theorem grownWidth_toNat (next : Nat) (s : State) :
    (grownWidth next s).toNat =
      if next = 2 ^ s.codeWidth.toNat ∧ s.codeWidth.toNat < s.maxBits.toNat then s.codeWidth.toNat + 1
      else s.codeWidth.toNat := by
  unfold grownWidth
  split
  next hgrow =>
    have hbelow := hgrow.2
    have hmax := s.maxBits.isLt
    bv_omega
  next => rfl

/-! ## The full dictionary at the greatest width -/

/-- The dictionary can neither take an entry nor grow (42_dictionary.md R136). -/
structure Frozen (s : State) : Prop where
  width_eq : s.codeWidth = s.maxBits
  next_eq : s.nextCode.toNat = dictSizeMax s

theorem Frozen.not_hasRoom (h : Frozen s) : ¬ hasRoom s = true := by
  rw [hasRoom_iff]
  exact h.next_eq.not_lt

theorem Frozen.insertIfRoom_eq (h : Frozen s) (side : Side) (key : Symbols) : insertIfRoom side key s = s :=
  if_neg h.not_hasRoom

theorem Frozen.maybeGrow_eq (h : Frozen s) : maybeGrow s = s :=
  if_neg fun hgrow => hgrow.2.ne (congrArg BitVec.toNat h.width_eq)

theorem Frozen.insertThenGrow_eq (h : Frozen s) (key : Symbols) : insertThenGrow key s = s :=
  if_neg h.not_hasRoom

/-- The tables and the registers that bound them. -/
def dictionary (s : State) : EncTable × DecTable × Word32 × Width × Width :=
  (s.ed, s.dd, s.nextCode, s.codeWidth, s.maxBits)

def SameDictionary (s t : State) : Prop := dictionary t = dictionary s

theorem sameDictionary_iff :
    SameDictionary s t ↔
      t.ed = s.ed ∧ t.dd = s.dd ∧ t.nextCode = s.nextCode ∧ t.codeWidth = s.codeWidth ∧ t.maxBits = s.maxBits := by
  simp only [SameDictionary, dictionary, Prod.mk.injEq]

theorem SameDictionary.trans (h1 : SameDictionary s t) (h2 : SameDictionary t u) : SameDictionary s u :=
  Eq.trans h2 h1

theorem Emits.sameDictionary (h : Emits s t) : SameDictionary s t := by
  rw [h.2]
  rfl

theorem CursorMoved.sameDictionary (h : CursorMoved s t) : SameDictionary s t := by
  rw [h]
  rfl

theorem Frozen.of_sameDictionary (h : Frozen s) (hsame : SameDictionary s t) : Frozen t := by
  obtain ⟨-, -, hnext, hwidth, hmax⟩ := sameDictionary_iff.1 hsame
  refine ⟨by rw [hwidth, hmax, h.width_eq], ?_⟩
  rw [hnext, h.next_eq, dictSizeMax, dictSizeMax, hwidth]

/-! ## The steps of a transaction on a frozen dictionary -/

theorem Frozen.takeEntry (h : Frozen s) (entry : Symbols) : (takeEntry entry s).All (SameDictionary s) := by
  refine (emitAll_emits entry s).bind (fun _ hu => hu.sameDictionary) fun _ u hu => ?_
  split
  · rw [(h.of_sameDictionary hu.sameDictionary).insertThenGrow_eq]
    exact hu.sameDictionary
  · trivial

theorem codeFirstLiteral_sameDictionary (k : Byte) (s : State) : (codeFirstLiteral k s).All (SameDictionary s) :=
  (emitAll_emits [k] s).bind (fun _ hu => hu.sameDictionary) fun _ _ hu => hu.sameDictionary

theorem Frozen.takeCode (h : Frozen s) (k : Code31) : (takeCode k s).All (SameDictionary s) := by
  rcases takeCode_cases k s with ⟨e, hr⟩ | ⟨b, hr⟩ | hr | ⟨entry, hr⟩ <;> rw [hr]
  · rfl
  · exact codeFirstLiteral_sameDictionary b s
  · trivial
  · exact h.takeEntry entry

theorem Frozen.decCode (h : Frozen s) : (decCode s).All (SameDictionary s) := by
  refine (brPull_cursorMoved _ s).bind (fun _ hu => hu.sameDictionary) fun r u hu => ?_
  cases r with
  | none => exact hu.sameDictionary
  | some k =>
    have hnoted : SameDictionary s (noteWidth u) := hu.sameDictionary
    exact ((h.of_sameDictionary hnoted).takeCode k).mono fun _ => hnoted.trans

/-- A miss neither grows the width nor inserts the extended match. -/
theorem Frozen.encSymbol (h : Frozen s) : (encSymbol s).All (SameDictionary s) := by
  unfold Machine.encSymbol
  simp only []
  split
  · rfl
  · refine (pushMatch_emits _).bind (fun _ hu => hu.sameDictionary) fun _ u hu => ?_
    have hsame : SameDictionary s u := hu.sameDictionary
    have hfrozen := h.of_sameDictionary hsame
    rw [hfrozen.maybeGrow_eq, hfrozen.insertIfRoom_eq]
    exact hsame

/-- ENC_FINISH emits only, whatever the dictionary. -/
theorem encFinish_sameDictionary (s : State) : (encFinish s).All (SameDictionary s) :=
  (lastMatch_emits s).bind (fun _ hu => hu.sameDictionary) fun _ u hu =>
    (bwFlush_emits u).bind (fun _ hv => (hu.trans hv).sameDictionary) fun _ _ hv => (hu.trans hv).sameDictionary

/-- The step that an operation is keeps what its pseudocode keeps: an abort touches no dictionary. -/
theorem sameDictionary_of_finishUnit {r : Res Unit} (h : r.All (SameDictionary s)) (hnext : finishUnit r = .next t) :
    SameDictionary s t :=
  h.of_finish (fun _ _ hu => hu) (fun _ _ hu => hu) hnext

end Sys2Proof.Machine

open Sys2Proof Sys2Proof.Machine

/-- Settles O30: each of the three steps, once it has run, keeps the dictionary's registers. -/
theorem frozenDictionaryStays : Obligations.FrozenDictionaryStays := by
  unfold Obligations.FrozenDictionaryStays
  intro s t i hwidth hnext hi hstep
  have hfrozen : Frozen s := ⟨hwidth, hnext⟩
  rw [← sameDictionary_iff]
  simp only [List.mem_cons, List.not_mem_nil, or_false] at hi
  rcases hi with rfl | rfl | rfl
  · exact sameDictionary_of_finishUnit hfrozen.encSymbol (guarded_eq_next hstep).2
  · exact sameDictionary_of_finishUnit (encFinish_sameDictionary s) (guarded_eq_next hstep).2
  · exact sameDictionary_of_finishUnit hfrozen.decCode (guarded_eq_next hstep).2

/-- Settles O26: the registers by `dictReset_sets`, the tables side by side. -/
theorem dictResetSeedsTable : Obligations.DictResetSeedsTable := by
  unfold Obligations.DictResetSeedsTable
  intro s
  obtain ⟨hblock, hwidth, hnext⟩ := dictReset_sets s.operands.blockMode s.operands.side s
  refine ⟨_, rfl, hblock, by rw [hwidth]; rfl, by rw [hnext, firstAssignable_toNat], fun hside => ?_, fun hside => ?_,
    dictReset_frame _ _ s⟩
  · rw [hside]
    exact ⟨rfl, ddGet_seed⟩
  · rw [hside]
    exact ⟨rfl, edGet_seed, fun _ => edGet_seed_other⟩

/-- Settles O28: `insertIfRoom_encode` and `insertIfRoom_decode` at the latched operands. -/
theorem insertIfRoomTakesNextCode : Obligations.InsertIfRoomTakesNextCode := by
  unfold Obligations.InsertIfRoomTakesNextCode
  intro s
  refine ⟨_, rfl, rfl, fun hside => ?_, fun hside => ?_, ?_⟩
  · rw [hside]
    exact (insertIfRoom_encode s.operands.key s).symm
  · rw [hside]
    exact (insertIfRoom_decode s.operands.key s).symm
  · exact congrArg ({ · with result := .inserted (hasRoom s) }) (insertIfRoom_frame s.operands.side s.operands.key s)

/-- Settles O27: each lookup's meaning is its table's read. -/
theorem lookupsReturnEntry : Obligations.LookupsReturnEntry := by
  unfold Obligations.LookupsReturnEntry
  intro s
  exact ⟨rfl, rfl⟩

/-- Settles O29: the width is `grownWidth`, which stays within 5 bits. -/
theorem maybeGrowAddsOne : Obligations.MaybeGrowAddsOne := by
  unfold Obligations.MaybeGrowAddsOne
  intro s
  exact ⟨_, rfl, by rw [maybeGrow_codeWidth, grownWidth_toNat], maybeGrow_frame s⟩
end

section
/-! The controller's turn, and which of its steps it then takes (43_encoder.md R155, 44_decoder.md R176). Settles O6. -/

namespace Sys2Proof.Machine

variable {s : State}

/-- While `BUSY = 1`, a host with no move pending, or one that waits, leaves the turn to CORE. -/
theorem fetch_eq_coreTurn (hbusy : s.status.busy = true) (hturn : s.inputs = [] ∨ s.inputs.head? = some .wait) :
    fetch s = coreTurn s := by
  rcases hturn with hin | hwait
  · simp only [fetch, hin]
  · obtain ⟨rest, hin⟩ := List.head?_eq_some_iff.1 hwait
    simp only [fetch, hin, hbusy, if_true]

/-- CORE's turn while `BUSY = 1` runs the controller's next step. -/
theorem step_eq_controller {l : UnitLabel} (hbusy : s.status.busy = true)
    (hturn : s.inputs = [] ∨ s.inputs.head? = some .wait) (hlabel : nextLabel s = some l) :
    step s = exec l.instr s := by
  rw [step_eq_runFetched, fetch_eq_coreTurn hbusy hturn]
  simp only [coreTurn, hbusy, hlabel, runFetched_label]

theorem nextLabel_encStart (hphase : s.phase = .encEmpty) (hstart : s.starting = true) :
    nextLabel s = some .encStart := by
  simp only [nextLabel, hphase, hstart, if_true]

/-- A started ENCODE takes its symbols, then finishes (43_encoder.md R155). -/
theorem nextLabel_encoding (he : encoding s = true) :
    nextLabel s = some (if s.inIdx.toNat < s.sampledInLen.toNat then .encSymbol else .encFinish) := by
  obtain ⟨hphase | hphase, hstart⟩ := encoding_iff.1 he <;>
    simp only [nextLabel, hphase, hstart, Bool.false_eq_true, if_false, apply_ite some]

theorem nextLabel_decStart (hphase : s.phase = .decAwaitHeader) : nextLabel s = some .decStart := by
  simp only [nextLabel, hphase]

theorem nextLabel_decoding (hd : decoding s = true) : nextLabel s = some .decCode := by
  rcases decoding_iff.1 hd with hphase | hphase <;> simp only [nextLabel, hphase]

end Sys2Proof.Machine

open Sys2Proof Sys2Proof.Machine

/-- Settles O6: in each running phase, `step_eq_controller` at the controller's next label. -/
theorem controllerOrder : Obligations.ControllerOrder := by
  unfold Obligations.ControllerOrder
  intro s hbusy hturn
  refine ⟨fun ⟨hphase, hstart⟩ => ?start, fun hphase hstart => ?encode, fun hphase => ?header, fun hphase => ?code⟩
  case start => exact step_eq_controller hbusy hturn (nextLabel_encStart hphase hstart)
  case encode =>
    rw [step_eq_controller hbusy hturn (nextLabel_encoding (encoding_iff.2 ⟨hphase, hstart⟩))]
    split <;> rfl
  case header => exact step_eq_controller hbusy hturn (nextLabel_decStart hphase)
  case code => exact step_eq_controller hbusy hturn (nextLabel_decoding (decoding_iff.2 hphase))
end

section
/-! ENC_START (43_encoder.md R150): the header and the registers it initialises, and its errors. Settles O31 and O32. -/

namespace Sys2Proof.Machine

variable {s t : State} {m : Bool} {e : Width}

/-- ENC_START runs where the start step of an ENCODE is due. -/
theorem exec_encStart_due (hphase : s.phase = .encEmpty) (hstart : s.starting = true) :
    exec .encStart s = finishUnit (encStart s) :=
  if_pos ⟨hphase, hstart⟩

/-- The `max_bits` an ENCODE takes from its sampled CONFIG (43_encoder.md R150). -/
def encMaxBits (s : State) : Width := effectiveMaxBits (configOperands s).2

/-- Byte 2 of the header that ENC_START writes. -/
def encHeaderByte (s : State) : Byte := headerByte (configOperands s).1 (encMaxBits s)

theorem encMaxBits_toNat (s : State) : (encMaxBits s).toNat = max (s.sampledConfig.toNat % 32) 9 := by
  rw [encMaxBits, effectiveMaxBits_toNat, configOperands, headerFields_snd_toNat]

theorem encHeaderByte_toNat (s : State) :
    (encHeaderByte s).toNat = 128 * (s.sampledConfig.toNat / 128) + (encMaxBits s).toNat := by
  rw [encHeaderByte, headerByte_toNat, configOperands, headerFields_fst_toNat]

/-- The state in which ENC_START writes the header. -/
def encStarted (s : State) : State := encInit (configOperands s).1 (encMaxBits s) s

theorem encStart_above_cap (hcap : s.params.maxBitsCap < (encMaxBits s).toNat) :
    encStart s = .raise .invalidArgument s :=
  if_pos hcap

/-- HDR_WRITE of an effective `max_bits` does not clamp it again. -/
theorem hdrWrite_effective (hge : 9 ≤ e.toNat) :
    hdrWrite m e.toNat s = emitAll [0x1F#8, 0x9D#8, headerByte m e] s := by
  rw [hdrWrite, if_neg (by omega), BitVec.ofNat_toNat, BitVec.setWidth_eq, effectiveMaxBits_eq_self hge]

/-- Within the cap ENC_START emits the header from the initialised registers. -/
theorem encStart_within_cap (hcap : (encMaxBits s).toNat ≤ s.params.maxBitsCap) :
    encStart s = resBind (emitAll [0x1F#8, 0x9D#8, encHeaderByte s] (encStarted s)) fun _ t =>
      .ok () { t with streamCfg := encHeaderByte s, phase := .encEmpty, starting := false } := by
  have hemit := hdrWrite_effective (m := (configOperands s).1) (s := encStarted s)
    (effectiveMaxBits_ge (configOperands s).2)
  exact (if_neg (Nat.not_lt.2 hcap)).trans (congrArg (resBind · _) hemit)

/-- `s` with the output given. -/
def withOutput (buf : Memory) (len : Word32) (s : State) : State := { s with outBuf := buf, outLen := len }

/-- With room, emitting a sequence stores its first byte and emits the rest. -/
theorem emitAll_cons_room {buf : Memory} {len : Word32} {b : Byte} {bs : Symbols} (h : RoomFor 1 (withOutput buf len s)) :
    emitAll (b :: bs) (withOutput buf len s) = emitAll bs (withOutput (memWrite buf len.toNat b) (len + 1) s) := by
  rw [emitAll, emit, outFull_eq_false h, appendOut_room b h]
  rfl

/-- Three bytes emitted at `OUT_LEN = 0`, none yet listed, are the list of OUT_BUF. -/
theorem emitAll_three {b0 b1 b2 : Byte} (hcap : ∀ c ∈ s.params.outCap, 3 ≤ c) :
    emitAll [b0, b1, b2] (withOutput [] 0 s) = .ok () (withOutput [(0, b0), (1, b1), (2, b2)] 3 s) := by
  have hroom (buf : Memory) {len : Word32} (hlen : len.toNat < 3) : RoomFor 1 (withOutput buf len s) :=
    ⟨fun c hc => (Nat.succ_le_of_lt hlen).trans (hcap c hc), by simp only [withOutput]; omega⟩
  rw [emitAll_cons_room (hroom _ (by decide)), emitAll_cons_room (hroom _ (by decide)),
    emitAll_cons_room (hroom _ (by decide))]
  rfl

/-- An abort compares with the start of the step also where ENC_START had initialised and emitted before it. -/
theorem abortedWith_encStarted (err : ErrKind) (hemits : Emits (encStarted s) t) : AbortedWith err s (abort err t) := by
  rw [hemits.2]
  exact abort_abortedWith err s

end Sys2Proof.Machine

open Sys2Proof Sys2Proof.Machine

/-- Settles O31: the header's three bytes fill the cleared OUT_BUF (`emitAll_three`); the registers are `encInit`'s. -/
theorem encStartInitialises : Obligations.EncStartInitialises := by
  unfold Obligations.EncStartInitialises
  intro s hphase hstart hcap hroom
  rw [← encMaxBits_toNat] at hcap ⊢
  have hheader : emitAll [0x1F#8, 0x9D#8, encHeaderByte s] (encStarted s) = _ := emitAll_three (s := encStarted s) hroom
  have hexec := exec_encStart_due hphase hstart
  rw [encStart_within_cap hcap, hheader] at hexec
  exact ⟨_, encHeaderByte s, hexec, encHeaderByte_toNat s, rfl, rfl, headerFields_fst_toNat _, firstAssignable_toNat _,
    edGet_seed, fun _ => edGet_seed_other, rfl⟩

/-- Settles O32: the cap is checked first; the header's emission at `OUT_LEN = 0` needs an OUT_CAP of 3. -/
theorem encStartErrors : Obligations.EncStartErrors := by
  unfold Obligations.EncStartErrors
  intro s hphase hstart
  rw [exec_encStart_due hphase hstart, ← encMaxBits_toNat]
  refine ⟨fun hcap => ?_, fun hcap ⟨c, hc, hlt⟩ => ?_⟩
  · rw [encStart_above_cap hcap]
    exact ⟨_, rfl, abort_abortedWith _ s⟩
  · have hfew : Overflows 3 (encStarted s) := ⟨by decide, c, hc, by omega, hlt⟩
    obtain ⟨t, hraise⟩ := emitAll_overflows [0x1F#8, 0x9D#8, encHeaderByte s] (encStarted s) hfew
    have hemits := emitAll_emits [0x1F#8, 0x9D#8, encHeaderByte s] (encStarted s)
    rw [hraise] at hemits
    rw [encStart_within_cap hcap, hraise]
    exact ⟨_, rfl, abortedWith_encStarted _ hemits⟩
end

section
/-! ENC_SYMBOL on a hit and on a miss, and ENC_FINISH (43_encoder.md R152, R153, R156). Settles O33, O34 and O35. -/

namespace Sys2Proof.Machine

variable {s t : State} {code : Word32}

/-- ENC_SYMBOL runs in a started ENCODE while symbols remain. -/
theorem exec_encSymbol_encoding (he : encoding s = true) (hlt : s.inIdx.toNat < s.sampledInLen.toNat) :
    exec .encSymbol s = finishUnit (encSymbol s) :=
  if_pos ⟨he, hlt⟩

/-- ENC_FINISH runs in a started ENCODE once every symbol is consumed. -/
theorem exec_encFinish_encoding (he : encoding s = true) (hend : s.inIdx = s.sampledInLen) :
    exec .encFinish s = finishUnit (encFinish s) :=
  if_pos ⟨he, hend⟩

/-! ## ENC_SYMBOL -/

/-- The match extended by the next symbol (43_encoder.md R152). -/
def extendedMatch (s : State) : Symbols := s.w ++ [nextSymbol s]

/-- The effects of a miss after the match's code is pushed, in the order of 70_reset_and_hazards.md R241. -/
def restartMatch (key : Symbols) (x : Byte) (t : State) : State :=
  { insertIfRoom .encode key (maybeGrow t) with w := [x], phase := .encMatching }

theorem encSymbol_hit (hkey : edGet s.ed (extendedMatch s) = some code) :
    encSymbol s = .ok () { s with inIdx := s.inIdx + 1, w := extendedMatch s, phase := .encMatching } := by
  have hfound : encLookup { s with inIdx := s.inIdx + 1 } (s.w ++ [nextSymbol s]) = some code := hkey
  simp only [encSymbol, hfound]
  rfl

theorem encSymbol_miss (hkey : edGet s.ed (extendedMatch s) = none) :
    encSymbol s = resBind (pushMatch { s with inIdx := s.inIdx + 1 }) fun _ t =>
      .ok () (restartMatch (extendedMatch s) (nextSymbol s) t) := by
  have hnone : encLookup { s with inIdx := s.inIdx + 1 } (s.w ++ [nextSymbol s]) = none := hkey
  simp only [encSymbol, hnone]
  rfl

/-- With room, emitting the current match packs its code and notes the width. -/
theorem pushMatch_room (hmatch : edGet s.ed s.w = some code) (hcode : ValidCode code.toNat s.codeWidth.toNat)
    (hp : PackerWf s) (hroom : RoomFor (peelCount s.codeWidth.toNat s) s) :
    ∃ t, pushMatch s = .ok () t ∧ Packs code.toNat s.codeWidth.toNat s t ∧ PackerWf t ∧
      t = { s with
        outBuf := t.outBuf, outLen := t.outLen, acc := t.acc, nbits := t.nbits, maxw := widerOf s } := by
  obtain ⟨u, hpush, hpacks, hpu, -, hframe⟩ := bwPush_room hcode hp hroom
  have hfound : encLookup s s.w = some code := hmatch
  refine ⟨noteWidth u, ?_, hpacks, hpu, ?_⟩
  · simp only [pushMatch, hfound, hpush, resBind_ok]
  · rw [hframe]
    rfl

theorem restartMatch_frame (key : Symbols) (x : Byte) (t : State) :
    restartMatch key x t = { t with
      ed := (restartMatch key x t).ed, nextCode := (restartMatch key x t).nextCode
      codeWidth := (restartMatch key x t).codeWidth, w := [x], phase := .encMatching } := by
  unfold restartMatch insertIfRoom maybeGrow
  split_ifs <;> rfl

/-- The width grows before the insertion, which looks for room at the new width. -/
theorem restartMatch_codeWidth (key : Symbols) (x : Byte) (t : State) :
    (restartMatch key x t).codeWidth = grownWidth t.nextCode.toNat t := by
  simp [restartMatch]

theorem restartMatch_inserted (key : Symbols) (x : Byte) (hed : t.ed = s.ed) (hnext : t.nextCode = s.nextCode) :
    EncInserted key (restartMatch key x t).codeWidth s (restartMatch key x t) := by
  have hinsert := (insertIfRoom_encode key (maybeGrow t)).1
  simp only [EncInserted, maybeGrow_keeps, maybeGrow_codeWidth, hed, hnext] at hinsert
  simp only [EncInserted, restartMatch_codeWidth, hnext]
  exact hinsert

/-! ## ENC_FINISH -/

theorem encFinish_noMatch (hw : s.w = []) :
    encFinish s = resBind (bwFlush s) fun _ t => .ok () (complete .encode t) := by
  rw [encFinish, if_pos hw, resBind_ok]

theorem encFinish_match (hw : s.w ≠ []) :
    encFinish s = resBind (pushMatch s) fun _ t => resBind (bwFlush t) fun _ u => .ok () (complete .encode u) := by
  rw [encFinish, if_neg hw]

/-- With room, the last match and a flush emit every pending bit (41_bitstream.md R113). -/
theorem pushMatch_bwFlush_room (hmatch : edGet s.ed s.w = some code) (hcode : ValidCode code.toNat s.codeWidth.toNat)
    (hp : PackerWf s) (hroom : RoomFor ((s.nbits.toNat + s.codeWidth.toNat + 7) / 8) s) :
    ∃ u t, pushMatch s = .ok () u ∧ bwFlush u = .ok () t ∧
      Appended (digits (pendingWith code.toNat s) ((s.nbits.toNat + s.codeWidth.toNat + 7) / 8)) s t ∧
      t = { s with outBuf := t.outBuf, outLen := t.outLen, acc := 0, nbits := 0, maxw := widerOf s } := by
  have hwidth : 1 ≤ s.codeWidth.toNat := hcode.1
  have hcount : peelCount s.codeWidth.toNat s = (s.nbits.toNat + s.codeWidth.toNat - 1) / 8 := rfl
  obtain ⟨u, hpush, ⟨hpushed, hacc, hnbits⟩, hpu, hframe⟩ :=
    pushMatch_room hmatch hcode hp (hroom.mono (by omega))
  have hbytes : (s.nbits.toNat + s.codeWidth.toNat + 7) / 8 =
      peelCount s.codeWidth.toNat s + (u.nbits.toNat + 7) / 8 := by omega
  rw [hbytes] at hroom ⊢
  obtain ⟨t, hflush, hflushed, hframe'⟩ :=
    bwFlush_room hpu (RoomFor.after (by rwa [digits_length]) hpushed (by rw [hframe]))
  refine ⟨u, t, hpush, hflush, ?_, by rw [hframe', hframe]⟩
  rw [← digits_append, ← hacc]
  exact hpushed.trans hflushed

end Sys2Proof.Machine

open Sys2Proof Sys2Proof.Machine

/-- Settles O34: the three parts of a miss are `pushMatch_room`, then `restartMatch`'s growth and insertion. -/
theorem encSymbolEmitsOnMiss : Obligations.EncSymbolEmitsOnMiss := by
  unfold Obligations.EncSymbolEmitsOnMiss
  intro s code hphase hstart hlt hkey hmatch hcode hp hroom
  obtain ⟨u, hpush, hpacks, hpu, hframe⟩ := pushMatch_room (s := { s with inIdx := s.inIdx + 1 }) hmatch hcode hp hroom
  have hexec := exec_encSymbol_encoding (encoding_iff.2 ⟨hphase, hstart⟩) hlt
  rw [encSymbol_miss hkey, hpush, resBind_ok, finishUnit_ok] at hexec
  have hrest := restartMatch_frame (extendedMatch s) (nextSymbol s) u
  refine ⟨_, hexec, ?packs, ?wf, ?width, ?inserted, ?frame⟩
  case packs => rw [hrest]; exact hpacks
  case wf => rw [hrest]; exact hpu
  case width => rw [restartMatch_codeWidth, hframe]; rfl
  case inserted => exact restartMatch_inserted _ _ (by rw [hframe]) (by rw [hframe])
  case frame => rw [hrest, hframe]; rfl

/-- Settles O35: with a pending match `pushMatch_bwFlush_room`, without one `bwFlush_room`; then completion. -/
theorem encFinishCompletes : Obligations.EncFinishCompletes := by
  unfold Obligations.EncFinishCompletes
  intro s hphase hstart hend hp
  rw [exec_encFinish_encoding (encoding_iff.2 ⟨hphase, hstart⟩) hend]
  refine ⟨fun code hw hmatch hcode hroom => ?_, fun hw hroom => ?_⟩
  · obtain ⟨u, t, hpush, hflush, happended, hframe⟩ := pushMatch_bwFlush_room hmatch hcode hp hroom
    rw [encFinish_match hw, hpush, resBind_ok, hflush]
    refine ⟨_, rfl, happended, ?_⟩
    rw [hframe]
    rfl
  · obtain ⟨t, hflush, happended, hframe⟩ := bwFlush_room hp hroom
    rw [encFinish_noMatch hw, hflush]
    refine ⟨_, rfl, happended, ?_⟩
    rw [hframe]
    rfl

/-- Settles O33: `encSymbol_hit`. -/
theorem encSymbolAbsorbsKnown : Obligations.EncSymbolAbsorbsKnown := by
  unfold Obligations.EncSymbolAbsorbsKnown
  intro s hphase hstart hlt hkey
  obtain ⟨code, hkey⟩ := Option.isSome_iff_exists.1 hkey
  rw [exec_encSymbol_encoding (encoding_iff.2 ⟨hphase, hstart⟩) hlt, encSymbol_hit hkey]
  rfl
end

section
/-! A started ENCODE: its steps raise OutputOverflow only, and it ends (43_encoder.md R154, R155). Settles O36 and O37. -/

namespace Sys2Proof.Machine

variable {α β : Type} {s t : State} {code : Word32}

/-! ## Operations that can raise OutputOverflow only -/

/-- The operation runs to its end or raises OutputOverflow. -/
def Res.OnlyOverflows : Res α → Prop
  | .ok _ _ => True
  | .raise e _ => e = .outputOverflow
  | .undef => False

theorem Res.OnlyOverflows.bind {r : Res α} {f : α → State → Res β} (h : r.OnlyOverflows)
    (hok : ∀ a u, (f a u).OnlyOverflows) : (resBind r f).OnlyOverflows := by
  cases r with
  | ok a u => exact hok a u
  | raise e u => exact h
  | undef => exact h

/-- The step of such an operation: its normal end, or an abort with OutputOverflow. -/
theorem Res.OnlyOverflows.finishUnit_cases {r : Res Unit} (h : r.OnlyOverflows) :
    (∃ t, r = .ok () t ∧ finishUnit r = .next t) ∨ ∃ u, finishUnit r = .next (abort .outputOverflow u) := by
  cases r with
  | ok a u => exact .inl ⟨u, rfl, rfl⟩
  | raise e u => exact .inr ⟨u, by rw [finishUnit_raise, show e = .outputOverflow from h]⟩
  | undef => exact h.elim

theorem emit_onlyOverflows (b : Byte) (s : State) : (emit b s).OnlyOverflows := by
  rcases emit_cases b s with ⟨-, he⟩ | ⟨-, he⟩ <;> rw [he]
  · rfl
  · trivial

theorem peel_onlyOverflows (fuel v n : Nat) (s : State) : (peel fuel v n s).OnlyOverflows := by
  induction fuel generalizing v n s with
  | zero => trivial
  | succ fuel ih =>
    unfold peel
    split
    · exact (emit_onlyOverflows _ s).bind fun _ u => ih _ _ u
    · trivial

theorem bwPush_onlyOverflows {c w : Nat} (hcode : ValidCode c w) : (bwPush c w s).OnlyOverflows := by
  obtain ⟨hpos, hmax, hfits⟩ := hcode
  rw [bwPush, if_neg (by omega)]
  exact peel_onlyOverflows _ _ _ s

theorem bwFlush_onlyOverflows (s : State) : (bwFlush s).OnlyOverflows := by
  unfold bwFlush
  split
  · trivial
  · exact (emit_onlyOverflows _ s).bind fun _ _ => trivial

theorem pushMatch_onlyOverflows (hmatch : edGet s.ed s.w = some code)
    (hcode : ValidCode code.toNat s.codeWidth.toNat) : (pushMatch s).OnlyOverflows := by
  have hfound : encLookup s s.w = some code := hmatch
  simp only [pushMatch, hfound]
  exact (bwPush_onlyOverflows hcode).bind fun _ _ => trivial

/-! ## The steps of a started ENCODE -/

/-- Every code of the table fits the current width (43_encoder.md R154). -/
theorem EncInv.validCode (henc : EncInv s) (hdict : DictInv s) {key : Symbols} (hkey : edGet s.ed key = some code) :
    ValidCode code.toNat s.codeWidth.toNat := by
  have hge := hdict.width_ge
  have hmax := s.codeWidth.isLt
  exact ⟨by omega, by omega, (henc.codes_below key code hkey).trans_le hdict.next_le⟩

/-- A pending match has a code that can be pushed. -/
theorem EncInv.pending_code (henc : EncInv s) (hdict : DictInv s) (hw : s.w ≠ []) :
    ∃ code, edGet s.ed s.w = some code ∧ ValidCode code.toNat s.codeWidth.toNat := by
  obtain ⟨code, hmatch⟩ := Option.isSome_iff_exists.1 (henc.match_known hw)
  exact ⟨code, hmatch, henc.validCode hdict hmatch⟩

/-- The first symbol of a match is always a hit, so on a miss a match is pending (43_encoder.md R152). -/
theorem EncInv.pending_of_miss (henc : EncInv s) (hkey : edGet s.ed (extendedMatch s) = none) : s.w ≠ [] := fun hw => by
  rw [extendedMatch, hw, List.nil_append, henc.literals] at hkey
  cases hkey

theorem encSymbol_onlyOverflows (henc : EncInv s) (hdict : DictInv s) : (encSymbol s).OnlyOverflows := by
  cases hkey : edGet s.ed (extendedMatch s) with
  | some code =>
    rw [encSymbol_hit hkey]
    trivial
  | none =>
    obtain ⟨code, hmatch, hcode⟩ := henc.pending_code hdict (henc.pending_of_miss hkey)
    rw [encSymbol_miss hkey]
    exact (pushMatch_onlyOverflows (s := { s with inIdx := s.inIdx + 1 }) hmatch hcode).bind fun _ _ => trivial

theorem encFinish_onlyOverflows (henc : EncInv s) (hdict : DictInv s) : (encFinish s).OnlyOverflows := by
  have hend (u : State) : (resBind (bwFlush u) fun _ v => .ok () (complete .encode v)).OnlyOverflows :=
    (bwFlush_onlyOverflows u).bind fun _ _ => trivial
  by_cases hw : s.w = []
  · rw [encFinish_noMatch hw]
    exact hend s
  · obtain ⟨code, hmatch, hcode⟩ := henc.pending_code hdict hw
    rw [encFinish_match hw]
    exact (pushMatch_onlyOverflows hmatch hcode).bind fun _ => hend

/-- From `s` to `t` one symbol was consumed, and the ENCODE goes on. -/
structure SymbolTaken (s t : State) : Prop where
  encoding_eq : encoding t = true
  index_eq : t.inIdx = s.inIdx + 1
  length_eq : t.sampledInLen = s.sampledInLen

theorem symbolTaken_of_encSymbol (he : encoding s = true) (h : encSymbol s = .ok () t) : SymbolTaken s t := by
  have hstart : s.starting = false := (encoding_iff.1 he).2
  cases hkey : edGet s.ed (extendedMatch s) with
  | some code =>
    rw [encSymbol_hit hkey] at h
    cases h
    exact ⟨encoding_iff.2 ⟨.inr rfl, hstart⟩, rfl, rfl⟩
  | none =>
    rw [encSymbol_miss hkey] at h
    obtain ⟨_, u, hpush, hlast⟩ := resBind_eq_ok h
    cases hlast
    have hframe := ((pushMatch_emits _).of_ok hpush).2
    rw [restartMatch_frame, hframe]
    exact ⟨encoding_iff.2 ⟨.inr rfl, hstart⟩, rfl, rfl⟩

theorem flushed_of_encFinish (h : encFinish s = .ok () t) : t.phase = .encFlushed ∧ t.status.busy = false := by
  obtain ⟨_, u, -, h⟩ := resBind_eq_ok h
  obtain ⟨_, v, -, hlast⟩ := resBind_eq_ok h
  cases hlast
  exact ⟨rfl, rfl⟩

/-- What the invariant says of a started ENCODE. -/
theorem RunInv.of_encoding (h : RunInv s) (he : encoding s = true) :
    s.status.busy = true ∧ DictInv s ∧ EncInv s := by
  obtain ⟨hstarted, hside⟩ := started_of_encoding he
  exact ⟨h.flags.busy_iff.trans hstarted.1, h.dict hstarted, h.enc hstarted hside⟩

/-- ENC_SYMBOL in a started ENCODE: a symbol consumed, or an abort with OutputOverflow. -/
theorem exec_encSymbol_cases (h : RunInv s) (he : encoding s = true) (hlt : s.inIdx.toNat < s.sampledInLen.toNat) :
    (∃ t, exec .encSymbol s = .next t ∧ SymbolTaken s t) ∨
      ∃ u, exec .encSymbol s = .next (abort .outputOverflow u) := by
  obtain ⟨-, hdict, henc⟩ := h.of_encoding he
  rw [exec_encSymbol_encoding he hlt]
  rcases (encSymbol_onlyOverflows henc hdict).finishUnit_cases with ⟨t, hok, hnext⟩ | hover
  · exact .inl ⟨t, hnext, symbolTaken_of_encSymbol he hok⟩
  · exact .inr hover

/-- ENC_FINISH in a started ENCODE: completion, or an abort with OutputOverflow. -/
theorem exec_encFinish_cases (h : RunInv s) (he : encoding s = true) (hend : s.inIdx = s.sampledInLen) :
    (∃ t, exec .encFinish s = .next t ∧ t.phase = .encFlushed ∧ t.status.busy = false) ∨
      ∃ u, exec .encFinish s = .next (abort .outputOverflow u) := by
  obtain ⟨-, hdict, henc⟩ := h.of_encoding he
  rw [exec_encFinish_encoding he hend]
  rcases (encFinish_onlyOverflows henc hdict).finishUnit_cases with ⟨t, hok, hnext⟩ | hover
  · exact .inl ⟨t, hnext, flushed_of_encFinish hok⟩
  · exact .inr hover

theorem SymbolTaken.phase_ne_error (h : SymbolTaken s t) : t.phase ≠ .error := by
  rcases (encoding_iff.1 h.encoding_eq).1 with hphase | hphase <;> rw [hphase] <;> decide

/-! ## Runs -/

theorem run_succ {n : Nat} (h : step s = .next t) :
    Host.Core.run Sys2Proof.core (n + 1) s = Host.Core.run Sys2Proof.core n t := by
  have hcore : Sys2Proof.core.step s = .next t := h
  simp only [Host.Core.run, hcore]

/-- Between transactions, with no move pending, a step changes nothing (60_exceptions.md R216). -/
theorem step_idle (hidle : s.status.busy = false) (hin : s.inputs = []) : step s = .next s := by
  simp only [step, fetch, hin, coreTurn, hidle]

theorem run_idle (n : Nat) (hidle : s.status.busy = false) (hin : s.inputs = []) :
    Host.Core.run Sys2Proof.core n s = .next s := by
  induction n with
  | zero => rfl
  | succ n ih => rw [run_succ (step_idle hidle hin), ih]

/-- A step makes no move of the host's pending. -/
theorem inputs_eq_nil_of_step (hin : s.inputs = []) (hstep : step s = .next t) : t.inputs = [] :=
  List.subset_nil.1 (hin ▸ (step_keeps_params_inputs hstep).2)

/-- A run that an abort or a completion ends stays where it ended. -/
theorem run_ended (n : Nat) (hin : s.inputs = []) (hstep : step s = .next t) (hidle : t.status.busy = false) :
    ∃ u, Host.Core.run Sys2Proof.core (n + 1) s = .next u ∧ u.status.busy = false :=
  ⟨t, by rw [run_succ hstep, run_idle n hidle (inputs_eq_nil_of_step hin hstep)], hidle⟩

/-- With `n` symbols left, `n` ENC_SYMBOL and an ENC_FINISH end the ENCODE, if no abort ends it before. -/
theorem run_encoding (n : Nat) (s : State) (h : RunInv s) (hin : s.inputs = []) (he : encoding s = true)
    (hleft : s.sampledInLen.toNat - s.inIdx.toNat = n) :
    ∃ t, Host.Core.run Sys2Proof.core (n + 1) s = .next t ∧ t.status.busy = false := by
  induction n generalizing s with
  | zero =>
    obtain ⟨hbusy, -, henc⟩ := h.of_encoding he
    have hindex := henc.index_le
    have hend : s.inIdx = s.sampledInLen := BitVec.eq_of_toNat_eq (by omega)
    have hstep : step s = exec .encFinish s := by
      rw [step_eq_controller hbusy (.inl hin) (nextLabel_encoding he), if_neg (by omega)]
      rfl
    rcases exec_encFinish_cases h he hend with ⟨t, hnext, -, hidle⟩ | ⟨u, hnext⟩
    · exact run_ended 0 hin (hstep.trans hnext) hidle
    · exact run_ended 0 hin (hstep.trans hnext) rfl
  | succ n ih =>
    obtain ⟨hbusy, -, -⟩ := h.of_encoding he
    have hlt : s.inIdx.toNat < s.sampledInLen.toNat := by omega
    have hstep : step s = exec .encSymbol s := by
      rw [step_eq_controller hbusy (.inl hin) (nextLabel_encoding he), if_pos hlt]
      rfl
    rcases exec_encSymbol_cases h he hlt with ⟨t, hnext, htaken⟩ | ⟨u, hnext⟩
    · have htaken' := hstep.trans hnext
      have hleft' : t.sampledInLen.toNat - t.inIdx.toNat = n := by
        rw [htaken.length_eq, htaken.index_eq]
        bv_omega
      rw [run_succ htaken']
      exact ih t (stepKeepsRunInv s t h htaken') (inputs_eq_nil_of_step hin htaken') htaken.encoding_eq hleft'
    · exact run_ended (n + 1) hin (hstep.trans hnext) rfl

end Sys2Proof.Machine

open Sys2Proof Sys2Proof.Machine

/-- Settles O37: induction on the symbols left, the invariant kept by each step (O57). -/
theorem encodeEnds : Obligations.EncodeEnds := by
  unfold Obligations.EncodeEnds
  intro s h hin he
  exact run_encoding _ s h hin he rfl

/-- Settles O36: a step that goes on or completes is in no ERROR phase; an abort is one with OutputOverflow. -/
theorem encoderRaisesOnlyOverflow : Obligations.EncoderRaisesOnlyOverflow := by
  unfold Obligations.EncoderRaisesOnlyOverflow
  rintro s i h he (⟨rfl, hlt⟩ | ⟨rfl, hend⟩)
  · rcases exec_encSymbol_cases h he hlt with ⟨t, hnext, htaken⟩ | ⟨u, hnext⟩
    · exact ⟨t, hnext, fun herr => absurd herr htaken.phase_ne_error⟩
    · exact ⟨_, hnext, fun _ => rfl⟩
  · rcases exec_encFinish_cases h he hend with ⟨t, hnext, hflushed, -⟩ | ⟨u, hnext⟩
    · exact ⟨t, hnext, fun herr => by rw [hflushed] at herr; cases herr⟩
    · exact ⟨_, hnext, fun _ => rfl⟩
end

section
/-! The seven classes of a pulled code (30_encoding.md R76, 44_decoder.md R172 to R174), each run where its condition
holds. Settles O44 to O47. -/

namespace Sys2Proof.Machine

variable {s t : State} {c : CodeClass} {k : Code31} {entry key d rest : Symbols} {x : Byte}

/-! ## Where a class runs -/

/-- In the decoder's phases a class runs on the codes that fall under it. -/
theorem runClass_of_class {r : Res Unit} (hd : decoding s = true) (hc : classify (codeCtx s k) k = c) :
    runClass c k r s = finishUnit r := by
  rw [runClass, if_neg (by simp [hd]), if_pos hc]

theorem classify_zeroReject (hpolicy : s.params.zeroPolicy = .reject) : classify (codeCtx s 0) 0 = .zeroReject :=
  classify_eq_zeroReject_iff.2 ⟨decide_eq_true hpolicy, rfl⟩

/-- Neither of the reserved codes that 44_decoder.md R173 checks first. -/
structure NotReserved (s : State) (k : Code31) : Prop where
  not_zero : ¬ (s.params.zeroPolicy = .reject ∧ k.toNat = 0)
  not_clear : ¬ (s.blockMode = true ∧ k.toNat = 256)

/-- Where neither reserved code is read, the condition of another class decides. -/
theorem NotReserved.classify_eq (h : NotReserved s k) (hrow : c.AfterClear) (hc : c.Condition (codeCtx s k) k) :
    classify (codeCtx s k) k = c :=
  classify_eq_of_condition (fun hz => h.not_zero ⟨of_decide_eq_true hz.1, hz.2⟩) h.not_clear hrow hc

theorem NotReserved.classify_firstLiteral (h : NotReserved s k) (hphase : s.phase = .decInit) (hk : k.toNat ≤ 255) :
    classify (codeCtx s k) k = .firstLiteral :=
  h.classify_eq (by decide) ⟨by simp [codeCtx, hphase], hk⟩

theorem NotReserved.classify_firstBad (h : NotReserved s k) (hphase : s.phase = .decInit) (hk : 255 < k.toNat) :
    classify (codeCtx s k) k = .firstBad :=
  h.classify_eq (by decide) ⟨by simp [codeCtx, hphase], hk⟩

theorem NotReserved.classify_known (h : NotReserved s k) (hphase : s.phase = .decRunning)
    (hk : ddGet s.dd k.toNat = some entry) : classify (codeCtx s k) k = .known :=
  h.classify_eq (by decide) ⟨decide_eq_true hphase, by simp [codeCtx, decLookup, hk]⟩

theorem NotReserved.classify_kwkwk (h : NotReserved s k) (hphase : s.phase = .decRunning)
    (hk : ddGet s.dd k.toNat = none) (hnext : k.toNat = s.nextCode.toNat) : classify (codeCtx s k) k = .kwkwk :=
  h.classify_eq (by decide) ⟨decide_eq_true hphase, by simp [codeCtx, decLookup, hk], decide_eq_true hnext⟩

theorem NotReserved.classify_unknown (h : NotReserved s k) (hphase : s.phase = .decRunning)
    (hk : ddGet s.dd k.toNat = none) (hnext : k.toNat ≠ s.nextCode.toNat) : classify (codeCtx s k) k = .unknown :=
  h.classify_eq (by decide) ⟨decide_eq_true hphase, by simp [codeCtx, decLookup, hk], decide_eq_false hnext⟩

/-- The word of a literal names no reserved code but 0. -/
theorem notReserved_literal {b : Byte} (hzero : ¬ (s.params.zeroPolicy = .reject ∧ b.toNat = 0)) :
    NotReserved s (b.setWidth 31) ∧ (b.setWidth 31 : Code31).toNat = b.toNat := by
  have hwide : (b.setWidth 31 : Code31).toNat = b.toNat := BitVec.toNat_setWidth_of_le (by decide)
  have hbyte := b.isLt
  exact ⟨⟨by rwa [hwide], fun hclear => by omega⟩, hwide⟩

/-! ## What a class does -/

/-- With room, the first literal is emitted and becomes the previous entry (44_decoder.md R172). -/
theorem codeFirstLiteral_room {b : Byte} (hroom : RoomFor 1 s) :
    ∃ t, codeFirstLiteral b s = .ok () t ∧ Appended [b] s t ∧
      t = { s with outBuf := t.outBuf, outLen := t.outLen, dw := some [b], phase := .decRunning } := by
  obtain ⟨u, hemit, happended, hframe⟩ := emitAll_room [b] s hroom
  refine ⟨{ u with dw := some [b], phase := .decRunning }, ?_, happended, by rw [hframe]⟩
  rw [codeFirstLiteral, hemit, resBind_ok]

/-- The frame of an insertion and the growth after it. -/
theorem insertThenGrow_frame (key : Symbols) (s : State) :
    insertThenGrow key s = { s with
      dd := (insertThenGrow key s).dd, nextCode := (insertThenGrow key s).nextCode
      codeWidth := (insertThenGrow key s).codeWidth } := by
  unfold insertThenGrow insertIfRoom maybeGrow
  split_ifs <;> rfl

/-- The insertion is at the width before the growth. -/
theorem insertThenGrow_inserted (key : Symbols) (s : State) :
    DecInserted key s.codeWidth s (insertThenGrow key s) := by
  by_cases hroom : hasRoom s = true
  · have hinsert := (insertIfRoom_decode key s).1
    simp only [DecInserted] at hinsert ⊢
    simpa only [insertThenGrow, if_pos hroom, maybeGrow_keeps] using hinsert
  · rw [insertThenGrow, if_neg hroom, DecInserted, if_neg (mt (hasRoom_iff s).2 hroom)]
    exact ⟨rfl, rfl⟩

/-- The width may grow after an insertion only. -/
theorem insertThenGrow_codeWidth (key : Symbols) (s : State) :
    (insertThenGrow key s).codeWidth =
      if s.nextCode.toNat < dictSizeMax s then grownWidth (s.nextCode.toNat + 1) s else s.codeWidth := by
  unfold insertThenGrow
  by_cases hroom : s.nextCode.toNat < dictSizeMax s
  · have hhas : hasRoom s = true := decide_eq_true hroom
    rw [if_pos hhas, if_pos hroom, maybeGrow_codeWidth, insertIfRoom, if_pos hhas, nextCode_succ hroom]
    rfl
  · rw [if_neg (by simpa [hasRoom] using hroom), if_neg hroom]

/-- With room, a resolved entry is taken (44_decoder.md R174). -/
theorem takeEntry_room (hdw : s.dw = some d) (hroom : RoomFor (rest.length + 1) s) :
    ∃ t, takeEntry (x :: rest) s = .ok () t ∧ EntryTaken (x :: rest) (d ++ [x]) s t := by
  obtain ⟨u, hemit, happended, hframe⟩ := emitAll_room (x :: rest) s hroom
  have hdwu : u.dw = some d := by rw [hframe]; exact hdw
  have hinserted := insertThenGrow_inserted (d ++ [x]) u
  have hwidth := insertThenGrow_codeWidth (d ++ [x]) u
  have hrest := insertThenGrow_frame (d ++ [x]) u
  refine ⟨{ insertThenGrow (d ++ [x]) u with dw := some (x :: rest) }, ?_, ?_, ?_, ?_, ?_⟩
  · simp only [takeEntry, hemit, resBind_ok, hdwu]
  · rw [hrest]; exact happended
  · rw [hframe] at hinserted ⊢; exact hinserted
  · rw [hframe] at hwidth ⊢; exact hwidth
  · rw [hrest, hframe]

theorem codeKnown_eq (hk : ddGet s.dd k.toNat = some entry) : codeKnown k s = takeEntry entry s := by
  have hfound : decLookup s k.toNat = some entry := hk
  rw [codeKnown, hfound]

theorem codeKwkwk_eq (hdw : s.dw = some (x :: d)) : codeKwkwk s = takeEntry (x :: d ++ [x]) s := by
  rw [codeKwkwk, hdw]

end Sys2Proof.Machine

open Sys2Proof Sys2Proof.Machine

/-- Settles O44: each class runs where its condition holds, and raises. -/
theorem corruptCodesRaise : Obligations.CorruptCodesRaise := by
  unfold Obligations.CorruptCodesRaise
  intro s k hphase
  have hd := decoding_iff.2 hphase
  refine ⟨fun hpolicy => ?zero, fun hinit hk hclear => ?bad, fun hrun hk hnext hclear hzero => ?unknown⟩
  case zero => exact ⟨_, runClass_of_class hd (classify_zeroReject hpolicy), abort_abortedWith _ s⟩
  case bad =>
    have hres : NotReserved s k := ⟨fun hz => by omega, hclear⟩
    exact ⟨_, runClass_of_class hd (hres.classify_firstBad hinit hk), abort_abortedWith _ s⟩
  case unknown =>
    have hres : NotReserved s k := ⟨hzero, hclear⟩
    exact ⟨_, runClass_of_class hd (hres.classify_unknown hrun hk hnext), abort_abortedWith _ s⟩

/-- Settles O45: a literal's word is of the first-literal class in DEC_INIT, which `codeFirstLiteral_room` runs. -/
theorem firstLiteralEmitted : Obligations.FirstLiteralEmitted := by
  unfold Obligations.FirstLiteralEmitted
  intro s k hphase hzero hroom
  obtain ⟨hres, hwide⟩ := notReserved_literal hzero
  obtain ⟨t, hrun, happended, hframe⟩ := codeFirstLiteral_room (b := k) hroom
  have hclass := hres.classify_firstLiteral hphase (by omega)
  exact ⟨t, (runClass_of_class (decoding_iff.2 (.inl hphase)) hclass).trans (congrArg finishUnit hrun), happended, hframe⟩

/-- Settles O46: `takeEntry_room` of the entry found. -/
theorem knownCodeTaken : Obligations.KnownCodeTaken := by
  unfold Obligations.KnownCodeTaken
  intro s k x rest d hphase hzero hclear hk hdw hroom
  have hclass := NotReserved.classify_known ⟨hzero, hclear⟩ hphase hk
  obtain ⟨t, hrun, htaken⟩ := takeEntry_room (x := x) hdw hroom
  rw [← codeKnown_eq hk] at hrun
  exact ⟨t, (runClass_of_class (decoding_iff.2 (.inr hphase)) hclass).trans (congrArg finishUnit hrun), htaken⟩

/-- Settles O47: `takeEntry_room` of the previous entry extended by its own first byte. -/
theorem nextCodeTaken : Obligations.NextCodeTaken := by
  unfold Obligations.NextCodeTaken
  intro s k x d hphase hzero hclear hk hnext hdw hroom
  have hclass := NotReserved.classify_kwkwk ⟨hzero, hclear⟩ hphase hk hnext
  obtain ⟨t, hrun, htaken⟩ := takeEntry_room (x := x) (rest := d ++ [x]) hdw (by simpa using hroom)
  rw [← List.cons_append, ← codeKwkwk_eq hdw] at hrun
  exact ⟨t, (runClass_of_class (decoding_iff.2 (.inr hphase)) hclass).trans (congrArg finishUnit hrun), htaken⟩
end

section
/-! DEC_START and DEC_CODE (44_decoder.md R170, R171, R175), and that a started DECODE ends (R176). Settles O38, O39, O41,
O42 and O48. -/

namespace Sys2Proof.Machine

variable {s t : State} {k : Code31}

/-! ## DEC_START -/

/-- A header that reads as no good one (60_exceptions.md R201). -/
theorem hdrRead_bad (hbad : s.sampledInLen.toNat < 3 ∨ coreRead s 0 ≠ 0x1F ∨ coreRead s 1 ≠ 0x9D ∨
    s.params.maxBitsCap < (effectiveMaxBits (headerFields (coreRead s 2)).2).toNat) :
    hdrRead s = .raise .invalidHeader s := by
  unfold hdrRead
  simp only []
  split_ifs with hlen hmagic hcap
  · rfl
  · rfl
  · rfl
  · exact absurd hbad (by tauto)

theorem decStart_bad (hbad : s.sampledInLen.toNat < 3 ∨ coreRead s 0 ≠ 0x1F ∨ coreRead s 1 ≠ 0x9D ∨
    s.params.maxBitsCap < (effectiveMaxBits (headerFields (coreRead s 2)).2).toNat) :
    decStart s = .raise .invalidHeader (clearOut s) := by
  rw [decStart, hdrRead_bad (s := clearOut s) hbad, resBind_raise]

/-- DEC_START with a good header initialises the decoder from it. -/
theorem exec_decStart_good (hawait : s.phase = .decAwaitHeader) (hlen : 3 ≤ s.sampledInLen.toNat)
    (h0 : coreRead s 0 = 0x1F) (h1 : coreRead s 1 = 0x9D)
    (hcap : (effectiveMaxBits (headerFields (coreRead s 2)).2).toNat ≤ s.params.maxBitsCap) :
    exec .decStart s = .next (decInit (headerFields (coreRead s 2)).1
      (effectiveMaxBits (headerFields (coreRead s 2)).2) (clearOut s)) := by
  have hword := decodeHeader_magic (coreRead s 2)
  rw [exec_decStart_await hawait, decStart_eq_takeHeader hlen (by rw [h0, h1]; exact hword), takeHeader_within_cap hcap,
    finishUnit_ok]

/-! ## DEC_CODE -/

/-- The code at the decoder's cursor, at the current width (44_decoder.md R171). -/
def nextPulled (s : State) : Code31 := BitVec.ofNat 31 (codeAt s.codeWidth.toNat s)

/-- `s` with that code pulled: the cursor past it and the width noted. -/
def codePulled (s : State) : State := { advanced s.codeWidth.toNat s with maxw := widerOf s }

theorem decCode_left (hwidth : 9 ≤ s.codeWidth.toNat) (hleft : BitsLeft s.codeWidth.toNat s) :
    decCode s = takeCode (nextPulled s) (codePulled s) := by
  have hmax := s.codeWidth.isLt
  rw [decCode, (brPull_spec (by omega) (by omega)).1 hleft, resBind_ok]
  rfl

theorem decCode_end (hwidth : 9 ≤ s.codeWidth.toNat) (hshort : ¬ BitsLeft s.codeWidth.toNat s) :
    decCode s = .ok () (complete .decode s) := by
  have hmax := s.codeWidth.isLt
  rw [decCode, (brPull_spec (by omega) (by omega)).2 hshort, resBind_ok]

theorem exec_decCode_decoding (hd : decoding s = true) : exec .decCode s = finishUnit (decCode s) :=
  if_pos hd

/-- The instruction of a code in its context runs the code's class (30_encoding.md R76). -/
theorem exec_decodeCode (hd : decoding s = true) : exec (decodeCode (codeCtx s k) k) s = finishUnit (takeCode k s) := by
  have hcond := classify_condition (codeCtx s k) k
  unfold decodeCode takeCode
  cases hclass : classify (codeCtx s k) k with
  | zeroReject =>
    rw [hclass] at hcond
    obtain rfl : k = 0 := BitVec.eq_of_toNat_eq hcond.2
    exact runClass_of_class hd hclass
  | clear =>
    rw [hclass] at hcond
    obtain rfl : k = 256 := BitVec.eq_of_toNat_eq hcond.2
    exact runClass_of_class hd hclass
  | firstLiteral =>
    rw [hclass] at hcond
    have hbyte := hcond.2
    have hwide : (k.setWidth 8).setWidth 31 = k := by bv_omega
    exact runClass_of_class hd (by rw [hwide]; exact hclass)
  | firstBad | known | kwkwk | unknown => exact runClass_of_class hd hclass

/-! ## A started DECODE ends -/

/-- The operation reads no value that does not exist. -/
def Res.Defined {α : Type} : Res α → Prop
  | .ok _ _ => True
  | .raise _ _ => True
  | .undef => False

theorem takeEntry_defined (entry : Symbols) (hdw : s.dw ≠ none) (hentry : entry ≠ []) : (takeEntry entry s).Defined := by
  obtain ⟨d, hd⟩ := Option.ne_none_iff_exists'.1 hdw
  obtain ⟨x, rest, rfl⟩ := List.exists_cons_of_ne_nil hentry
  rcases emitAll_frame (x :: rest) s with ⟨u, hu, hframe⟩ | ⟨u, hu, -⟩
  · have hdu : u.dw = some d := by rw [hframe]; exact hd
    simp only [takeEntry, hu, resBind_ok, hdu, Res.Defined]
  · simp only [takeEntry, hu, resBind_raise, Res.Defined]

theorem codeFirstLiteral_defined (b : Byte) (s : State) : (codeFirstLiteral b s).Defined := by
  rcases emitAll_frame [b] s with ⟨u, hu, -⟩ | ⟨u, hu, -⟩ <;>
    simp only [codeFirstLiteral, hu, resBind_ok, resBind_raise, Res.Defined]

/-- In a started DECODE every class finds the entry it reads (10_state.md R34, R36). -/
theorem DecInv.takeCode_defined (hdec : DecInv s) (k : Code31) : (takeCode k s).Defined := by
  have hprevious : s.phase = .decRunning → s.dw ≠ none := fun hrun hnone => by
    rw [hdec.init_iff.1 hnone] at hrun
    cases hrun
  have hcond := classify_condition (codeCtx s k) k
  unfold takeCode
  cases hclass : classify (codeCtx s k) k with
  | zeroReject | clear | firstBad | unknown => trivial
  | firstLiteral => exact codeFirstLiteral_defined _ s
  | known =>
    rw [hclass] at hcond
    obtain ⟨entry, hentry⟩ := Option.isSome_iff_exists.1 hcond.2
    exact codeKnown_eq hentry ▸ takeEntry_defined entry (hprevious (of_decide_eq_true hcond.1))
      (hdec.entries_nonempty _ entry hentry)
  | kwkwk =>
    rw [hclass] at hcond
    obtain ⟨d, hd⟩ := Option.ne_none_iff_exists'.1 (hprevious (of_decide_eq_true hcond.1))
    obtain ⟨x, rest, rfl⟩ := List.exists_cons_of_ne_nil (hdec.previous_nonempty d hd)
    exact codeKwkwk_eq hd ▸ takeEntry_defined _ (hprevious (of_decide_eq_true hcond.1)) (by simp)

/-- The registers that tell how far a DECODE has come. -/
def progressRegs (s : State) : Status × Word32 × Word32 × BitVec 3 :=
  (s.status, s.sampledInLen, s.byteIndex, s.bitOffset)

/-- A code that does not abort keeps the cursor, and the DECODE goes on. -/
theorem takeCode_progress (hd : decoding s = true) (h : takeCode k s = .ok () t) :
    decoding t = true ∧ progressRegs t = progressRegs s := by
  rcases takeCode_cases k s with ⟨e, hr⟩ | ⟨b, hr⟩ | hr | ⟨entry, hr⟩ <;> rw [hr] at h
  · cases h
  · obtain ⟨_, u, hemit, hlast⟩ := resBind_eq_ok h
    cases hlast
    rw [((emitAll_emits [b] s).of_ok hemit).2]
    exact ⟨rfl, rfl⟩
  · cases h
  · obtain ⟨_, u, hemit, hlast⟩ := resBind_eq_ok h
    have hframe := ((emitAll_emits entry s).of_ok hemit).2
    split at hlast
    next d x _ _ =>
      cases hlast
      rw [insertThenGrow_frame, hframe]
      exact ⟨hd, rfl⟩
    next => cases hlast

/-- What the invariant says of a started DECODE. -/
theorem RunInv.of_decoding (h : RunInv s) (hd : decoding s = true) : s.status.busy = true ∧ DictInv s ∧ DecInv s := by
  obtain ⟨hrun, hside, hstart⟩ := h.flags.of_decoding hd
  exact ⟨h.flags.busy_iff.trans hrun, h.dict ⟨hrun, hstart⟩, h.dec ⟨hrun, hstart⟩ hside⟩

theorem RunInv.step_decoding (h : RunInv s) (hin : s.inputs = []) (hd : decoding s = true) :
    step s = exec .decCode s :=
  step_eq_controller (h.of_decoding hd).1 (.inl hin) (nextLabel_decoding hd)

/-- DEC_CODE in a started DECODE: the transaction ends, or a code of at least 9 bits is taken and it goes on. -/
theorem exec_decCode_cases (h : RunInv s) (hd : decoding s = true) :
    ∃ t, exec .decCode s = .next t ∧ (t.status.busy = false ∨
      decoding t = true ∧ t.sampledInLen = s.sampledInLen ∧ BitsLeft 9 s ∧ cursorPos s + 9 ≤ cursorPos t) := by
  obtain ⟨-, hdict, hdec⟩ := h.of_decoding hd
  have hwidth := hdict.width_ge
  rw [exec_decCode_decoding hd]
  by_cases hleft : BitsLeft s.codeWidth.toNat s
  · have hpulled : DecInv (codePulled s) := { hdec.advanced hleft with }
    have hdefined := hpulled.takeCode_defined (nextPulled s)
    rw [decCode_left hwidth hleft]
    cases hr : takeCode (nextPulled s) (codePulled s) with
    | undef => rw [hr] at hdefined; exact hdefined.elim
    | raise e u => exact ⟨_, rfl, .inl rfl⟩
    | ok a t =>
      obtain ⟨hdt, hregs⟩ := takeCode_progress (s := codePulled s) hd hr
      simp only [progressRegs, Prod.mk.injEq] at hregs
      obtain ⟨-, hlen, hbyte, hbit⟩ := hregs
      have hcursor : cursorPos t = cursorPos s + s.codeWidth.toNat := by
        rw [← cursorPos_advanced hleft, cursorPos, hbyte, hbit]
        rfl
      refine ⟨t, rfl, .inr ⟨hdt, hlen, ?_, by omega⟩⟩
      unfold BitsLeft at hleft ⊢
      omega
  · rw [decCode_end hwidth hleft]
    exact ⟨_, rfl, .inl rfl⟩

/-- With fewer than `9 * (n + 1)` bits left, `n + 1` DEC_CODE end the DECODE. -/
theorem run_decoding (n : Nat) (s : State) (h : RunInv s) (hin : s.inputs = []) (hd : decoding s = true)
    (hleft : 8 * s.sampledInLen.toNat < cursorPos s + 9 * (n + 1)) :
    ∃ t, Host.Core.run Sys2Proof.core (n + 1) s = .next t ∧ t.status.busy = false := by
  induction n generalizing s with
  | zero =>
    obtain ⟨t, hnext, hidle | ⟨-, -, hbits, -⟩⟩ := exec_decCode_cases h hd
    · exact run_ended 0 hin ((h.step_decoding hin hd).trans hnext) hidle
    · exact absurd hbits (by unfold BitsLeft; omega)
  | succ n ih =>
    obtain ⟨t, hnext, hcase⟩ := exec_decCode_cases h hd
    have hstep := (h.step_decoding hin hd).trans hnext
    rcases hcase with hidle | ⟨hdt, hlen, -, hcursor⟩
    · exact run_ended (n + 1) hin hstep hidle
    · rw [run_succ hstep]
      exact ih t (stepKeepsRunInv s t h hstep) (inputs_eq_nil_of_step hin hstep) hdt (by rw [hlen]; omega)

end Sys2Proof.Machine

open Sys2Proof Sys2Proof.Machine

/-- Settles O48: each DEC_CODE that does not end the DECODE takes at least 9 bits of what is left (`run_decoding`). -/
theorem decodeEnds : Obligations.DecodeEnds := by
  unfold Obligations.DecodeEnds
  intro s h hin hd
  exact run_decoding _ s h hin hd (by omega)

/-- Settles O38: `decInit` at the fields of byte 2. -/
theorem decStartInitialises : Obligations.DecStartInitialises := by
  unfold Obligations.DecStartInitialises
  intro s hawait hlen h0 h1 hcap
  rw [← headerFields_snd_toNat, ← effectiveMaxBits_toNat] at hcap ⊢
  rw [← headerFields_fst_toNat]
  exact ⟨_, _, exec_decStart_good hawait hlen h0 h1 hcap, headerByte_toNat _ _, rfl, rfl, firstAssignable_toNat _,
    ddGet_seed, rfl⟩

/-- Settles O39: the header is read before anything but OUT_LEN is written. -/
theorem decStartInvalidHeader : Obligations.DecStartInvalidHeader := by
  unfold Obligations.DecStartInvalidHeader
  intro s hawait hbad
  rw [← headerFields_snd_toNat, ← effectiveMaxBits_toNat] at hbad
  rw [exec_decStart_await hawait, decStart_bad hbad]
  exact ⟨_, rfl, abort_clearOut_abortedWith _ s⟩

/-- Settles O41: BR_PULL returns none (`decCode_end`). -/
theorem decCodeEndOfStream : Obligations.DecCodeEndOfStream := by
  unfold Obligations.DecCodeEndOfStream
  intro s hphase hwidth hshort
  rw [exec_decCode_decoding (decoding_iff.2 hphase), decCode_end hwidth hshort]
  rfl

/-- Settles O42: the context of a code is no part of what pulling it writes. -/
theorem decCodeRunsItsClass : Obligations.DecCodeRunsItsClass := by
  unfold Obligations.DecCodeRunsItsClass
  intro s hphase hwidth hleft
  have hd := decoding_iff.2 hphase
  rw [exec_decCode_decoding hd, decCode_left hwidth hleft]
  exact (exec_decodeCode (s := codePulled s) hd).symm
end

section
/-! The decoder's steps under a change of CONFIG and of its sample (44_decoder.md R170, 10_state.md R21). Settles O49. -/

namespace Sys2Proof.Machine

variable {α β : Type} {g : State → State} {c d : Byte} {s : State}

/-! ## Operations that an update of the state passes through -/

/-- The operation does the same before and after the update `g`, which reaches its end unchanged. -/
def Commutes (g : State → State) (op : State → Res α) : Prop := ∀ s, op (g s) = (op s).mapState g

theorem resBind_commutes {f : α → State → Res β} (hf : ∀ a, Commutes g (f a)) (x : Res α) :
    resBind (x.mapState g) f = (resBind x f).mapState g := by
  cases x with
  | ok a t => exact hf a t
  | raise e t => rfl
  | undef => rfl

theorem Commutes.bind {op : State → Res α} {f : α → State → Res β} (h : Commutes g op) (hf : ∀ a, Commutes g (f a)) :
    Commutes g fun s => resBind (op s) f := fun s => by
  simp only [h s, resBind_commutes hf]

/-- The step that such an operation is, where the update passes through an abort. -/
theorem Commutes.finishUnit {op : State → Res Unit} (h : Commutes g op)
    (habort : ∀ e t, abort e (g t) = g (abort e t)) (s : State) :
    finishUnit (op (g s)) = mapNext g (finishUnit (op s)) := by
  rw [h s]
  cases op s with
  | ok a t => rfl
  | raise e t => exact congrArg Host.Outcome.next (habort e t)
  | undef => rfl

/-! ## Another CONFIG -/

/-- `s` with another CONFIG and another sample of it. -/
def withConfig (c d : Byte) (s : State) : State := { s with config := c, sampledConfig := d }

theorem appendOut_withConfig (b : Byte) (s : State) :
    appendOut b (withConfig c d s) = withConfig c d (appendOut b s) := by
  unfold appendOut
  rw [apply_ite (withConfig c d)]
  rfl

theorem emit_withConfig (b : Byte) : Commutes (withConfig c d) (emit b) := fun s => by
  have hfull : outFull (withConfig c d s) = outFull s := rfl
  rw [emit, emit, hfull, appendOut_withConfig]
  split_ifs <;> rfl

theorem emitAll_withConfig (bs : Symbols) : Commutes (withConfig c d) (emitAll bs) := by
  induction bs with
  | nil => exact fun _ => rfl
  | cons b rest ih => exact (emit_withConfig b).bind fun _ => ih

theorem maybeGrow_withConfig (s : State) : maybeGrow (withConfig c d s) = withConfig c d (maybeGrow s) := by
  unfold maybeGrow
  rw [apply_ite (withConfig c d)]
  rfl

theorem insertThenGrow_withConfig (key : Symbols) (s : State) :
    insertThenGrow key (withConfig c d s) = withConfig c d (insertThenGrow key s) := by
  have hinsert : insertIfRoom .decode key (withConfig c d s) = withConfig c d (insertIfRoom .decode key s) := by
    unfold insertIfRoom
    rw [apply_ite (withConfig c d)]
    rfl
  unfold insertThenGrow
  rw [hinsert, maybeGrow_withConfig, apply_ite (withConfig c d)]
  rfl

theorem takeEntry_withConfig (entry : Symbols) : Commutes (withConfig c d) (takeEntry entry) := by
  refine (emitAll_withConfig entry).bind fun _ t => ?_
  have hdw : (withConfig c d t).dw = t.dw := rfl
  rw [hdw]
  cases t.dw with
  | none => rfl
  | some previous =>
    cases entry with
    | nil => rfl
    | cons x rest => simp only [insertThenGrow_withConfig]; rfl

theorem codeFirstLiteral_withConfig (k : Byte) : Commutes (withConfig c d) (codeFirstLiteral k) :=
  (emitAll_withConfig [k]).bind fun _ _ => rfl

theorem codeKnown_withConfig (k : Code31) : Commutes (withConfig c d) (codeKnown k) := fun s => by
  have hfound : decLookup (withConfig c d s) k.toNat = decLookup s k.toNat := rfl
  unfold codeKnown
  rw [hfound]
  cases decLookup s k.toNat with
  | none => rfl
  | some entry => exact takeEntry_withConfig entry s

theorem codeKwkwk_withConfig : Commutes (withConfig c d) codeKwkwk := fun s => by
  have hdw : (withConfig c d s).dw = s.dw := rfl
  unfold codeKwkwk
  rw [hdw]
  split
  · exact takeEntry_withConfig _ s
  · rfl

/-- The class of a code does not depend on CONFIG, nor does what the class does. -/
theorem takeCode_withConfig (k : Code31) : Commutes (withConfig c d) (takeCode k) := fun s => by
  have hctx : codeCtx (withConfig c d s) k = codeCtx s k := rfl
  unfold takeCode
  rw [hctx]
  cases classify (codeCtx s k) k with
  | zeroReject | clear | firstBad | unknown => rfl
  | firstLiteral => exact codeFirstLiteral_withConfig _ s
  | known => exact codeKnown_withConfig k s
  | kwkwk => exact codeKwkwk_withConfig s

theorem gatherMore_withConfig (width fuel : Nat) (g : Gathered) :
    gatherMore (withConfig c d s) width fuel g = gatherMore s width fuel g := by
  induction fuel generalizing g with
  | zero => rfl
  | succ fuel ih =>
    unfold gatherMore
    rw [ih]
    rfl

theorem brPull_withConfig (width : Nat) : Commutes (withConfig c d) (brPull width) := fun s => by
  have hcursor (k r : Nat) : setCursor k r (withConfig c d s) = withConfig c d (setCursor k r s) := by
    unfold setCursor
    split_ifs <;> rfl
  have hfirst : gatherFirst (withConfig c d s) = gatherFirst s := rfl
  unfold brPull
  simp only [hfirst, gatherMore_withConfig, hcursor]
  split_ifs <;> rfl

theorem decCode_withConfig : Commutes (withConfig c d) decCode := fun s => by
  refine (brPull_withConfig s.codeWidth.toNat).bind (fun pulled => ?_) s
  cases pulled with
  | none => exact fun _ => rfl
  | some k => exact fun t => takeCode_withConfig k (noteWidth t)

theorem hdrRead_withConfig : Commutes (withConfig c d) hdrRead := fun s => by
  have hread (i : Nat) : coreRead (withConfig c d s) i = coreRead s i := rfl
  have hlen : (withConfig c d s).sampledInLen = s.sampledInLen := rfl
  have hcap : (withConfig c d s).params = s.params := rfl
  unfold hdrRead
  simp only [hread, hlen, hcap]
  split_ifs <;> rfl

theorem decStart_withConfig : Commutes (withConfig c d) decStart := fun s =>
  hdrRead_withConfig.bind (fun _ _ => rfl) (clearOut s)

/-- An operation that runs in a phase, and is refused in another. -/
theorem guarded_withConfig {op : State → Res Unit} {q : Refusal} (h : Commutes (withConfig c d) op) (p : Prop)
    [Decidable p] : (if p then finishUnit (op (withConfig c d s)) else .refused q) =
      mapNext (withConfig c d) (if p then finishUnit (op s) else .refused q) := by
  split_ifs
  · exact h.finishUnit (fun _ _ => rfl) s
  · rfl

end Sys2Proof.Machine

open Sys2Proof Sys2Proof.Machine

/-- Settles O49: a change of CONFIG and of its sample passes through `decStart` and `decCode`. -/
theorem decoderIgnoresConfig : Obligations.DecoderIgnoresConfig := by
  unfold Obligations.DecoderIgnoresConfig
  intro s i c d hi
  simp only [List.mem_cons, List.not_mem_nil, or_false] at hi
  rcases hi with rfl | rfl
  · exact guarded_withConfig decStart_withConfig (s.phase = .decAwaitHeader)
  · exact guarded_withConfig decCode_withConfig (decoding s = true)
end

section
/-! A host program up to its command: the input loaded, and the transaction accepted (30_encoding.md R90, R91, 45_control.md
R190). -/

namespace Sys2Proof.Machine

variable {s t u : State} {data : Symbols} {rest : List Input}

/-! ## Runs -/

/-- Steps lead from `s` to `t`. -/
abbrev Reaches : State → State → Prop := Relation.ReflTransGen fun s t => step s = .next t

theorem Reaches.exists_run (h : Reaches s t) : ∃ n, Host.Core.run Sys2Proof.core n s = .next t := by
  induction h using Relation.ReflTransGen.head_induction_on with
  | refl => exact ⟨0, rfl⟩
  | head hstep _ ih =>
    obtain ⟨n, hn⟩ := ih
    exact ⟨n + 1, (run_succ hstep).trans hn⟩

/-! ## The input -/

/-- What CORE's reads of the input depend on (20_memory.md R63). -/
theorem coreRead_congr (hbuf : t.inBuf = s.inBuf) (hraced : t.raced = s.raced) (hdraw : t.inDraw = s.inDraw) :
    coreRead t = coreRead s := by
  funext i
  simp only [coreRead, hbuf, hraced, hdraw]

/-- What CORE reads in the input from index `i` on. -/
def inputFrom (i : Nat) (s : State) : Symbols := (List.range' i (s.sampledInLen.toNat - i)).map (coreRead s)

/-- The writes of `loadInput` for `data` from index `k` on. -/
def inputWrites (k : Nat) (data : Symbols) : List Input :=
  (data.zipIdx k).map fun e => .writeIn (BitVec.ofNat 32 e.2) e.1

/-- Between transactions a host write of IN_BUF stores the byte, and no race is recorded. -/
theorem step_writeIn_idle {i : Word32} {b : Byte} (hidle : s.status.busy = false)
    (hin : s.inputs = .writeIn i b :: rest) :
    step s = .next { s with inputs := rest, inBuf := memWrite s.inBuf i.toNat b } :=
  (step_writeIn hin).trans (congrArg Host.Outcome.next (if_neg (by simp [hidle])))

/-- The host's writes put the bytes at their indices; the indices below them stay (10_state.md R27). -/
theorem reaches_inputWritten (data : Symbols) (k : Nat) (s : State) (hidle : s.status.busy = false)
    (hin : s.inputs = inputWrites k data ++ rest) (hlen : k + data.length ≤ 2 ^ 32) :
    ∃ buf, Reaches s { s with inputs := rest, inBuf := buf } ∧
      (∀ j, j < data.length → memRead buf (k + j) = data[j]?) ∧ ∀ a, a < k → memRead buf a = memRead s.inBuf a := by
  induction data generalizing k s with
  | nil =>
    refine ⟨s.inBuf, ?_, nofun, fun _ _ => rfl⟩
    rw [show rest = s.inputs from hin.symm]
  | cons b data ih =>
    rw [List.length_cons] at hlen
    have hindex : (BitVec.ofNat 32 k).toNat = k := Nat.mod_eq_of_lt (by omega)
    have hstep := step_writeIn_idle (rest := inputWrites (k + 1) data ++ rest) hidle hin
    rw [hindex] at hstep
    obtain ⟨buf, hreach, hread, hbelow⟩ := ih (k + 1)
      { s with inputs := inputWrites (k + 1) data ++ rest, inBuf := memWrite s.inBuf k b } hidle rfl (by omega)
    refine ⟨buf, .head hstep hreach, fun j hj => ?_, fun a ha => ?_⟩
    · cases j with
      | zero => simpa using hbelow k (Nat.lt_succ_self k)
      | succ j =>
        rw [← Nat.succ_add_eq_add_succ]
        exact hread j (Nat.lt_of_succ_lt_succ hj)
    · rw [hbelow a (by omega)]
      exact memRead_write_ne _ b ha.ne

/-! ## The command -/

/-- What the host writes to CMD for a direction (30_encoding.md R80). -/
def commandWord : Side → Word32
  | .encode => 1
  | .decode => 2

theorem exec_command (d : Side) (hidle : s.status.busy = false) :
    exec (decodeCmd ((commandWord d).setWidth 8)) s = .next (accept d s) := by
  cases d with
  | encode => exact if_neg (by simp [hidle])
  | decode => exact if_neg (by simp [hidle])

/-- The state in which a transaction of direction `d` on the loaded input is accepted, its host waiting. -/
def acceptedWith (d : Side) (buf : Memory) (data : Symbols) (s : State) : State :=
  accept d { s with inputs := [.wait], inBuf := buf, inLen := BitVec.ofNat 32 data.length }

/-- CORE reads the loaded bytes: no byte is raced in a transaction just accepted (20_memory.md R63). -/
theorem inputFrom_acceptedWith {d : Side} {buf : Memory} (hlen : data.length < 2 ^ 32)
    (hread : ∀ j, j < data.length → memRead buf j = data[j]?) : inputFrom 0 (acceptedWith d buf data s) = data := by
  have hlength : (acceptedWith d buf data s).sampledInLen.toNat = data.length := Nat.mod_eq_of_lt hlen
  refine List.ext_getElem (by simp [inputFrom, hlength]) fun j _ hj => ?_
  have hbyte : memRead (acceptedWith d buf data s).inBuf j = some data[j] := by
    rw [← List.getElem?_eq_getElem hj]
    exact hread j hj
  have hrace : (acceptedWith d buf data s).raced = [] := rfl
  simp [inputFrom, coreRead, hbyte, hrace, assocGet]

/-- `IN <- data; CMD <- d; WAIT` with `BUSY = 0` (30_encoding.md R91): the transaction is accepted on those bytes. -/
theorem reaches_accepted (d : Side) (hidle : s.status.busy = false) (hlen : data.length < 2 ^ 32)
    (hin : s.inputs = loadInput data ++ [.writeReg 0 (commandWord d), .wait]) :
    ∃ buf, Reaches s (acceptedWith d buf data s) ∧ inputFrom 0 (acceptedWith d buf data s) = data := by
  obtain ⟨buf, hreach, hread, -⟩ := reaches_inputWritten (rest := [.writeReg 7 (BitVec.ofNat 32 data.length),
    .writeReg 0 (commandWord d), .wait]) data 0 s hidle (by rw [hin, loadInput, List.append_assoc]; rfl) (by omega)
  refine ⟨buf, ?_, inputFrom_acceptedWith hlen (by simpa using hread)⟩
  refine (hreach.tail ((step_writeReg rfl).trans (if_neg (by decide)))).tail ?_
  exact (step_writeReg rfl).trans ((if_pos rfl).trans (exec_command d hidle))

end Sys2Proof.Machine
end

section
/-! A decoder on the stream of an encoder (44_decoder.md R178): its dictionary is the encoder's one code later, so it
finds each code's entry, or stands at the next code and rebuilds it. -/

namespace Sys2Proof.Machine

variable {s s' t u : State} {c w : Nat} {rest codes : List (Nat × Nat)} {d text : Symbols} {x b : Byte} {code : Word32}
  {k : Code31}

/-! ## The stream ahead -/

/-- The registers and buffers that the stream ahead of the decoder's cursor depends on. -/
def streamRegs (s : State) : Word32 × Word32 × BitVec 3 × Memory × List (Nat × Nat) × Nat :=
  (s.sampledInLen, s.byteIndex, s.bitOffset, s.inBuf, s.raced, s.inDraw)

theorem bitsAhead_congr (e : streamRegs t = streamRegs s) : bitsAhead t = bitsAhead s := by
  simp only [streamRegs, Prod.mk.injEq] at e
  obtain ⟨hlen, hbyte, hbit, hbuf, hraced, hdraw⟩ := e
  have hread := coreRead_congr hbuf hraced hdraw
  have hvalue (n : Nat) : inputValue t n = inputValue s n := by
    induction n with
    | zero => rfl
    | succ n ih => rw [inputValue, inputValue, ih, hread]
  simp only [bitsAhead, cursorPos, hvalue, hlen, hbyte, hbit]

/-- From the cursor on the input holds the bits of the codes, then fewer than 8 bits of padding (41_bitstream.md R113). -/
structure StreamAhead (codes : List (Nat × Nat)) (s : State) : Prop where
  bits_eq : bitsAhead s = packedValue codes
  left : cursorPos s + totalBits codes ≤ 8 * s.sampledInLen.toNat
  padding : 8 * s.sampledInLen.toNat < cursorPos s + totalBits codes + 8

theorem StreamAhead.congr (h : StreamAhead codes s) (e : streamRegs t = streamRegs s) : StreamAhead codes t := by
  have hbits := bitsAhead_congr e
  simp only [streamRegs, Prod.mk.injEq] at e
  obtain ⟨hlen, hbyte, hbit, -⟩ := e
  have hcursor : cursorPos t = cursorPos s := by rw [cursorPos, cursorPos, hbyte, hbit]
  exact ⟨hbits.trans h.bits_eq, by rw [hcursor, hlen]; exact h.left, by rw [hcursor, hlen]; exact h.padding⟩

/-- A pull at the first code's width returns it, with the rest of the stream ahead. -/
theorem StreamAhead.pull (h : StreamAhead ((c, w) :: rest) s) (hw : s.codeWidth.toNat = w) (hvalid : ValidCode c w) :
    BitsLeft s.codeWidth.toNat s ∧ (nextPulled s).toNat = c ∧ StreamAhead rest (codePulled s) := by
  subst hw
  obtain ⟨-, hmax, hfits⟩ := hvalid
  have hbits : totalBits ((c, s.codeWidth.toNat) :: rest) = s.codeWidth.toNat + totalBits rest := rfl
  have hl := h.left
  have hp := h.padding
  rw [hbits] at hl hp
  have hleft : BitsLeft s.codeWidth.toNat s := by unfold BitsLeft; omega
  have hcode : codeAt s.codeWidth.toNat s = c := by
    rw [codeAt_eq_bitsAhead_mod, h.bits_eq, packedValue_cons_mod hfits]
  have h31 : c < 2 ^ 31 := hfits.trans_le (Nat.pow_le_pow_right (by decide) hmax)
  have hcursor := cursorPos_advanced hleft
  have hadvanced : StreamAhead rest (advanced s.codeWidth.toNat s) :=
    ⟨by rw [bitsAhead_advanced hleft, h.bits_eq, packedValue_cons_div hfits],
      by rw [hcursor]; exact (Nat.add_assoc _ _ _).trans_le hl,
      by rw [hcursor, Nat.add_assoc (cursorPos s)]; exact hp⟩
  refine ⟨hleft, ?_, hadvanced.congr rfl⟩
  rw [nextPulled, hcode]
  exact Nat.mod_eq_of_lt h31

/-! ## A decoder that awaits a code -/

/-- A started transaction whose host waits, under the parameters of 44_decoder.md R178. -/
structure Running (s : State) : Prop where
  busy : s.status.busy = true
  waits : s.inputs.head? = some .wait
  started : s.starting = false
  accepts : s.params.zeroPolicy = .accept
  unbounded : s.params.outCap = none
  dict : DictInv s

/-- The registers and parameters that `Running` speaks of, beside those of the dictionary. -/
def runRegs (s : State) : Status × List Input × Bool × Params := (s.status, s.inputs, s.starting, s.params)

theorem Running.congr (h : Running s) (e : runRegs t = runRegs s) (hdict : DictInv t) : Running t := by
  simp only [runRegs, Prod.mk.injEq] at e
  obtain ⟨hstatus, hinputs, hstart, hparams⟩ := e
  exact ⟨hstatus ▸ h.busy, hinputs ▸ h.waits, hstart ▸ h.started, hparams ▸ h.accepts, hparams ▸ h.unbounded, hdict⟩

/-- With OUT_CAP unbounded only the 32 bits of OUT_LEN bound the output. -/
theorem Running.roomFor (h : Running s) {n : Nat} (hn : s.outLen.toNat + n < 2 ^ 32) : RoomFor n s :=
  ⟨by simp [h.unbounded], hn⟩

/-- A started DECODE before its next code. -/
structure AwaitsCode (s : State) : Prop extends Running s where
  decoding_eq : decoding s = true
  dec : DecInv s

theorem side_of_decoding (h : decoding s = true) : s.phase.running = true ∧ s.phase.side = some .decode := by
  rcases decoding_iff.1 h with hp | hp <;> rw [hp] <;> exact ⟨rfl, rfl⟩

theorem AwaitsCode.step_eq (h : AwaitsCode s) : step s = finishUnit (decCode s) :=
  (step_eq_controller h.busy (.inr h.waits) (nextLabel_decoding h.decoding_eq)).trans
    (exec_decCode_decoding h.decoding_eq)

/-- A code taken without an error leaves the decoder awaiting the next one. -/
theorem AwaitsCode.next (h : AwaitsCode s) (hrun : decCode s = .ok () t) (hdt : decoding t = true)
    (hregs : runRegs t = runRegs s) : AwaitsCode t := by
  have htx := transactionInv_of_decCode h.dict h.dec (side_of_decoding h.decoding_eq).2 hrun
  obtain ⟨hrunning, hside⟩ := side_of_decoding hdt
  have hstart : t.starting = false := (congrArg (·.2.2.1) hregs).trans h.started
  exact { h.toRunning.congr hregs (htx.dict ⟨hrunning, hstart⟩) with
    decoding_eq := hdt, dec := htx.dec ⟨hrunning, hstart⟩ hside }

/-- A code that is not CLEAR is not reserved where code 0 is accepted. -/
theorem AwaitsCode.notReserved (h : AwaitsCode s) (hclear : s.blockMode = true → k.toNat ≠ 256) :
    NotReserved (codePulled s) k :=
  ⟨fun hz => ZeroPolicy.noConfusion (h.accepts.symm.trans hz.1), fun hc => hclear hc.1 hc.2⟩

/-- On the codes ahead the decoder completes, its output the text (44_decoder.md R176). -/
def Decodes (codes : List (Nat × Nat)) (text : Symbols) (s : State) : Prop :=
  AwaitsCode s → StreamAhead codes s → s.outLen.toNat + text.length < 2 ^ 32 →
  ∃ t, Reaches s t ∧ t.status = statusDone .decode ∧ Appended text s t ∧ t.streamCfg = s.streamCfg

/-- With padding alone ahead the DECODE completes (44_decoder.md R175). -/
theorem decodes_nil (s : State) : Decodes [] [] s := fun h hahead _ => by
  have hwidth := h.dict.width_ge
  have hpadding := hahead.padding
  have hshort : ¬ BitsLeft s.codeWidth.toNat s := by
    unfold BitsLeft
    simp only [totalBits] at hpadding
    omega
  have hstep := h.step_eq
  rw [decCode_end hwidth hshort] at hstep
  exact ⟨complete .decode s, .single hstep, rfl, ⟨rfl, nofun, fun _ _ => rfl⟩, rfl⟩

/-! ## The decoder one code behind the encoder -/

/-- The decoder `u` before its first code, the encoder's table as seeded. -/
structure AtStart (s u : State) : Prop where
  phase_eq : u.phase = .decInit
  next_eq : u.nextCode = s.nextCode
  below : s.nextCode.toNat < dictSizeMax s
  literals : ∀ key c, edGet s.ed key = some c → ∃ b : Byte, key = [b] ∧ c = b.setWidth 32

/-- The decoder `u` after a code whose entry is `d`: it lacks the encoder's latest insertion, `d` and the first symbol of
the pending match, or the dictionary is full. -/
structure Behind (d : Symbols) (s u : State) : Prop where
  phase_eq : u.phase = .decRunning
  previous : u.dw = some d
  pending : s.w ≠ []
  next_eq : s.nextCode.toNat = u.nextCode.toNat + 1 ∨ s.nextCode = u.nextCode ∧ Frozen u
  entries : ∀ key c, edGet s.ed key = some c →
    ddGet u.dd c.toNat = some key ∨ c.toNat = u.nextCode.toNat ∧ key = d ++ s.w.take 1

/-- The decoder `u` follows the encoder `s`. -/
structure Tracks (s u : State) : Prop where
  width_eq : u.codeWidth = s.codeWidth
  max_eq : u.maxBits = s.maxBits
  block_eq : u.blockMode = s.blockMode
  table : AtStart s u ∨ ∃ d, Behind d s u

/-- The decoder `u` has taken the code of the encoder's match: it knows all that the encoder's table holds before the
insertion that follows the match. -/
structure CaughtUp (s u : State) : Prop where
  width_eq : u.codeWidth = grownWidth s.nextCode.toNat s
  max_eq : u.maxBits = s.maxBits
  block_eq : u.blockMode = s.blockMode
  phase_eq : u.phase = .decRunning
  previous : u.dw = some s.w
  next_eq : u.nextCode = s.nextCode
  entries : ∀ key c, edGet s.ed key = some c → ddGet u.dd c.toNat = some key

/-- From `s` to `s'` the encoder restarts its match at `x`, its dictionary grown and the old match extended inserted
(43_encoder.md R152). -/
structure Restarts (x : Byte) (s s' : State) : Prop where
  match_eq : s'.w = [x]
  max_eq : s'.maxBits = s.maxBits
  block_eq : s'.blockMode = s.blockMode
  width_eq : s'.codeWidth = grownWidth s.nextCode.toNat s
  inserted : EncInserted (s.w ++ [x]) s'.codeWidth s s'

/-- A dictionary that has no room after the growth is full at its greatest width (42_dictionary.md R136). -/
theorem DictInv.full_of_no_room (h : DictInv s) (hfull : ¬ s.nextCode.toNat < 2 ^ (grownWidth s.nextCode.toNat s).toNat) :
    s.nextCode.toNat = 2 ^ s.codeWidth.toNat ∧ s.codeWidth.toNat = s.maxBits.toNat ∧
      grownWidth s.nextCode.toNat s = s.codeWidth := by
  have hnext : s.nextCode.toNat ≤ 2 ^ s.codeWidth.toNat := h.next_le
  have hmax := h.width_le
  by_cases hgrow : s.nextCode.toNat = 2 ^ s.codeWidth.toNat ∧ s.codeWidth.toNat < s.maxBits.toNat
  · rw [grownWidth_toNat, if_pos hgrow, Nat.pow_succ] at hfull
    have hpos := Nat.two_pow_pos s.codeWidth.toNat
    omega
  · have hsame : grownWidth s.nextCode.toNat s = s.codeWidth := if_neg hgrow
    rw [hsame] at hfull
    exact ⟨by omega, by omega, hsame⟩

/-- The insertion puts the decoder one code behind again. -/
theorem CaughtUp.tracks (h : CaughtUp s u) (hdict : DictInv s) (hrestart : Restarts x s s') : Tracks s' u := by
  obtain ⟨hmatch, hmax, hblock, hwidth, hinserted⟩ := hrestart
  have hu : u.codeWidth = s'.codeWidth := h.width_eq.trans hwidth.symm
  refine ⟨hu, h.max_eq.trans hmax.symm, h.block_eq.trans hblock.symm, .inr ⟨s.w, ?_⟩⟩
  unfold EncInserted at hinserted
  split at hinserted
  next hroom =>
    obtain ⟨hnew, hold, hnext⟩ := hinserted
    refine ⟨h.phase_eq, h.previous, by simp [hmatch], .inl (by rw [hnext, h.next_eq]), fun key c hkey => ?_⟩
    by_cases hk : key = s.w ++ [x]
    · obtain rfl : s.nextCode = c := by rw [hk, hnew] at hkey; exact Option.some.inj hkey
      exact .inr ⟨by rw [h.next_eq], by rw [hk, hmatch]; rfl⟩
    · exact .inl (h.entries key c (by rwa [hold key hk] at hkey))
  next hfull =>
    obtain ⟨hed, hnext⟩ := hinserted
    rw [hwidth] at hfull
    obtain ⟨hsize, hgreatest, hsame⟩ := hdict.full_of_no_room hfull
    have hfrozen : Frozen u := by
      constructor
      · rw [h.width_eq, hsame, h.max_eq]
        exact BitVec.eq_of_toNat_eq hgreatest
      · rw [h.next_eq, dictSizeMax, h.width_eq, hsame]
        exact hsize
    refine ⟨h.phase_eq, h.previous, by simp [hmatch], .inr ⟨by rw [hnext, h.next_eq], hfrozen⟩, fun key c hkey => ?_⟩
    exact .inl (h.entries key c (by rwa [hed] at hkey))

/-- The encoder after a symbol that extends its match (43_encoder.md R152). -/
def absorbed (x : Byte) (s : State) : State :=
  { s with inIdx := s.inIdx + 1, w := s.w ++ [x], phase := .encMatching }

/-- Such a symbol leaves the encoder's table alone, and the match's first symbol if there is one. -/
theorem Tracks.absorbed (h : Tracks s u) : Tracks (absorbed x s) u := by
  refine ⟨h.width_eq, h.max_eq, h.block_eq, ?_⟩
  rcases h.table with ⟨h1, h2, h3, h4⟩ | ⟨d, h1, h2, h3, h4, h5⟩
  · exact .inl ⟨h1, h2, h3, h4⟩
  · refine .inr ⟨d, h1, h2, by simp [Machine.absorbed], h4, fun key c hkey => ?_⟩
    have hfirst : (s.w ++ [x]).take 1 = s.w.take 1 := List.take_append_of_le_length (List.length_pos_iff.2 h3)
    rw [Machine.absorbed, hfirst]
    exact h5 key c hkey

/-! ## The decoder takes the code of the encoder's match -/

/-- The first code is a literal (44_decoder.md R172). -/
theorem AtStart.takeCode_eq (h : AtStart s u) (hu : AwaitsCode u) (hkey : edGet s.ed s.w = some code)
    (hk : k.toNat = code.toNat) :
    ∃ b : Byte, s.w = [b] ∧ takeCode k (codePulled u) = codeFirstLiteral b (codePulled u) := by
  obtain ⟨b, hmatch, rfl⟩ := h.literals _ _ hkey
  rw [toNat_widenByte] at hk
  have hbyte := b.isLt
  have hlit : k.setWidth 8 = b := by bv_omega
  have hclass := (hu.notReserved (k := k) fun _ => by omega).classify_firstLiteral h.phase_eq (by omega)
  exact ⟨b, hmatch, by rw [takeCode, hclass, hlit]⟩

/-- No entry stands at the next code (10_state.md R36). -/
theorem AwaitsCode.fresh (h : AwaitsCode u) : ddGet u.dd u.nextCode.toNat = none := by
  have hnext := h.dict.next_ge
  have hfirst := firstAssignable_ge u.blockMode
  have hkeys := h.dec.keys u.nextCode.toNat
  exact Option.not_isSome_iff_eq_none.1 fun hsome => by have := hkeys.1 hsome; omega

/-- A later code stands for the encoder's match: it is known, or it is the next code and the match is the previous entry
and its first byte (44_decoder.md R174). -/
theorem Behind.takeCode_eq (h : Behind d s u) (hu : AwaitsCode u) (hclear : u.blockMode = true → code.toNat ≠ 256)
    (hkey : edGet s.ed s.w = some code) (hk : k.toNat = code.toNat) :
    takeCode k (codePulled u) = takeEntry s.w (codePulled u) := by
  have hres : NotReserved (codePulled u) k := hu.notReserved (by rwa [hk])
  rcases h.entries _ _ hkey with hknown | ⟨hnext, hmatch⟩
  · rw [← hk] at hknown
    rw [takeCode, hres.classify_known h.phase_eq hknown]
    exact codeKnown_eq (s := codePulled u) hknown
  · obtain ⟨x, d, rfl⟩ := List.exists_cons_of_ne_nil (hu.dec.previous_nonempty d h.previous)
    have hfirst : s.w.take 1 = [x] := by rw [hmatch]; rfl
    have hnone : ddGet u.dd k.toNat = none := by rw [hk, hnext]; exact hu.fresh
    rw [takeCode, hres.classify_kwkwk h.phase_eq hnone (hk.trans hnext), hmatch, hfirst]
    exact codeKwkwk_eq (s := codePulled u) h.previous

/-- What taking an entry writes to the dictionary, at the encoder's width. -/
theorem Tracks.entryTaken (h : Tracks s u) {entry key : Symbols} (htaken : EntryTaken entry key (codePulled u) t) :
    DecInserted key s.codeWidth u t ∧
    t.codeWidth = (if u.nextCode.toNat < 2 ^ s.codeWidth.toNat then grownWidth (u.nextCode.toNat + 1) s
      else s.codeWidth) ∧
    t.maxBits = s.maxBits ∧ t.blockMode = s.blockMode ∧ t.phase = u.phase ∧ t.dw = some entry := by
  obtain ⟨-, hinserted, hwidth, hframe⟩ := htaken
  have hcw : (codePulled u).codeWidth = s.codeWidth := h.width_eq
  have hgrown (next : Nat) : grownWidth next (codePulled u) = grownWidth next s := by
    rw [grownWidth, grownWidth, hcw, ← h.max_eq]
    rfl
  rw [hgrown, dictSizeMax, hcw] at hwidth
  rw [hcw] at hinserted
  refine ⟨hinserted, hwidth, ?_, ?_, ?_, ?_⟩ <;> rw [hframe]
  · exact h.max_eq
  · exact h.block_eq
  · rfl

/-- With the entry of the encoder's match taken, the decoder has inserted what it lacked. -/
theorem Behind.caughtUp (h : Behind d s u) (htracks : Tracks s u) (hdict : DictInv s)
    (hbelow : ∀ key c, edGet s.ed key = some c → c.toNat < s.nextCode.toNat) (hfresh : ddGet u.dd u.nextCode.toNat = none)
    (htaken : EntryTaken s.w (d ++ s.w.take 1) (codePulled u) t) : CaughtUp s t := by
  obtain ⟨hinserted, hwidth, hmax, hblock, hphase, hprevious⟩ := htracks.entryTaken htaken
  have hsize : dictSizeMax u = 2 ^ s.codeWidth.toNat := by rw [← htracks.width_eq]; rfl
  rw [h.phase_eq] at hphase
  rcases h.next_eq with hlag | ⟨hsame, hfrozen⟩
  · have hroom : u.nextCode.toNat < 2 ^ s.codeWidth.toNat := by
      have hle : s.nextCode.toNat ≤ 2 ^ s.codeWidth.toNat := hdict.next_le
      omega
    rw [DecInserted, if_pos hroom] at hinserted
    rw [if_pos hroom, ← hlag] at hwidth
    obtain ⟨hnew, hold, hnext⟩ := hinserted
    refine ⟨hwidth, hmax, hblock, hphase, hprevious, BitVec.eq_of_toNat_eq (hnext.trans hlag.symm), fun key c hkey => ?_⟩
    rcases h.entries key c hkey with hknown | ⟨hcode, rfl⟩
    · have hne : c.toNat ≠ u.nextCode.toNat := fun e => by rw [e, hfresh] at hknown; cases hknown
      rw [hold _ hne, hknown]
    · rw [hcode, hnew]
  · have hfull : ¬ u.nextCode.toNat < 2 ^ s.codeWidth.toNat := (hfrozen.next_eq.trans hsize).not_lt
    rw [DecInserted, if_neg hfull] at hinserted
    rw [if_neg hfull] at hwidth
    obtain ⟨hdd, hnext⟩ := hinserted
    have hgreatest : s.codeWidth = s.maxBits := by rw [← htracks.width_eq, ← htracks.max_eq]; exact hfrozen.width_eq
    have hstays : grownWidth s.nextCode.toNat s = s.codeWidth :=
      if_neg fun hgrow => hgrow.2.ne (congrArg BitVec.toNat hgreatest)
    refine ⟨hwidth.trans hstays.symm, hmax, hblock, hphase, hprevious, hnext.trans hsame.symm, fun key c hkey => ?_⟩
    rcases h.entries key c hkey with hknown | ⟨hcode, -⟩
    · rw [hdd, hknown]
    · have hlt := hbelow key c hkey
      rw [hsame] at hlt
      omega

/-- After the first literal the decoder's table is the encoder's. -/
theorem AtStart.caughtUp (h : AtStart s u) (htracks : Tracks s u) (hu : AwaitsCode u) (hmatch : s.w = [b])
    (hframe : t = { codePulled u with
      outBuf := t.outBuf, outLen := t.outLen, dw := some [b], phase := .decRunning }) : CaughtUp s t := by
  have hstays : grownWidth s.nextCode.toNat s = s.codeWidth := if_neg fun hgrow => h.below.ne hgrow.1
  rw [hframe]
  refine ⟨htracks.width_eq.trans hstays.symm, htracks.max_eq, htracks.block_eq, rfl, congrArg some hmatch.symm, h.next_eq,
    fun key c hkey => ?_⟩
  obtain ⟨b, rfl, rfl⟩ := h.literals key c hkey
  have hlit : ddGet u.dd b.toNat = some [b] := by simpa using hu.dec.literals b.toNat b.isLt
  rwa [toNat_widenByte]

/-- The code of the encoder's match at its width, pulled: the decoder emits the match and catches up. -/
theorem Tracks.takeCode_room (h : Tracks s u) (hu : AwaitsCode u) (henc : EncInv s) (hdict : DictInv s)
    (hkey : edGet s.ed s.w = some code) (hk : k.toNat = code.toNat) (hroom : RoomFor s.w.length u) :
    ∃ t, takeCode k (codePulled u) = .ok () t ∧ Appended s.w u t ∧ CaughtUp s t ∧ decoding t = true ∧
      runRegs t = runRegs u ∧ streamRegs t = streamRegs (codePulled u) ∧ t.streamCfg = u.streamCfg := by
  rcases h.table with hstart | ⟨d, hbehind⟩
  · obtain ⟨b, hmatch, hcode⟩ := hstart.takeCode_eq hu hkey hk
    rw [hmatch] at hroom ⊢
    obtain ⟨t, hrun, happended, hframe⟩ := codeFirstLiteral_room (s := codePulled u) (b := b) hroom
    refine ⟨t, hcode.trans hrun, happended, hstart.caughtUp h hu hmatch hframe, ?_⟩
    rw [hframe]
    exact ⟨rfl, rfl, rfl, rfl⟩
  · have hcode := hbehind.takeCode_eq hu (fun hb => henc.never_clear _ _ hkey (h.block_eq ▸ hb)) hkey hk
    obtain ⟨x, rest, hmatch⟩ := List.exists_cons_of_ne_nil hbehind.pending
    obtain ⟨t, hrun, htaken⟩ := takeEntry_room (s := codePulled u) (x := x) (rest := rest) hbehind.previous
      (by rw [hmatch] at hroom; exact hroom)
    have hfirst : [x] = s.w.take 1 := by rw [hmatch]; rfl
    rw [hfirst, ← hmatch] at htaken
    rw [← hmatch] at hrun
    have hcaught := hbehind.caughtUp h hdict henc.codes_below hu.fresh htaken
    obtain ⟨happended, -, -, hframe⟩ := htaken
    refine ⟨t, hcode.trans hrun, happended, hcaught, decoding_iff.2 (.inr hcaught.phase_eq), ?_⟩
    rw [hframe]
    exact ⟨rfl, rfl, rfl⟩

/-- A code of the encoder's, and a stream on which the decoder goes on once it has caught up. -/
theorem Tracks.decodes_cons (h : Tracks s u) (henc : EncInv s) (hdict : DictInv s) (hkey : edGet s.ed s.w = some code)
    (hrest : ∀ t, CaughtUp s t → Decodes rest text t) :
    Decodes ((code.toNat, s.codeWidth.toNat) :: rest) (s.w ++ text) u := fun hu hahead hlen => by
  obtain ⟨hleft, hpulled, hstream⟩ :=
    hahead.pull (congrArg BitVec.toNat h.width_eq) (henc.validCode hdict hkey)
  obtain ⟨t, hrun, happended, hcaught, hdt, hregs, hsame, hcfg⟩ := h.takeCode_room hu henc hdict hkey hpulled
    (hu.roomFor (by rw [List.length_append] at hlen; omega))
  rw [← decCode_left hu.dict.width_ge hleft] at hrun
  have hstep : step u = .next t := hu.step_eq.trans (congrArg finishUnit hrun)
  have houtLen := happended.1
  rw [List.length_append] at hlen
  obtain ⟨v, hreach, hdone, hout, hcfg'⟩ := hrest t hcaught (hu.next hrun hdt hregs) (hstream.congr hsame) (by omega)
  exact ⟨v, .head hstep hreach, hdone, happended.trans hout, hcfg'.trans hcfg⟩

end Sys2Proof.Machine
end

section
/-! A started ENCODE with OUT_CAP unbounded (43_encoder.md R152 to R156): it completes, and what it appends is the packed
stream of codes on which the decoder that follows it emits the symbols (44_decoder.md R178). -/

namespace Sys2Proof.Machine

variable {s s' t u : State} {codes : List (Nat × Nat)} {xs : Symbols} {x : Byte} {code : Word32}

/-! ## What is left of the input -/

/-- The symbols an ENCODE has not consumed. -/
def remaining (s : State) : Symbols := inputFrom s.inIdx.toNat s

theorem remaining_eq_nil (h : remaining s = []) : ¬ s.inIdx.toNat < s.sampledInLen.toNat := by
  have hlen := congrArg List.length h
  simp only [remaining, inputFrom, List.length_map, List.length_range', List.length_nil] at hlen
  omega

/-- The next symbol is the first one left, and consuming it leaves the others. -/
theorem remaining_eq_cons (h : remaining s = x :: xs) :
    s.inIdx.toNat < s.sampledInLen.toNat ∧ nextSymbol s = x ∧ remaining { s with inIdx := s.inIdx + 1 } = xs := by
  have hlt : s.inIdx.toNat < s.sampledInLen.toNat := by
    by_contra hge
    simp [remaining, inputFrom, Nat.sub_eq_zero_of_le (Nat.le_of_not_lt hge)] at h
  have hindex : (s.inIdx + 1).toNat = s.inIdx.toNat + 1 := by bv_omega
  have hcount : s.sampledInLen.toNat - s.inIdx.toNat = s.sampledInLen.toNat - (s.inIdx.toNat + 1) + 1 := by omega
  rw [remaining, inputFrom, hcount, List.range'_succ, List.map_cons, List.cons.injEq] at h
  obtain ⟨hhead, htail⟩ := h
  refine ⟨hlt, hhead, ?_⟩
  rw [← htail, remaining, inputFrom, hindex]
  rfl

/-- What `remaining` and the symbols it reads depend on. -/
def inputRegs (s : State) : Word32 × Word32 × Memory × List (Nat × Nat) × Nat :=
  (s.inIdx, s.sampledInLen, s.inBuf, s.raced, s.inDraw)

theorem remaining_congr (e : inputRegs t = inputRegs s) : remaining t = remaining s := by
  simp only [inputRegs, Prod.mk.injEq] at e
  obtain ⟨hidx, hlen, hbuf, hraced, hdraw⟩ := e
  rw [remaining, remaining, inputFrom, inputFrom, hidx, hlen, coreRead_congr hbuf hraced hdraw]

/-! ## An encoder that goes on -/

/-- A started ENCODE before its next symbol or its end. -/
structure AwaitsSymbol (s : State) : Prop extends Running s where
  encoding_eq : encoding s = true
  enc : EncInv s

theorem AwaitsSymbol.step_eq (h : AwaitsSymbol s) :
    step s = exec (if s.inIdx.toNat < s.sampledInLen.toNat then UnitLabel.encSymbol else .encFinish).instr s :=
  step_eq_controller h.busy (.inr h.waits) (nextLabel_encoding h.encoding_eq)

theorem AwaitsSymbol.step_symbol (h : AwaitsSymbol s) (hrem : remaining s = x :: xs) : step s = exec .encSymbol s := by
  rw [h.step_eq, if_pos (remaining_eq_cons hrem).1]
  rfl

theorem AwaitsSymbol.step_finish (h : AwaitsSymbol s) (hrem : remaining s = []) : step s = exec .encFinish s := by
  rw [h.step_eq, if_neg (remaining_eq_nil hrem)]
  rfl

theorem AwaitsSymbol.phase_or (h : AwaitsSymbol s) : s.phase = .encEmpty ∨ s.phase = .encMatching :=
  (encoding_iff.1 h.encoding_eq).1

theorem AwaitsSymbol.index_end (h : AwaitsSymbol s) (hrem : remaining s = []) : s.inIdx = s.sampledInLen :=
  BitVec.eq_of_toNat_eq (Nat.le_antisymm h.enc.index_le (Nat.le_of_not_lt (remaining_eq_nil hrem)))

/-- A symbol consumed without an error leaves the encoder going on. -/
theorem AwaitsSymbol.next (h : AwaitsSymbol s) (hlt : s.inIdx.toNat < s.sampledInLen.toNat)
    (hexec : exec .encSymbol s = .next t) (het : encoding t = true) (hregs : runRegs t = runRegs s) : AwaitsSymbol t := by
  rw [exec_encSymbol_encoding h.encoding_eq hlt] at hexec
  have htx := transactionInv_of_finishUnit (fun _ => transactionInv_of_encSymbol h.dict h.enc hlt) hexec
  obtain ⟨hstarted, hside⟩ := started_of_encoding het
  exact { h.toRunning.congr hregs (htx.dict hstarted) with encoding_eq := het, enc := htx.enc hstarted hside }

/-! ## What an ENCODE appends -/

/-- From `s` the ENCODE completes in `t`, the pending bits and the codes packed and appended (41_bitstream.md R113). -/
structure Encoded (codes : List (Nat × Nat)) (s t : State) : Prop where
  reaches : Reaches s t
  status_eq : t.status = statusDone .encode
  streamCfg_eq : t.streamCfg = s.streamCfg
  params_eq : t.params = s.params
  output : Appended (digits (pendingWith (packedValue codes) s) ((s.nbits.toNat + totalBits codes + 7) / 8)) s t

/-- The end of an ENCODE with no match pending (43_encoder.md R153). -/
theorem AwaitsSymbol.encoded_nil (h : AwaitsSymbol s) (hrem : remaining s = []) (hw : s.w = [])
    (hroom : s.outLen.toNat + 1 < 2 ^ 32) : ∃ t, Encoded [] s t := by
  have hnbits := h.enc.packer.2
  obtain ⟨t, hexec, happended, hframe⟩ := (encFinishCompletes s h.phase_or h.started (h.index_end hrem)
    h.enc.packer).2 hw (h.roomFor (by omega))
  refine ⟨t, .single ((h.step_finish hrem).trans hexec), by rw [hframe]; rfl, by rw [hframe], by rw [hframe], ?_⟩
  simpa [pendingWith, packedValue, totalBits] using happended

/-- The end of an ENCODE emits the pending match's code (43_encoder.md R153). -/
theorem AwaitsSymbol.encoded_last (h : AwaitsSymbol s) (hrem : remaining s = []) (hw : s.w ≠ [])
    (hkey : edGet s.ed s.w = some code) (hroom : s.outLen.toNat + 5 < 2 ^ 32) :
    ∃ t, Encoded [(code.toNat, s.codeWidth.toNat)] s t := by
  have hnbits := h.enc.packer.2
  have hwidth := s.codeWidth.isLt
  obtain ⟨t, hexec, happended, hframe⟩ := (encFinishCompletes s h.phase_or h.started (h.index_end hrem)
    h.enc.packer).1 code hw hkey (h.enc.validCode h.dict hkey) (h.roomFor (by omega))
  refine ⟨t, .single ((h.step_finish hrem).trans hexec), by rw [hframe]; rfl, by rw [hframe], by rw [hframe], ?_⟩
  simpa [packedValue, totalBits] using happended

/-- A symbol that extends the match emits nothing (43_encoder.md R152). -/
theorem AwaitsSymbol.absorb (h : AwaitsSymbol s) (hrem : remaining s = x :: xs)
    (hkey : (edGet s.ed (s.w ++ [x])).isSome = true) :
    step s = .next (absorbed x s) ∧ AwaitsSymbol (absorbed x s) ∧ remaining (absorbed x s) = xs := by
  obtain ⟨hlt, rfl, htail⟩ := remaining_eq_cons hrem
  have hexec : exec .encSymbol s = .next (absorbed (nextSymbol s) s) :=
    encSymbolAbsorbsKnown s h.phase_or h.started hlt hkey
  refine ⟨(h.step_symbol hrem).trans hexec, h.next hlt hexec (encoding_iff.2 ⟨.inr rfl, h.started⟩) rfl, ?_⟩
  rw [← htail]
  exact remaining_congr rfl

/-- A symbol that does not emits the match's code, in at most 4 bytes, and restarts the match (43_encoder.md R152). -/
theorem AwaitsSymbol.emits (h : AwaitsSymbol s) (hrem : remaining s = x :: xs) (hmiss : edGet s.ed (s.w ++ [x]) = none)
    (hroom : s.outLen.toNat + 5 < 2 ^ 32) :
    ∃ code t, edGet s.ed s.w = some code ∧ step s = .next t ∧ AwaitsSymbol t ∧ remaining t = xs ∧ Restarts x s t ∧
      Packs code.toNat s.codeWidth.toNat s t ∧ t.outLen.toNat ≤ s.outLen.toNat + 4 ∧ t.streamCfg = s.streamCfg ∧
      t.params = s.params := by
  have hnbits := h.enc.packer.2
  have hwidth := s.codeWidth.isLt
  have hcount : peelCount s.codeWidth.toNat s = (s.nbits.toNat + s.codeWidth.toNat - 1) / 8 := rfl
  obtain ⟨hlt, rfl, htail⟩ := remaining_eq_cons hrem
  obtain ⟨code, hkey, hvalid⟩ := h.enc.pending_code h.dict (h.enc.pending_of_miss hmiss)
  obtain ⟨t, hexec, hpacks, -, hgrown, hinserted, hframe⟩ := encSymbolEmitsOnMiss s code h.phase_or h.started hlt hmiss
    hkey hvalid h.enc.packer (h.roomFor (by omega))
  have het : encoding t = true := by rw [hframe]; exact encoding_iff.2 ⟨.inr rfl, h.started⟩
  have hlen := hpacks.1.1
  rw [digits_length] at hlen
  refine ⟨code, t, hkey, (h.step_symbol hrem).trans hexec, h.next hlt hexec het (by rw [hframe]; rfl), ?_, ?_, hpacks,
    by omega, by rw [hframe], by rw [hframe]⟩
  · rw [← htail]
    exact remaining_congr (by rw [hframe]; rfl)
  · exact ⟨by rw [hframe]; rfl, by rw [hframe], by rw [hframe], hgrown, hinserted⟩

/-- A step that packs a code, and the ENCODE after it. -/
theorem Encoded.cons {c w : Nat} (hstep : step s = .next s') (hpacks : Packs c w s s') (hw : 1 ≤ w)
    (hcfg : s'.streamCfg = s.streamCfg) (hparams : s'.params = s.params) (h : Encoded codes s' t) :
    Encoded ((c, w) :: codes) s t := by
  obtain ⟨hreach, hstatus, hcfg', hparams', hout⟩ := h
  refine ⟨.head hstep hreach, hstatus, hcfg'.trans hcfg, hparams'.trans hparams, ?_⟩
  have ⟨hemitted, _, hnbits⟩ := hpacks
  have hcount : peelCount w s = (s.nbits.toNat + w - 1) / 8 := rfl
  have hbits : totalBits ((c, w) :: codes) = w + totalBits codes := rfl
  have hbytes : (s.nbits.toNat + totalBits ((c, w) :: codes) + 7) / 8 =
      peelCount w s + (s'.nbits.toNat + totalBits codes + 7) / 8 := by omega
  rw [hbytes, ← hpacks.digits_rest codes hw]
  exact hemitted.trans hout

/-- From any encoder going on: the ENCODE completes, and each decoder that follows the encoder gets the pending match and
the symbols left from its codes. Each symbol costs at most 31 bits, and so does the last match. -/
theorem AwaitsSymbol.encoded (xs : Symbols) (s : State) (h : AwaitsSymbol s) (hrem : remaining s = xs)
    (hroom : s.outLen.toNat + 4 * xs.length + 5 < 2 ^ 32) :
    ∃ codes t, Encoded codes s t ∧ (∀ e ∈ codes, ValidCode e.1 e.2) ∧ ∀ u, Tracks s u → Decodes codes (s.w ++ xs) u := by
  induction xs generalizing s with
  | nil =>
    by_cases hw : s.w = []
    · obtain ⟨t, ht⟩ := h.encoded_nil hrem hw (by omega)
      exact ⟨[], t, ht, nofun, fun u _ => by rw [hw]; exact decodes_nil u⟩
    · obtain ⟨code, hkey, hvalid⟩ := h.enc.pending_code h.dict hw
      obtain ⟨t, ht⟩ := h.encoded_last hrem hw hkey (by omega)
      exact ⟨_, t, ht, by simpa using hvalid, fun u hu =>
        hu.decodes_cons h.enc h.dict hkey fun v _ => decodes_nil v⟩
  | cons x xs ih =>
    rw [List.length_cons] at hroom
    cases hkey : edGet s.ed (s.w ++ [x]) with
    | some code =>
      obtain ⟨hstep, hnext, htail⟩ := h.absorb hrem (by rw [hkey]; rfl)
      obtain ⟨codes, t, ht, hvalid, hdecodes⟩ := ih (absorbed x s) hnext htail
        (by have hlen : (absorbed x s).outLen = s.outLen := rfl; rw [hlen]; omega)
      refine ⟨codes, t, ⟨.head hstep ht.reaches, ht.status_eq, ht.streamCfg_eq, ht.params_eq, ht.output⟩, hvalid,
        fun u hu => ?_⟩
      rw [List.append_cons]
      exact hdecodes u hu.absorbed
    | none =>
      obtain ⟨code, s', hmatch, hstep, hnext, htail, hrestart, hpacks, hlen, hcfg, hparams⟩ :=
        h.emits hrem hkey (by omega)
      have hcode := h.enc.validCode h.dict hmatch
      obtain ⟨codes, t, ht, hvalid, hdecodes⟩ := ih s' hnext htail (by omega)
      rw [hrestart.match_eq] at hdecodes
      exact ⟨_, t, ht.cons hstep hpacks hcode.1 hcfg hparams, List.forall_mem_cons.2 ⟨hcode, hvalid⟩, fun u hu =>
        hu.decodes_cons h.enc h.dict hmatch fun v hv => hdecodes v (hv.tracks h.dict hrestart)⟩

end Sys2Proof.Machine
end

section
/-! The round trip (44_decoder.md R178): RUN_ENCODE of any bytes, and RUN_DECODE of its output. Settles O59. -/

namespace Sys2Proof.Machine

variable {s t u : State} {codes : List (Nat × Nat)} {data stream bs : Symbols} {m : Bool} {b : Width}

/-! ## The stream an ENCODE writes -/

/-- What was appended from `OUT_LEN = 0` on is the output. -/
theorem Appended.outputCells_eq (h : Appended bs s t) (hzero : s.outLen = 0) : outputCells t = bs.map some := by
  obtain ⟨hlen, hread, -⟩ := h
  have hstart : s.outLen.toNat = 0 := congrArg BitVec.toNat hzero
  rw [hstart, Nat.zero_add] at hlen
  refine List.ext_getElem (by simp [outputCells, hlen]) fun j _ hj => ?_
  have hbyte := hread j (by simpa using hj)
  rw [hstart, Nat.zero_add, List.getElem?_eq_getElem (by simpa using hj)] at hbyte
  simpa [outputCells] using hbyte

/-- The header of a stream (30_encoding.md R70, R72). -/
def headerBytes (m : Bool) (b : Width) : Symbols := [0x1F#8, 0x9D#8, headerByte m b]

/-- The bytes of a stream: the header and the packed codes (41_bitstream.md R113). -/
def streamBytes (m : Bool) (b : Width) (codes : List (Nat × Nat)) : Symbols :=
  headerBytes m b ++ digits (packedValue codes) ((totalBits codes + 7) / 8)

/-- ENC_START with OUT_CAP unbounded, and the encoder then before its first symbol (43_encoder.md R150). -/
theorem exec_encStart_room (hphase : s.phase = .encEmpty) (hstart : s.starting = true)
    (hcap : (encMaxBits s).toNat ≤ s.params.maxBitsCap) (hroom : s.params.outCap = none) :
    ∃ t, exec .encStart s = .next t ∧ Appended (headerBytes (configOperands s).1 (encMaxBits s)) (encStarted s) t ∧
      t = { encStarted s with
        outBuf := t.outBuf, outLen := t.outLen, streamCfg := encHeaderByte s, phase := .encEmpty, starting := false } := by
  obtain ⟨t, hemit, happended, hframe⟩ := emitAll_room (headerBytes (configOperands s).1 (encMaxBits s)) (encStarted s)
    ⟨by simp [encStarted, encInit, hroom], show 0 + 3 < 2 ^ 32 by decide⟩
  refine ⟨{ t with streamCfg := encHeaderByte s, phase := .encEmpty, starting := false }, ?_, happended, by rw [hframe]⟩
  rw [exec_encStart_due hphase hstart, encStart_within_cap hcap]
  exact congrArg finishUnit (congrArg (resBind · _) hemit)

/-- The decoder as DEC_START leaves it, for the header's fields (44_decoder.md R170). -/
structure Initialised (m : Bool) (b : Width) (u : State) : Prop where
  phase_eq : u.phase = .decInit
  width_eq : u.codeWidth = 9
  max_eq : u.maxBits = b
  block_eq : u.blockMode = m
  next_eq : u.nextCode = firstAssignable m

/-- A decoder initialised from an encoder's header follows it from its start. -/
theorem Initialised.tracks (h : Initialised m b u) (hwidth : s.codeWidth = 9) (hmax : s.maxBits = b)
    (hblock : s.blockMode = m) (hnext : s.nextCode = firstAssignable m) (hed : s.ed = seedED) : Tracks s u := by
  refine ⟨h.width_eq.trans hwidth.symm, h.max_eq.trans hmax.symm, h.block_eq.trans hblock.symm, .inl ⟨h.phase_eq,
    h.next_eq.trans hnext.symm, ?_, fun key c hkey => ?_⟩⟩
  · rw [hnext, dictSizeMax, hwidth]
    cases m <;> decide
  · rw [hed] at hkey
    exact edGet_seed_eq_some hkey

/-- ENC_START of an accepted ENCODE leaves an encoder before its first symbol, the header appended (43_encoder.md R150). -/
theorem reaches_encStarted (buf : Memory) (data : Symbols) (s : State) (haccepts : s.params.zeroPolicy = .accept)
    (hunbounded : s.params.outCap = none) (hcap : (configFields s).2.toNat ≤ s.params.maxBitsCap) :
    ∃ t, step (acceptedWith .encode buf data s) = .next t ∧ AwaitsSymbol t ∧
      Appended (headerBytes (configFields s).1 (configFields s).2) (encStarted (acceptedWith .encode buf data s)) t ∧
      t = { encStarted (acceptedWith .encode buf data s) with
        outBuf := t.outBuf, outLen := t.outLen, phase := .encEmpty, starting := false
        streamCfg := headerByte (configFields s).1 (configFields s).2 } := by
  obtain ⟨t, hexec, hheader, hframe⟩ := exec_encStart_room (s := acceptedWith .encode buf data s) rfl rfl hcap hunbounded
  have hstep := (step_eq_controller rfl (.inr rfl) (nextLabel_encStart rfl rfl)).trans hexec
  have hencoding : encoding t = true := by rw [hframe]; rfl
  have htx : TransactionInv t := by
    rw [exec_encStart_due rfl rfl] at hexec
    exact transactionInv_of_finishUnit (fun _ => transactionInv_of_encStart) hexec
  obtain ⟨hstarted, hside⟩ := started_of_encoding hencoding
  have hrunning : Running t := by
    refine ⟨?_, ?_, hstarted.2, ?_, ?_, htx.dict hstarted⟩ <;> rw [hframe]
    · rfl
    · rfl
    · exact haccepts
    · exact hunbounded
  exact ⟨t, hstep, { hrunning with encoding_eq := hencoding, enc := htx.enc hstarted hside }, hheader, hframe⟩

/-- An accepted ENCODE completes: its output is a stream, and a decoder initialised from the stream's header emits the
input on the stream's codes. -/
theorem encodes_accepted (buf : Memory) (s : State) (haccepts : s.params.zeroPolicy = .accept)
    (hunbounded : s.params.outCap = none) (hcap : (configFields s).2.toNat ≤ s.params.maxBitsCap)
    (hin : inputFrom 0 (acceptedWith .encode buf data s) = data) (hlen : data.length < 2 ^ 29) :
    ∃ codes t, Reaches (acceptedWith .encode buf data s) t ∧ t.status = statusDone .encode ∧
      outputCells t = (streamBytes (configFields s).1 (configFields s).2 codes).map some ∧
      (streamBytes (configFields s).1 (configFields s).2 codes).length < 2 ^ 32 ∧
      t.streamCfg = headerByte (configFields s).1 (configFields s).2 ∧ t.params = s.params ∧
      (∀ e ∈ codes, ValidCode e.1 e.2) ∧
      ∀ u, Initialised (configFields s).1 (configFields s).2 u → Decodes codes data u := by
  obtain ⟨e, hstep, hawaits, hheader, hframe⟩ := reaches_encStarted buf data s haccepts hunbounded hcap
  have hrem : remaining e = data := by
    rw [← hin, hframe]
    rfl
  have houtLen : e.outLen.toNat = 3 := hheader.1
  obtain ⟨codes, t, ht, hvalid, hdecodes⟩ := hawaits.encoded data e hrem (by omega)
  have hstream := hheader.trans ht.output
  have hnbits : e.nbits = 0 := by rw [hframe]; rfl
  have hbytes : (e.nbits.toNat + totalBits codes + 7) / 8 = (totalBits codes + 7) / 8 := by
    rw [hnbits]
    exact congrArg (fun n => (n + 7) / 8) (Nat.zero_add _)
  rw [pendingWith_empty (by rw [hframe]; rfl) hnbits, hbytes] at hstream
  refine ⟨codes, t, .head hstep ht.reaches, ht.status_eq, hstream.outputCells_eq rfl, ?_, ?_, ?_, hvalid, fun u hu => ?_⟩
  · have hcount : t.outLen.toNat = 0 + _ := hstream.1
    rw [streamBytes, ← Nat.zero_add (List.length _), ← hcount]
    exact t.outLen.isLt
  · rw [ht.streamCfg_eq, hframe]
  · rw [ht.params_eq, hframe]
    rfl
  · have hmatch : e.w = [] := by rw [hframe]; rfl
    rw [hmatch] at hdecodes
    exact hdecodes u (hu.tracks (by rw [hframe]; rfl) (by rw [hframe]; rfl) (by rw [hframe]; rfl) (by rw [hframe]; rfl)
      (by rw [hframe]; rfl))

/-! ## The stream that a DECODE reads -/

theorem coreRead_of_inputFrom (h : inputFrom 0 s = bs) :
    s.sampledInLen.toNat = bs.length ∧ ∀ j, j < bs.length → some (coreRead s j) = bs[j]? := by
  subst h
  refine ⟨by simp [inputFrom], fun j hj => ?_⟩
  rw [List.getElem?_eq_getElem hj]
  simp [inputFrom]

/-- Behind a header the digits of the packed codes are their stream (41_bitstream.md R113, R117). -/
theorem streamAhead_of_digits (hcursor : cursorPos s = 24) (hvalid : ∀ e ∈ codes, ValidCode e.1 e.2)
    (hlen : s.sampledInLen.toNat = 3 + (totalBits codes + 7) / 8)
    (hread : ∀ j, j < (totalBits codes + 7) / 8 → coreRead s (3 + j) = BitVec.ofNat 8 (packedValue codes / 256 ^ j)) :
    StreamAhead codes s := by
  have hfits : packedValue codes < 256 ^ ((totalBits codes + 7) / 8) := by
    rw [pow256]
    exact (packedValue_lt codes hvalid).trans_le (Nat.pow_le_pow_right (by decide) (by omega))
  have hheader : inputValue s 3 / 2 ^ 24 = 0 := Nat.div_eq_of_lt (inputValue_lt s 3)
  refine ⟨?_, by omega, by omega⟩
  rw [bitsAhead, hlen, hcursor, inputValue_add_digits hread, Nat.mod_eq_of_lt hfits, pow256 3,
    Nat.add_mul_div_right _ _ (by decide), hheader, Nat.zero_add]

/-- What the input holds where it is a stream. -/
theorem reads_streamBytes (hin : inputFrom 0 s = streamBytes m b codes) :
    s.sampledInLen.toNat = 3 + (totalBits codes + 7) / 8 ∧
      coreRead s 0 = 0x1F ∧ coreRead s 1 = 0x9D ∧ coreRead s 2 = headerByte m b ∧
      ∀ j, j < (totalBits codes + 7) / 8 → coreRead s (3 + j) = BitVec.ofNat 8 (packedValue codes / 256 ^ j) := by
  obtain ⟨hlen, hread⟩ := coreRead_of_inputFrom hin
  have hcount : (streamBytes m b codes).length = 3 + (totalBits codes + 7) / 8 := by
    rw [streamBytes, List.length_append, digits_length]
    rfl
  rw [hcount] at hlen hread
  refine ⟨hlen, Option.some.inj (hread 0 (by omega)), Option.some.inj (hread 1 (by omega)),
    Option.some.inj (hread 2 (by omega)), fun j hj => Option.some.inj ((hread (3 + j) (by omega)).trans ?_)⟩
  rw [← getElem?_digits _ hj, streamBytes, List.getElem?_append_right (Nat.le_add_right 3 j)]
  exact congrArg _ (Nat.add_sub_cancel_left 3 j)

/-- An accepted DECODE of a stream completes with what a decoder initialised from its header emits. -/
theorem decodes_accepted (buf : Memory) (s : State) (haccepts : s.params.zeroPolicy = .accept)
    (hunbounded : s.params.outCap = none) (hge : 9 ≤ b.toNat) (hcap : b.toNat ≤ s.params.maxBitsCap)
    (hin : inputFrom 0 (acceptedWith .decode buf (streamBytes m b codes) s) = streamBytes m b codes)
    (hvalid : ∀ e ∈ codes, ValidCode e.1 e.2) (hdecodes : ∀ u, Initialised m b u → Decodes codes data u)
    (hlen : data.length < 2 ^ 32) :
    ∃ u, Reaches (acceptedWith .decode buf (streamBytes m b codes) s) u ∧ u.status = statusDone .decode ∧
      outputCells u = data.map some ∧ u.streamCfg = headerByte m b := by
  obtain ⟨hcount, h0, h1, h2, hdigits⟩ := reads_streamBytes hin
  have hclamp : effectiveMaxBits b = b := effectiveMaxBits_eq_self hge
  have hfields : headerFields (coreRead (acceptedWith .decode buf (streamBytes m b codes) s) 2) = (m, b) := by
    rw [h2, headerFields_headerByte]
  have hexec := exec_decStart_good rfl (by omega) h0 h1 (by rw [hfields, hclamp]; exact hcap)
  rw [hfields, hclamp] at hexec
  have hstep := (step_eq_controller rfl (.inr rfl) (nextLabel_decStart rfl)).trans hexec
  have htx := transactionInv_of_finishUnit (fun _ => transactionInv_of_decStart)
    ((exec_decStart_await rfl).symm.trans hexec)
  have hawaits : AwaitsCode (decInit m b (clearOut (acceptedWith .decode buf (streamBytes m b codes) s))) :=
    ⟨⟨rfl, rfl, rfl, haccepts, hunbounded, htx.dict ⟨rfl, rfl⟩⟩, rfl, htx.dec ⟨rfl, rfl⟩ rfl⟩
  obtain ⟨u, hreach, hdone, hout, hcfg⟩ := hdecodes _ ⟨rfl, rfl, rfl, rfl, rfl⟩ hawaits
    (streamAhead_of_digits rfl hvalid hcount hdigits) ((Nat.zero_add _).trans_lt hlen)
  exact ⟨u, .head hstep hreach, hdone, hout.outputCells_eq rfl, hcfg⟩

/-! ## The two runs -/

/-- `s` after the first move of RUN_ENCODE, which writes CONFIG, the others pending (10_state.md R21, 30_encoding.md R91). -/
def configured (cfg : Byte) (data : Symbols) (s : State) : State :=
  { s with
    inputs := loadInput data ++ [.writeReg 0 (commandWord .encode), .wait]
    config := (cfg.setWidth 32 : Word32).setWidth 8 &&& 0x9F#8 }

theorem step_runEncode (cfg : Byte) (data : Symbols) (s : State) :
    step { s with inputs := runEncode cfg data } = .next (configured cfg data s) :=
  (step_writeReg rfl).trans (if_neg (by decide))

theorem configFields_configured (cfg : Byte) (data : Symbols) (s : State) :
    (configFields (configured cfg data s)).2.toNat = max (cfg.toNat % 32) 9 := by
  have hfield : (headerFields ((cfg.setWidth 32 : Word32).setWidth 8 &&& 0x9F#8)).2.toNat = cfg.toNat % 32 := by
    revert cfg
    decide
  rw [configFields, effectiveMaxBits_toNat, configured, hfield]

/-- RUN_ENCODE completes: its output is a stream under the header of the effective CONFIG (30_encoding.md R91). -/
theorem reaches_encoded (cfg : Byte) (s : State) (hidle : s.status.busy = false)
    (haccepts : s.params.zeroPolicy = .accept) (hunbounded : s.params.outCap = none)
    (hcap : max (cfg.toNat % 32) 9 ≤ s.params.maxBitsCap) (hlen : data.length < 2 ^ 29) :
    ∃ m b codes t, Reaches { s with inputs := runEncode cfg data } t ∧ t.status = statusDone .encode ∧
      outputCells t = (streamBytes m b codes).map some ∧ (streamBytes m b codes).length < 2 ^ 32 ∧
      t.streamCfg = headerByte m b ∧ t.params = s.params ∧ 9 ≤ b.toNat ∧ b.toNat ≤ s.params.maxBitsCap ∧
      (∀ e ∈ codes, ValidCode e.1 e.2) ∧ ∀ u, Initialised m b u → Decodes codes data u := by
  rw [← configFields_configured cfg data s] at hcap
  obtain ⟨buf, hload, hin⟩ := reaches_accepted (s := configured cfg data s) .encode hidle (by omega) rfl
  obtain ⟨codes, t, hencode, hdone, hcells, hcount, hcfg, hparams, hvalid, hdecodes⟩ :=
    encodes_accepted buf (configured cfg data s) haccepts hunbounded hcap hin hlen
  exact ⟨_, _, codes, t, .head (step_runEncode cfg data s) (hload.trans hencode), hdone, hcells, hcount, hcfg, hparams,
    effectiveMaxBits_ge _, hcap, hvalid, hdecodes⟩

end Sys2Proof.Machine

open Sys2Proof Sys2Proof.Machine

/-- Settles O59: the ENCODE's output is the header and a packed stream (`reaches_encoded`), on which the decoder stays one
code behind the encoder (`Tracks.decodes_cons`). -/
theorem encodeDecodeRoundTrip : Obligations.EncodeDecodeRoundTrip := by
  unfold Obligations.EncodeDecodeRoundTrip
  intro s cfg data hidle haccepts hunbounded hcap hlen
  obtain ⟨m, b, codes, t, hencode, hdone, hcells, hcount, hcfg, hparams, hge, hmax, hvalid, hdecodes⟩ :=
    reaches_encoded cfg s hidle haccepts hunbounded hcap hlen
  obtain ⟨buf, hload, hin⟩ := reaches_accepted (s := { t with inputs := runDecode (streamBytes m b codes) }) .decode
    (by rw [hdone]; rfl) hcount rfl
  obtain ⟨u, hdecode, hdone', hcells', hcfg'⟩ := decodes_accepted buf _ (by rw [hparams]; exact haccepts)
    (by rw [hparams]; exact hunbounded) hge (by rw [hparams]; exact hmax) hin hvalid hdecodes (by omega)
  obtain ⟨n, hn⟩ := hencode.exists_run
  obtain ⟨k, hk⟩ := Reaches.exists_run (hload.trans hdecode)
  exact ⟨n, t, streamBytes m b codes, hn, hdone, hcells, k, u, hk, hdone', hcells', hcfg'.trans hcfg.symm⟩
end

section
/-! A write of CMD (45_control.md R190, R192, R193): accepted or rejected between transactions, ignored in one. Settles O13,
O14 and O15. -/

namespace Sys2Proof.Machine

variable {s : State}

/-- What a value written to CMD can be (30_encoding.md R80). -/
theorem decodeCmd_cases (op : Byte) :
    decodeCmd op = .encode ∨ decodeCmd op = .decode ∨ decodeCmd op = .illegalCmd op := by
  unfold decodeCmd
  split_ifs
  · exact .inl rfl
  · exact .inr (.inl rfl)
  · exact .inr (.inr rfl)

theorem exec_illegalCmd_of_idle (op : Byte) (hidle : s.status.busy = false) :
    exec (.illegalCmd op) s = .next (reject s) :=
  if_neg (by simp [hidle])

theorem exec_decodeCmd_of_busy (op : Byte) (hbusy : s.status.busy = true) : exec (decodeCmd op) s = .next s := by
  rcases decodeCmd_cases op with hop | hop | hop <;> rw [hop]
  · exact if_pos hbusy
  · exact if_pos hbusy
  · exact if_pos hbusy

end Sys2Proof.Machine

open Sys2Proof Sys2Proof.Machine

/-- Settles O13: each command accepts (`exec_command`), and `accept` is the state written out. -/
theorem commandAccepted : Obligations.CommandAccepted := by
  unfold Obligations.CommandAccepted
  intro s hidle
  exact ⟨exec_command .encode hidle, exec_command .decode hidle⟩

/-- Settles O14: a value that is neither command decodes to the illegal one (`decodeCmd_cases`), whose step is `reject`. -/
theorem illegalCommandRejected : Obligations.IllegalCommandRejected := by
  unfold Obligations.IllegalCommandRejected
  intro s op hidle hencode hdecode
  refine ⟨((decodeCmd_cases op).resolve_left hencode).resolve_left hdecode, ?_⟩
  exact exec_illegalCmd_of_idle op hidle

/-- Settles O15: whichever of the three instructions the value decodes to, its step is guarded by BUSY. -/
theorem commandIgnoredWhileBusy : Obligations.CommandIgnoredWhileBusy := by
  unfold Obligations.CommandIgnoredWhileBusy
  intro s op hbusy
  exact exec_decodeCmd_of_busy op hbusy
end

section
/-! Every error aborts in the same way (60_exceptions.md R204, R210), and between transactions nothing happens (R216).
Settles O51 and O7. -/

namespace Sys2Proof.Machine

variable {α β : Type} {s t u : State} {e : ErrKind}

/-! ## The registers an abort is compared by -/

/-- PHASE, and the registers that 60_exceptions.md R210 says an abort leaves as they were. -/
def abortRegs (s : State) : Phase × Side × Byte × Byte × Byte × Byte × Word32 × Memory × Params :=
  (s.phase, s.status.dir, s.streamCfg, s.statMaxw, s.statFinalw, s.config, s.inLen, s.inBuf, s.params)

def SameAbortRegs (s t : State) : Prop := abortRegs t = abortRegs s

theorem SameAbortRegs.trans (h1 : SameAbortRegs s t) (h2 : SameAbortRegs t u) : SameAbortRegs s u :=
  Eq.trans h2 h1

theorem SameAbortRegs.phase_eq (h : SameAbortRegs s t) : t.phase = s.phase :=
  congrArg Prod.fst h

/-- An abort compares with the start of the step also where the step had written other registers before it. -/
theorem SameAbortRegs.abortedWith (h : SameAbortRegs s u) (e : ErrKind) : AbortedWith e s (abort e u) := by
  simp only [SameAbortRegs, abortRegs, Prod.mk.injEq] at h
  obtain ⟨-, hdir, hregs⟩ := h
  simpa [AbortedWith, hdir] using hregs

theorem Emits.sameAbortRegs (h : Emits s t) : SameAbortRegs s t := by
  rw [h.2]
  rfl

theorem CursorMoved.sameAbortRegs (h : CursorMoved s t) : SameAbortRegs s t := by
  rw [h]
  rfl

/-! ## Operations that abort uniformly -/

/-- An operation begun in `s` ends in ERROR only if `s` was in it; what it raises is no OutOfRangeSymbol
(60_exceptions.md R204), and by then no register that an abort keeps has changed. -/
def Res.AbortsFrom (s : State) : Res α → Prop
  | .ok _ u => u.phase = .error → s.phase = .error
  | .raise e u => e ≠ .outOfRangeSymbol ∧ SameAbortRegs s u
  | .undef => True

theorem Res.AbortsFrom.mono {r : Res α} (h : r.AbortsFrom u) (hsame : SameAbortRegs s u) : r.AbortsFrom s := by
  cases r with
  | ok a v => exact fun hv => hsame.phase_eq ▸ h hv
  | raise e v => exact ⟨h.1, hsame.trans h.2⟩
  | undef => trivial

theorem Res.AbortsFrom.bind {Q : State → Prop} {r : Res α} {f : α → State → Res β} (h : r.AbortsFrom s) (hall : r.All Q)
    (hok : ∀ a u, Q u → (f a u).AbortsFrom s) : (resBind r f).AbortsFrom s := by
  cases r with
  | ok a u => exact hok a u hall
  | raise e u => exact h
  | undef => trivial

/-- The step of such an operation, where it raises. -/
theorem Res.AbortsFrom.finish_raise {r : Res α} {k : α → State → State} (h : r.AbortsFrom s) (hr : r = .raise e u) :
    ∃ t, finish r k = .next t ∧ AbortedWith e s t := by
  subst hr
  exact ⟨_, rfl, h.2.abortedWith e⟩

/-- The step of such an operation, where it ends in ERROR. -/
theorem Res.AbortsFrom.of_finish {r : Res α} {k : α → State → State} (h : r.AbortsFrom s)
    (hnext : finish r k = .next t) (hk : ∀ a u, (k a u).phase = u.phase) (hs : s.phase ≠ .error)
    (herr : t.phase = .error) : ∃ e, e ≠ .outOfRangeSymbol ∧ AbortedWith e s t := by
  rcases finish_eq_next hnext with ⟨a, u, rfl, rfl⟩ | ⟨e, u, rfl, rfl⟩
  · exact absurd (h ((hk a u).symm.trans herr)) hs
  · exact ⟨e, h.1, h.2.abortedWith e⟩

/-! ## Emission and packing -/

theorem emitAll_onlyOverflows (bs : Symbols) (s : State) : (emitAll bs s).OnlyOverflows := by
  rcases emitAll_frame bs s with ⟨t, hr, -⟩ | ⟨t, hr, -⟩ <;> rw [hr]
  · trivial
  · rfl

/-- An operation that only emits and raises OutputOverflow alone. -/
theorem abortsFrom_of_emits {r : Res α} (hall : r.All (Emits s)) (hover : r.OnlyOverflows) : r.AbortsFrom s := by
  cases r with
  | ok a u => exact fun hu => hall.sameAbortRegs.phase_eq ▸ hu
  | raise e u => exact ⟨by rw [show e = .outputOverflow from hover]; decide, hall.sameAbortRegs⟩
  | undef => trivial

theorem emitAll_abortsFrom (bs : Symbols) (s : State) : (emitAll bs s).AbortsFrom s :=
  abortsFrom_of_emits (emitAll_emits bs s) (emitAll_onlyOverflows bs s)

theorem bwPush_abortsFrom (code width : Nat) (s : State) : (bwPush code width s).AbortsFrom s := by
  unfold bwPush
  split
  · exact ⟨by decide, rfl⟩
  · exact abortsFrom_of_emits (peel_emits _ _ _ s) (peel_onlyOverflows _ _ _ s)

theorem bwFlush_abortsFrom (s : State) : (bwFlush s).AbortsFrom s :=
  abortsFrom_of_emits (bwFlush_emits s) (bwFlush_onlyOverflows s)

theorem hdrWrite_abortsFrom (m : Bool) (b : Nat) (s : State) : (hdrWrite m b s).AbortsFrom s := by
  unfold hdrWrite
  split
  · exact ⟨by decide, rfl⟩
  · exact emitAll_abortsFrom _ s

theorem pushMatch_abortsFrom (s : State) : (pushMatch s).AbortsFrom s := by
  unfold pushMatch
  split
  · trivial
  · exact (bwPush_abortsFrom _ _ s).bind (bwPush_emits _ _ s) fun _ u hu herr => hu.sameAbortRegs.phase_eq ▸ herr

/-! ## Reads of the input -/

theorem hdrRead_abortsFrom (s : State) : (hdrRead s).AbortsFrom s := by
  unfold hdrRead
  simp only []
  split_ifs
  · exact ⟨by decide, rfl⟩
  · exact ⟨by decide, rfl⟩
  · exact ⟨by decide, rfl⟩
  · exact id

theorem brPull_abortsFrom (width : Nat) (s : State) : (brPull width s).AbortsFrom s := by
  unfold brPull
  split
  · exact ⟨by decide, rfl⟩
  · simp only []
    split
    · exact id
    · exact fun herr => by simpa using herr

/-! ## Decoder -/

theorem decStart_abortsFrom (s : State) : (decStart s).AbortsFrom s :=
  ((hdrRead_abortsFrom (clearOut s)).mono rfl).bind (hdrRead_same (clearOut s)) fun _ _ _ => nofun

theorem takeHeader_abortsFrom (m : Bool) (b : Width) (s : State) : (takeHeader m b s).AbortsFrom s := by
  unfold takeHeader
  split
  · exact ⟨by decide, rfl⟩
  · exact nofun

theorem codeFirstLiteral_abortsFrom (k : Byte) (s : State) : (codeFirstLiteral k s).AbortsFrom s :=
  (emitAll_abortsFrom [k] s).bind (emitAll_emits [k] s) fun _ _ _ => nofun

theorem takeEntry_abortsFrom (entry : Symbols) (s : State) : (takeEntry entry s).AbortsFrom s := by
  refine (emitAll_abortsFrom entry s).bind (emitAll_emits entry s) fun _ u hu => ?_
  split
  next d x _ _ =>
    rw [insertThenGrow_frame]
    exact fun herr => hu.sameAbortRegs.phase_eq ▸ herr
  next => trivial

theorem codeKnown_abortsFrom (k : Code31) (s : State) : (codeKnown k s).AbortsFrom s := by
  rcases codeKnown_cases k s with hr | ⟨entry, hr⟩ <;> rw [hr]
  · trivial
  · exact takeEntry_abortsFrom entry s

theorem codeKwkwk_abortsFrom (s : State) : (codeKwkwk s).AbortsFrom s := by
  rcases codeKwkwk_cases s with hr | ⟨entry, hr⟩ <;> rw [hr]
  · trivial
  · exact takeEntry_abortsFrom entry s

theorem takeCode_abortsFrom (k : Code31) (s : State) : (takeCode k s).AbortsFrom s := by
  unfold takeCode
  cases classify (codeCtx s k) k with
  | zeroReject | clear | firstBad | unknown => exact ⟨by decide, rfl⟩
  | firstLiteral => exact codeFirstLiteral_abortsFrom _ s
  | known => exact codeKnown_abortsFrom k s
  | kwkwk => exact codeKwkwk_abortsFrom s

theorem decCode_abortsFrom (s : State) : (decCode s).AbortsFrom s := by
  refine (brPull_abortsFrom _ s).bind (brPull_cursorMoved _ s) fun r u hu => ?_
  cases r with
  | none => exact nofun
  | some k => exact (takeCode_abortsFrom k (noteWidth u)).mono hu.sameAbortRegs

/-! ## Encoder -/

theorem encStart_abortsFrom (s : State) : (encStart s).AbortsFrom s := by
  unfold encStart
  simp only []
  split
  · exact ⟨by decide, rfl⟩
  · exact ((hdrWrite_abortsFrom _ _ _).mono rfl).bind (hdrWrite_emits _ _ _) fun _ _ _ => nofun

theorem encSymbol_abortsFrom (s : State) : (encSymbol s).AbortsFrom s := by
  cases hkey : edGet s.ed (extendedMatch s) with
  | some code =>
    rw [encSymbol_hit hkey]
    exact nofun
  | none =>
    rw [encSymbol_miss hkey]
    exact ((pushMatch_abortsFrom { s with inIdx := s.inIdx + 1 }).mono rfl).bind (pushMatch_emits _) fun _ _ _ => nofun

theorem encFinish_abortsFrom (s : State) : (encFinish s).AbortsFrom s := by
  have hflush (u : State) (hu : Emits s u) :
      (resBind (bwFlush u) fun _ v => .ok () (complete .encode v)).AbortsFrom s :=
    ((bwFlush_abortsFrom u).mono hu.sameAbortRegs).bind (bwFlush_emits u) fun _ _ _ => nofun
  by_cases hw : s.w = []
  · rw [encFinish_noMatch hw]
    exact hflush s (.refl s)
  · rw [encFinish_match hw]
    exact (pushMatch_abortsFrom s).bind (pushMatch_emits s) fun _ => hflush

/-! ## Every instruction -/

/-- Whatever operation but a rejected command enters ERROR, it aborts. -/
theorem exec_enters_error {i : Instr} (hnext : exec i s = .next t) (hs : s.phase ≠ .error) (herr : t.phase = .error)
    (hi : ∀ op, i ≠ .illegalCmd op) : ∃ e, e ≠ .outOfRangeSymbol ∧ AbortedWith e s t := by
  have hunit : ∀ {r : Res Unit}, r.AbortsFrom s → finishUnit r = .next t →
      ∃ e, e ≠ .outOfRangeSymbol ∧ AbortedWith e s t :=
    fun hr h => hr.of_finish h (fun _ _ => rfl) hs herr
  have hguarded : ∀ {c : Prop} [Decidable c] {r : Res Unit} {q : Refusal}, r.AbortsFrom s →
      (if c then finishUnit r else .refused q) = .next t → ∃ e, e ≠ .outOfRangeSymbol ∧ AbortedWith e s t :=
    fun hr h => hunit hr (guarded_eq_next h).2
  have hclass : ∀ {c : CodeClass} {k : Code31} {r : Res Unit}, r.AbortsFrom s → runClass c k r s = .next t →
      ∃ e, e ≠ .outOfRangeSymbol ∧ AbortedWith e s t :=
    fun hr h => hunit hr (runClass_eq_next h).2
  have hraise (e : ErrKind) (he : e ≠ .outOfRangeSymbol) : (.raise e s : Res Unit).AbortsFrom s := ⟨he, rfl⟩
  cases i with
  | encode | decode =>
    rcases command_eq_next hnext with rfl | ⟨-, rfl⟩
    · exact absurd herr hs
    · cases herr
  | illegalCmd op => exact absurd rfl (hi op)
  | hdrWrite => exact hunit (hdrWrite_abortsFrom _ _ s) hnext
  | bwPush => exact hunit (bwPush_abortsFrom _ _ s) hnext
  | bwFlush => exact hunit (bwFlush_abortsFrom s) hnext
  | hdrRead => exact (hdrRead_abortsFrom s).of_finish hnext (fun _ _ => rfl) hs herr
  | brPull => exact (brPull_abortsFrom _ s).of_finish hnext (fun _ _ => rfl) hs herr
  | dictReset | encDictLookup | decDictLookup | dictInsertIfRoom | dictMaybeGrow =>
    cases hnext
    exact absurd (by simpa using herr) hs
  | encStart => exact hguarded (encStart_abortsFrom s) hnext
  | encSymbol => exact hguarded (encSymbol_abortsFrom s) hnext
  | encFinish => exact hguarded (encFinish_abortsFrom s) hnext
  | decStart => exact hguarded (decStart_abortsFrom s) hnext
  | decCode => exact hguarded (decCode_abortsFrom s) hnext
  | codeZeroReject | codeClear | codeFirstBad k | codeUnknown k => exact hclass (hraise _ (by decide)) hnext
  | codeFirstLiteral k => exact hclass (codeFirstLiteral_abortsFrom k s) hnext
  | codeKnown k => exact hclass (codeKnown_abortsFrom k s) hnext
  | codeKwkwk k => exact hclass (codeKwkwk_abortsFrom s) hnext
  | header m b => exact hguarded (takeHeader_abortsFrom m b s) hnext

end Sys2Proof.Machine

open Sys2Proof Sys2Proof.Machine

/-- Settles O51: `exec_enters_error`; an abort keeps the statistics, which are 0 in a transaction. -/
theorem abortsAreUniform : Obligations.AbortsAreUniform := by
  unfold Obligations.AbortsAreUniform
  intro s t i hnext hs herr hi
  obtain ⟨e, he, haborted⟩ := exec_enters_error hnext hs herr hi
  refine ⟨e, he, haborted, fun hflags hbusy => ?_⟩
  obtain ⟨-, -, -, -, hmaxw, hfinalw, -⟩ := haborted
  rw [hmaxw, hfinalw]
  exact hflags.busy_stats hbusy

/-- Settles O7: `step_idle`. -/
theorem idleKeepsEverything : Obligations.IdleKeepsEverything := by
  unfold Obligations.IdleKeepsEverything
  intro s hidle hin
  exact step_idle hidle hin
end

section
/-! The errors of single operations: a bad header, operands out of range, the CLEAR code, and a full OUT_BUF
(60_exceptions.md R201, R203, R205, R206). Settles O18, O24, O43 and O50. -/

namespace Sys2Proof.Machine

variable {s t : State} {code : Word32} {k : Code31} {entry : Symbols}

/-! ## Operands out of range -/

theorem hdrWrite_bad {m : Bool} {b : Nat} (hb : 31 < b) : hdrWrite m b s = .raise .invalidArgument s :=
  if_pos hb

theorem bwPush_bad {c w : Nat} (hcode : ¬ ValidCode c w) : bwPush c w s = .raise .invalidArgument s :=
  if_pos (by unfold ValidCode at hcode; omega)

theorem brPull_bad {w : Nat} (hw : w = 0 ∨ 31 < w) : brPull w s = .raise .invalidArgument s :=
  if_pos hw

/-! ## The CLEAR code -/

theorem classify_clear (hblock : s.blockMode = true) : classify (codeCtx s 256) 256 = .clear :=
  classify_eq_clear_iff.2 ⟨hblock, rfl⟩

theorem takeCode_clear (hblock : s.blockMode = true) : takeCode 256 s = .raise .unsupportedClearCode s := by
  rw [takeCode, classify_clear hblock]
  rfl

/-! ## A full OUT_BUF -/

theorem outFull_of_overflows (h : Overflows 1 s) : outFull s = true :=
  (Overflows.step 0 h).elim id fun hroom => absurd hroom.2.1 (Nat.lt_irrefl 0)

theorem bwFlush_full (hpending : 0 < s.nbits.toNat) (hfull : outFull s = true) :
    bwFlush s = .raise .outputOverflow s := by
  rw [bwFlush, if_neg (Nat.pos_iff_ne_zero.1 hpending), emit, if_pos hfull, resBind_raise]

theorem pushMatch_eq (hmatch : edGet s.ed s.w = some code) :
    pushMatch s = resBind (bwPush code.toNat s.codeWidth.toNat s) fun _ t => .ok () (noteWidth t) := by
  have hfound : encLookup s s.w = some code := hmatch
  rw [pushMatch, hfound]

/-- A miss of ENC_SYMBOL that peels more bytes than OUT_CAP allows. -/
theorem encSymbol_overflows (hkey : edGet s.ed (extendedMatch s) = none) (hmatch : edGet s.ed s.w = some code)
    (hcode : ValidCode code.toNat s.codeWidth.toNat) (hfew : Overflows (peelCount s.codeWidth.toNat s) s) :
    ∃ u, encSymbol s = .raise .outputOverflow u := by
  obtain ⟨u, hpush, -⟩ := bwPush_overflows (s := { s with inIdx := s.inIdx + 1 }) hcode hfew
  refine ⟨u, ?_⟩
  rw [encSymbol_miss hkey, pushMatch_eq (s := { s with inIdx := s.inIdx + 1 }) hmatch, hpush, resBind_raise,
    resBind_raise]

/-- Where OUT_CAP allows fewer bytes than `n` bits make, the peel loop raises, or leaves bits and no room for them. -/
theorem peel_flush_overflows (fuel v n : Nat) (s : State) (hn : n ≤ fuel) (hpos : 0 < n)
    (h : Overflows ((n + 7) / 8) s) :
    (∃ u, peel fuel v n s = .raise .outputOverflow u) ∨
      ∃ u, peel fuel v n s = .ok () u ∧ 0 < u.nbits.toNat ∧ outFull u = true := by
  induction fuel generalizing v n s with
  | zero => omega
  | succ fuel ih =>
    unfold peel
    split
    next h8 =>
      rw [show (n + 7) / 8 = (n - 8 + 7) / 8 + 1 by omega] at h
      rcases Overflows.step (BitVec.ofNat 8 v) h with hfull | ⟨hroom, hrest⟩
      · exact .inl ⟨s, by rw [emit, if_pos hfull, resBind_raise]⟩
      · rw [emit, if_neg (by simp [hroom]), resBind_ok]
        exact ih (v / 256) (n - 8) _ (by omega) (by omega) hrest
    next h8 =>
      rw [show (n + 7) / 8 = 1 by omega] at h
      refine .inr ⟨_, rfl, ?_, outFull_of_overflows h⟩
      rw [BitVec.toNat_ofNat, Nat.mod_eq_of_lt (by omega)]
      exact hpos

/-- ENC_FINISH with a match pending, where the match's code and the flush emit more bytes than OUT_CAP allows. -/
theorem encFinish_match_overflows (hw : s.w ≠ []) (hmatch : edGet s.ed s.w = some code)
    (hcode : ValidCode code.toNat s.codeWidth.toNat)
    (hfew : Overflows ((s.nbits.toNat + s.codeWidth.toNat + 7) / 8) s) :
    ∃ u, encFinish s = .raise .outputOverflow u := by
  obtain ⟨hpos, hmax, hfits⟩ := hcode
  rw [encFinish_match hw, pushMatch_eq hmatch, bwPush, if_neg (by omega)]
  rcases peel_flush_overflows _ (s.acc.toNat + code.toNat * 2 ^ s.nbits.toNat) _ s le_rfl (by omega) hfew with
    ⟨u, hpeel⟩ | ⟨u, hpeel, hpending, hfull⟩
  · exact ⟨u, by rw [hpeel, resBind_raise, resBind_raise]⟩
  · refine ⟨noteWidth u, ?_⟩
    rw [hpeel, resBind_ok, resBind_ok, bwFlush_full (s := noteWidth u) hpending hfull, resBind_raise]

/-- ENC_FINISH with no match pending and no room for the bits left. -/
theorem encFinish_noMatch_overflows (hw : s.w = []) (hpending : 0 < s.nbits.toNat) (hfew : Overflows 1 s) :
    encFinish s = .raise .outputOverflow s := by
  rw [encFinish_noMatch hw, bwFlush_full hpending (outFull_of_overflows hfew), resBind_raise]

theorem codeFirstLiteral_overflows {b : Byte} (hfew : Overflows 1 s) :
    ∃ u, codeFirstLiteral b s = .raise .outputOverflow u := by
  obtain ⟨u, hemit⟩ := emitAll_overflows [b] s hfew
  exact ⟨u, by rw [codeFirstLiteral, hemit, resBind_raise]⟩

theorem takeEntry_overflows (hfew : Overflows entry.length s) : ∃ u, takeEntry entry s = .raise .outputOverflow u := by
  obtain ⟨u, hemit⟩ := emitAll_overflows entry s hfew
  exact ⟨u, by rw [takeEntry, hemit, resBind_raise]⟩

theorem Resolves.decoding_eq (h : Resolves s k entry) : decoding s = true := by
  obtain ⟨-, -, ⟨hinit, -⟩ | ⟨hrun, -⟩ | ⟨hrun, -⟩⟩ := h
  · exact decoding_iff.2 (.inl hinit)
  · exact decoding_iff.2 (.inr hrun)
  · exact decoding_iff.2 (.inr hrun)

/-- Each of the three classes that emit raises, where OUT_CAP allows fewer bytes than its entry has. -/
theorem Resolves.takeCode_overflows (h : Resolves s k entry) (hfew : Overflows entry.length s) :
    ∃ u, takeCode k s = .raise .outputOverflow u := by
  obtain ⟨hzero, hclear, hentry⟩ := h
  have hres : NotReserved s k := ⟨hzero, hclear⟩
  unfold takeCode
  rcases hentry with ⟨hinit, hk, rfl⟩ | ⟨hrun, hk⟩ | ⟨hrun, hk, hnext, x, d, hdw, rfl⟩
  · rw [hres.classify_firstLiteral hinit hk]
    exact codeFirstLiteral_overflows hfew
  · rw [hres.classify_known hrun hk, codeKnown_eq hk]
    exact takeEntry_overflows hfew
  · rw [hres.classify_kwkwk hrun hk hnext, codeKwkwk_eq hdw]
    exact takeEntry_overflows hfew

end Sys2Proof.Machine

open Sys2Proof Sys2Proof.Machine

/-- Settles O18: `hdrRead_bad`. -/
theorem hdrReadInvalidHeader : Obligations.HdrReadInvalidHeader := by
  unfold Obligations.HdrReadInvalidHeader
  intro s hbad
  rw [← headerFields_snd_toNat, ← effectiveMaxBits_toNat] at hbad
  exact (hdrRead_abortsFrom s).finish_raise (hdrRead_bad hbad)

/-- Settles O24: each operation checks its operands before it writes anything, so the abort is that of `s`. -/
theorem unitsRejectBadOperands : Obligations.UnitsRejectBadOperands := by
  unfold Obligations.UnitsRejectBadOperands
  intro s
  have haborted := abort_abortedWith .invalidArgument s
  refine ⟨fun hb => ?hdrWrite, fun hcode => ?bwPush, fun hw => ?brPull⟩
  case hdrWrite => exact ⟨_, congrArg finishUnit (hdrWrite_bad hb), haborted⟩
  case bwPush => exact ⟨_, congrArg finishUnit (bwPush_bad hcode), haborted, rfl, rfl⟩
  case brPull =>
    exact ⟨_, congrArg (finish · fun k t => { t with result := .pulled k }) (brPull_bad hw), haborted, rfl, rfl⟩

/-- Settles O43: 256 in block mode is of the clear class in either phase (`classify_clear`). -/
theorem clearCodeUnsupported : Obligations.ClearCodeUnsupported := by
  unfold Obligations.ClearCodeUnsupported
  intro s hphase hwidth hleft hblock hcode
  have hd := decoding_iff.2 hphase
  have hpulled : nextPulled s = 256 := congrArg (BitVec.ofNat 31) hcode
  have hraise : decCode s = .raise .unsupportedClearCode (codePulled s) := by
    rw [decCode_left hwidth hleft, hpulled, takeCode_clear (s := codePulled s) hblock]
  refine ⟨?_, _, runClass_of_class hd (classify_clear hblock), abort_abortedWith _ s⟩
  rw [exec_decCode_decoding hd]
  exact (decCode_abortsFrom s).finish_raise hraise

/-- Settles O50: each operation raises where its bytes do not fit, and what it raises from differs from `s` in no
register an abort is compared by (`Res.AbortsFrom`). -/
theorem fullOutputOverflows : Obligations.FullOutputOverflows := by
  unfold Obligations.FullOutputOverflows
  intro s
  refine ⟨fun hpending hfew => ?flush, fun hb hfew => ?header, fun hcode hfew => ?push,
    fun code he hlt hkey hmatch hcode hfew => ?symbol, fun code he hend hw hmatch hcode hfew => ?finishMatch,
    fun he hend hw hpending hfew => ?finishEmpty, fun k entry hres hfew => ?codeClass,
    fun entry hwidth hleft hres hfew => ?pulled⟩
  case flush =>
    exact (bwFlush_abortsFrom s).finish_raise (bwFlush_full hpending (outFull_of_overflows hfew))
  case header =>
    obtain ⟨u, hraise⟩ := emitAll_overflows [0x1F#8, 0x9D#8, writtenHeaderByte s] s hfew
    exact (hdrWrite_abortsFrom _ _ s).finish_raise ((hdrWrite_operands hb).trans hraise)
  case push =>
    obtain ⟨u, hraise, -⟩ := bwPush_overflows hcode hfew
    exact (bwPush_abortsFrom _ _ s).finish_raise hraise
  case symbol =>
    obtain ⟨u, hraise⟩ := encSymbol_overflows hkey hmatch hcode hfew
    rw [exec_encSymbol_encoding he hlt]
    exact (encSymbol_abortsFrom s).finish_raise hraise
  case finishMatch =>
    obtain ⟨u, hraise⟩ := encFinish_match_overflows hw hmatch hcode hfew
    rw [exec_encFinish_encoding he hend]
    exact (encFinish_abortsFrom s).finish_raise hraise
  case finishEmpty =>
    rw [exec_encFinish_encoding he hend]
    exact (encFinish_abortsFrom s).finish_raise (encFinish_noMatch_overflows hw hpending hfew)
  case codeClass =>
    obtain ⟨u, hraise⟩ := hres.takeCode_overflows hfew
    rw [exec_decodeCode hres.decoding_eq]
    exact (takeCode_abortsFrom k s).finish_raise hraise
  case pulled =>
    have hpulled : Resolves (codePulled s) (nextPulled s) entry := hres
    obtain ⟨u, hraise⟩ := hpulled.takeCode_overflows hfew
    rw [exec_decCode_decoding hres.decoding_eq]
    exact (decCode_abortsFrom s).finish_raise ((decCode_left hwidth hleft).trans hraise)
end

section
/-! Hardware reset (70_reset_and_hazards.md R230), and the invariant right after power-on (10_state.md R43). Settles O11
and O56. -/

namespace Sys2Proof.Machine

variable {s : State} {rest : List Input}

theorem step_reset (hin : s.inputs = .reset :: rest) : step s = .next (hardReset { s with inputs := rest }) := by
  rw [step_eq_runFetched]
  simp only [fetch, hin, runFetched_done]

theorem flagsAgree_reset : FlagsAgree State.reset := (flagsAgree_hardReset State.reset).congr rfl

end Sys2Proof.Machine

open Sys2Proof Sys2Proof.Machine

/-- Settles O11: `step_reset`, and the registers of `hardReset` one by one. -/
theorem hardwareReset : Obligations.HardwareReset := by
  unfold Obligations.HardwareReset
  intro s rest hin
  exact ⟨_, step_reset hin, rfl, rfl, rfl, rfl, rfl, rfl, rfl, rfl, rfl, rfl, rfl, rfl⟩

/-- Settles O56: no move is pending, the registers are consistent, and no transaction has started. -/
theorem runInvAtReset : Obligations.RunInvAtReset := by
  unfold Obligations.RunInvAtReset
  have htx : TransactionInv State.reset := transactionInv_of_not_running rfl
  exact {
    host := nofun
    params := by decide
    canonical := reset_canonical, reserved := reset_reservedZero, flags := flagsAgree_reset
    dict := htx.dict, enc := htx.enc, dec := htx.dec }
end

section
/-! A machine driven by its host answers every step (43_encoder.md R154, 70_reset_and_hazards.md R231): the controller's
step that is due runs in its phase and finds every value it reads, and the host's moves can be made. Settles O58. -/

namespace Sys2Proof.Machine

variable {s : State}

/-! ## Operations that read no value that does not exist -/

theorem Res.Defined.finishUnit_next {r : Res Unit} (h : r.Defined) : ∃ t, finishUnit r = .next t := by
  cases r with
  | ok _ u => exact ⟨u, finishUnit_ok u⟩
  | raise e u => exact ⟨_, finishUnit_raise e u⟩
  | undef => exact h.elim

theorem hdrRead_defined (s : State) : (hdrRead s).Defined := by
  unfold hdrRead
  simp only []
  split_ifs <;> trivial

theorem decStart_defined (s : State) : (decStart s).Defined := by
  have hread := hdrRead_defined (clearOut s)
  unfold decStart
  cases hr : hdrRead (clearOut s) with
  | undef => rw [hr] at hread; exact hread.elim
  | ok f u | raise e u => trivial

theorem encStart_defined (s : State) : (encStart s).Defined := by
  rcases Nat.lt_or_ge s.params.maxBitsCap (encMaxBits s).toNat with hcap | hcap
  · rw [encStart_above_cap hcap]
    trivial
  · rw [encStart_within_cap hcap]
    rcases emitAll_frame [0x1F#8, 0x9D#8, encHeaderByte s] (encStarted s) with ⟨u, hu, -⟩ | ⟨u, hu, -⟩ <;>
      rw [hu] <;> trivial

/-! ## The controller's step -/

/-- What a running transaction waits for: its start step, or a step of its coder. -/
theorem FlagsAgree.due_cases (h : FlagsAgree s) (hrun : s.phase.running = true) :
    (s.phase = .encEmpty ∧ s.starting = true) ∨ encoding s = true ∨ s.phase = .decAwaitHeader ∨ decoding s = true := by
  cases hphase : s.phase with
  | idle | encFlushed | decDone | error => simp [hphase, Phase.running] at hrun
  | decAwaitHeader => simp
  | decInit | decRunning => simp [decoding, hphase]
  | encEmpty => cases hstart : s.starting <;> simp [encoding, hphase, hstart]
  | encMatching =>
    have hstart : s.starting = false := by
      by_contra hstart
      simpa [hphase] using h.starting_phase (by simpa using hstart)
    simp [encoding, hphase, hstart]

/-- A started ENCODE takes its next symbol, or finishes at its end. -/
theorem RunInv.encoding_completes (h : RunInv s) (he : encoding s = true) :
    ∃ t, exec (if s.inIdx.toNat < s.sampledInLen.toNat then UnitLabel.encSymbol else .encFinish).instr s = .next t := by
  split
  next hlt =>
    rcases exec_encSymbol_cases h he hlt with ⟨t, hnext, -⟩ | ⟨u, hnext⟩ <;> exact ⟨_, hnext⟩
  next hend =>
    obtain ⟨-, -, henc⟩ := h.of_encoding he
    have hindex : s.inIdx = s.sampledInLen := BitVec.eq_of_toNat_eq (henc.index_le.antisymm (Nat.le_of_not_lt hend))
    rcases exec_encFinish_cases h he hindex with ⟨t, hnext, -⟩ | ⟨u, hnext⟩ <;> exact ⟨_, hnext⟩

/-- While `BUSY = 1` a controller step is due, and it answers a next state. -/
theorem RunInv.controller_completes (h : RunInv s) (hbusy : s.status.busy = true) :
    ∃ l t, nextLabel s = some l ∧ exec l.instr s = .next t := by
  rcases h.flags.due_cases (h.flags.busy_iff.symm.trans hbusy) with ⟨hphase, hstart⟩ | he | hphase | hd
  · obtain ⟨t, hnext⟩ := (encStart_defined s).finishUnit_next
    exact ⟨.encStart, t, nextLabel_encStart hphase hstart, (exec_encStart_due hphase hstart).trans hnext⟩
  · obtain ⟨t, hnext⟩ := h.encoding_completes he
    exact ⟨_, t, nextLabel_encoding he, hnext⟩
  · obtain ⟨t, hnext⟩ := (decStart_defined s).finishUnit_next
    exact ⟨.decStart, t, nextLabel_decStart hphase, (exec_decStart_await hphase).trans hnext⟩
  · obtain ⟨t, hnext, -⟩ := exec_decCode_cases h hd
    exact ⟨.decCode, t, nextLabel_decoding hd, hnext⟩

theorem RunInv.coreTurn_completes (h : RunInv s) : ∃ t, runFetched (coreTurn s) = .next t := by
  cases hbusy : s.status.busy with
  | false => exact ⟨s, by simp only [coreTurn, hbusy, runFetched_done]⟩
  | true =>
    obtain ⟨l, t, hlabel, hnext⟩ := h.controller_completes hbusy
    exact ⟨t, by simp only [coreTurn, hbusy, hlabel, runFetched_label, hnext]⟩

/-! ## The host's moves -/

/-- The invariant with some of the pending moves taken. -/
theorem RunInv.withInputs (h : RunInv s) {rest : List Input} (hrest : rest ⊆ s.inputs) :
    RunInv { s with inputs := rest } :=
  have htx := h.transaction.withInputs rest
  { host := fun move hmove => h.host move (hrest hmove)
    params := h.params, canonical := h.canonical, reserved := h.reserved, flags := h.flags.congr rfl
    dict := htx.dict, enc := htx.enc, dec := htx.dec }

/-- A value written to CMD is accepted, rejected or ignored (45_control.md R190, R192, R193). -/
theorem exec_decodeCmd_completes (op : Byte) (s : State) : ∃ t, exec (decodeCmd op) s = .next t := by
  cases hbusy : s.status.busy with
  | true => exact ⟨s, exec_decodeCmd_of_busy op hbusy⟩
  | false =>
    rcases decodeCmd_cases op with hop | hop | hop <;> rw [hop]
    · exact ⟨_, exec_command .encode hbusy⟩
    · exact ⟨_, exec_command .decode hbusy⟩
    · exact ⟨_, exec_illegalCmd_of_idle op hbusy⟩

end Sys2Proof.Machine

open Sys2Proof Sys2Proof.Machine

/-- Settles O58: along the pending move; CORE's turn is `RunInv.coreTurn_completes`, a bench's operation is not pending. -/
theorem hostDrivenStepsComplete : Obligations.HostDrivenStepsComplete := by
  unfold Obligations.HostDrivenStepsComplete
  intro s h hread
  cases hin : s.inputs with
  | nil =>
    rw [step_eq_runFetched]
    simp only [fetch, hin]
    exact h.coreTurn_completes
  | cons move rest =>
    have hrest : rest ⊆ s.inputs := hin ▸ List.subset_cons_self move rest
    cases move with
    | writeReg idx v =>
      rw [step_writeReg hin]
      split
      · exact exec_decodeCmd_completes _ _
      · exact ⟨_, rfl⟩
    | readReg idx => exact ⟨_, step_readReg hin⟩
    | writeIn i b => exact ⟨_, step_writeIn hin⟩
    | readOut i => exact ⟨_, step_readOut hin (hread i (by rw [hin]; rfl))⟩
    | wait =>
      rw [step_eq_runFetched]
      simp only [fetch, hin]
      split
      · exact h.coreTurn_completes
      · exact ⟨_, rfl⟩
    | yield =>
      rw [step_eq_runFetched]
      simp only [fetch, hin]
      exact (h.withInputs hrest).coreTurn_completes
    | reset => exact ⟨_, step_reset hin⟩
    | issue w => exact absurd rfl (h.host (.issue w) (by simp [hin]) w)
end
